-- ==== Sys2Proof/Word.lean ====
section
/-! DEFINITION. The word types of the drive block (R8, R80): the byte, the six-bit value of the dense code, the 16-bit
command word. -/

namespace Sys2Proof

/-- A byte is 8 bits, bit 7 the most significant (R8). -/
abbrev Byte := BitVec 8

/-- A six-bit value of the dense code (R94). -/
abbrev Six := BitVec 6

/-- The command word: one 16-bit number per operation (R80). -/
abbrev CmdWord := BitVec 16

end Sys2Proof
end

