-- ==== Sys2Proof/Config.lean ====
section
/-! DEFINITION. The parameters of `00_scope.md` R6 and R7 that size the state or select a variant, each at the value or
default the spec gives it (DESIGN CHOICE, unsafe: log entry 1), and the free value that stands for a draw (R13). The byte values of the disk format stand in
`Machine/Format.lean`, beside the encoders that use them. -/

namespace Sys2Proof.Config

/-- NTRACKS (R6): whole tracks of a disk. -/
abbrev nTracks : Nat := 35

/-- The number of half-track positions 0..HALF_MAX, HALF_MAX = 69 (R6). -/
abbrev nHalf : Nat := 70

/-- NPHASES (R6). -/
abbrev nPhases : Nat := 4

/-- SECTORS (R6): sectors of a track. -/
abbrev nSectors : Nat := 16

/-- SECTOR_BYTES (R6). -/
abbrev sectorBytes : Nat := 256

/-- TRACK_BYTES (R6). -/
abbrev trackBytes : Nat := 4096

/-- IMAGE_BYTES_SECTOR (R6). -/
abbrev imageBytesSector : Nat := 143360

/-- N, TRACK_NIB_LEN (R7): bytes in a track buffer. -/
abbrev trackNibLen : Nat := 6656

/-- IMAGE_BYTES_NIBBLE (R7). -/
abbrev imageBytesNibble : Nat := 232960

/-- INIT_HALF (R7): the head position at power-on. -/
def initHalf : Fin nHalf := 0

/-- INIT_LAST (R7): the last energized phase at power-on. -/
def initLast : Fin nPhases := 0

/-- LOAD_CURSOR (R7): the cursor after a load. -/
def loadCursor : Fin trackNibLen := 0

/-- NO_DISK_SENTINEL (R7): the byte read from a drive with no image. -/
def noDiskSentinel : Byte := 0xFF

/-- STATUS_CLEAR_ON_READ (R7): whether RDSTAT clears the protection status bit. -/
def statusClearOnRead : Bool := false

/-- `draw(byte)` (R13, U1, U2): the value of the n-th draw of a run. It has no body: nothing constrains it, so whatever
is proved holds for every floating value. DESIGN CHOICE of the form, safe: log entry 3. -/
opaque freeByte : Nat → Byte

end Sys2Proof.Config
end

