-- ==== Sys2Proof/Syntax.lean ====
section
/-! DEFINITION. The operations of the block as syntax: one constructor per row of the opcode map (R82), its operands as
the rule of the operation names them. Operands too large for a command word are no part of an instruction: they travel
beside it (R85) and stand in the state (`State.sideIn`). -/

namespace Sys2Proof

/-- The drive number of a unit-level operation: there are exactly two drives (R6, R233). -/
inductive DriveId where
  | d0
  | d1
deriving DecidableEq, Repr

/-- The operations of R82, in the table's order. `d` is the drive bit; a Boolean operand is `imm8[0]`, a phase mask is
`imm8[3:0]`, every other operand is all of `imm8` (R81). -/
inductive Instr where
  /-- CENC, encode one track `t` of the side-band block (R120). -/
  | cenc (t : Byte)
  /-- CDEC, decode one track `t` from the side-band stream (R121). -/
  | cdec (t : Byte)
  /-- TBLOAD, load the track under the head (R150). -/
  | tbload (d : DriveId)
  /-- TBREAD, read the byte at the cursor (R151). -/
  | tbread (d : DriveId)
  /-- TBWRITE, write a byte at the cursor (R152). -/
  | tbwrite (d : DriveId) (b : Byte)
  /-- TBFLUSH, write a dirty buffer back (R153). -/
  | tbflush (d : DriveId)
  /-- DSTEP, apply a phase mask to the stepper (R170). -/
  | dstep (d : DriveId) (m : BitVec 4)
  /-- DSEL, motor on or off (R174). -/
  | dsel (d : DriveId) (e : Bool)
  /-- DISWP, sense write protection (R175). -/
  | diswp (d : DriveId)
  /-- DSETWPO, set the write-protect override (R176). -/
  | dsetwpo (d : DriveId) (v : Bool)
  /-- RESET, the reset entry point (R250). -/
  | reset
  /-- SELECT, choose a drive by index (R191). -/
  | select (i : Byte)
  /-- SETWM, set read or write mode (R192). -/
  | setwm (e : Bool)
  /-- LDLATCH, load the write-data latch (R193). -/
  | ldlatch (b : Byte)
  /-- RWBYTE, transfer one byte (R194). -/
  | rwbyte
  /-- STEP, energize one stepper phase of the selected drive (R195). -/
  | step (ph : Byte)
  /-- INSERT, attach the side-band image to a drive (R196). -/
  | insert (i : Byte)
  /-- EJECT, flush and detach (R197). -/
  | eject (i : Byte)
  /-- ISWP, write-protect sense of the selected drive (R198). -/
  | iswp
  /-- RDSTAT, read the protection status bit (R199). -/
  | rdstat
deriving DecidableEq, Repr

/-- The four fields of a command word (R80). -/
structure Fields where
  /-- W[15:11], the operation code. -/
  op : BitVec 5
  /-- W[10:9], reserved. -/
  rsv : BitVec 2
  /-- W[8], the drive number. -/
  d : BitVec 1
  /-- W[7:0], the 8-bit operand. -/
  imm8 : Byte
deriving DecidableEq, Repr

/-- Why a word is illegal (R84): `op` is unassigned, or `op` is assigned and some bit that must be 0 is 1. -/
inductive DecodeError where
  | badCommand
  | badOperand
deriving DecidableEq, Repr

end Sys2Proof
end

