-- ==== Sys2Proof/WellFormed.lean ====
section
/-! DEFINITION. When the fields of a command word are well formed (R80, R84): the operation code is assigned, the
reserved bits are 0, the drive bit is 0 where the operation has no drive operand, and every operand bit that must be 0
is 0. The operands of `Instr` are typed at their own widths, so every instruction has well-formed fields (shown in
`Decode.lean`); ill-formed ones exist only as words. -/

namespace Sys2Proof

/-- The assigned operation codes (R82): all but 0x00, 0x03, 0x0C to 0x0F and 0x1A to 0x1F (R84). -/
def Fields.assigned (f : Fields) : Bool :=
  f.op ∈ ([0x01, 0x02, 0x04, 0x05, 0x06, 0x07, 0x08, 0x09, 0x0A, 0x0B,
           0x10, 0x11, 0x12, 0x13, 0x14, 0x15, 0x16, 0x17, 0x18, 0x19] : List (BitVec 5))

/-- Whether the operation has a drive operand (R82): the unit-level operations on a drive, 0x04 to 0x0B. -/
def Fields.takesDrive (f : Fields) : Bool :=
  f.op ∈ ([0x04, 0x05, 0x06, 0x07, 0x08, 0x09, 0x0A, 0x0B] : List (BitVec 5))

/-- The bits of `imm8` the operation may use (R81, R82): all eight, the low four (a phase mask), the low one (a
Boolean), or none. -/
def Fields.operandBits (f : Fields) : Byte :=
  if f.op ∈ ([0x01, 0x02, 0x06, 0x11, 0x13, 0x15, 0x16, 0x17] : List (BitVec 5)) then 0xFF
  else if f.op = 0x08 then 0x0F
  else if f.op ∈ ([0x09, 0x0B, 0x12] : List (BitVec 5)) then 0x01
  else 0x00

/-- Every bit that must be 0 is 0 (R80, R84). -/
def Fields.operandsOk (f : Fields) : Bool :=
  f.rsv = 0 && (f.takesDrive || f.d = 0) && (f.imm8 &&& ~~~f.operandBits = 0)

/-- The fields of a legal command word (R84). -/
def Fields.wellFormed (f : Fields) : Bool :=
  f.assigned && f.operandsOk

end Sys2Proof
end

