-- ==== Sys2Proof/Decode.lean ====
section
/-! DEFINITION. The decoder of command words, total on all 65536 of them (R80 to R84), the encoder written from the same
table, the opcode map itself (R82) as data, and the decoder as the host's table numbers its words. -/

namespace Sys2Proof

/-- The fields of a word (R80). -/
def split (w : CmdWord) : Fields :=
  { op := w.extractLsb' 11 5, rsv := w.extractLsb' 9 2, d := w.extractLsb' 8 1, imm8 := w.extractLsb' 0 8 }

/-- The word of four fields (R80). -/
def pack (f : Fields) : CmdWord :=
  f.op ++ f.rsv ++ f.d ++ f.imm8

/-- The drive a drive bit names. -/
def DriveId.ofBit (b : BitVec 1) : DriveId :=
  if b = 1 then .d1 else .d0

/-- The drive bit of a drive. -/
def DriveId.bit : DriveId → BitVec 1
  | .d0 => 0
  | .d1 => 1

/-- A Boolean operand is `imm8[0]` (R81). -/
def boolOperand (imm8 : Byte) : Bool :=
  imm8.extractLsb' 0 1 = 1

/-- The instruction of an operation code with its operands assembled (R81, R82); `none` where the code is unassigned. -/
def build (f : Fields) : Option Instr :=
  match f.op.toNat with
  | 0x01 => some (.cenc f.imm8)
  | 0x02 => some (.cdec f.imm8)
  | 0x04 => some (.tbload (.ofBit f.d))
  | 0x05 => some (.tbread (.ofBit f.d))
  | 0x06 => some (.tbwrite (.ofBit f.d) f.imm8)
  | 0x07 => some (.tbflush (.ofBit f.d))
  | 0x08 => some (.dstep (.ofBit f.d) (f.imm8.extractLsb' 0 4))
  | 0x09 => some (.dsel (.ofBit f.d) (boolOperand f.imm8))
  | 0x0A => some (.diswp (.ofBit f.d))
  | 0x0B => some (.dsetwpo (.ofBit f.d) (boolOperand f.imm8))
  | 0x10 => some .reset
  | 0x11 => some (.select f.imm8)
  | 0x12 => some (.setwm (boolOperand f.imm8))
  | 0x13 => some (.ldlatch f.imm8)
  | 0x14 => some .rwbyte
  | 0x15 => some (.step f.imm8)
  | 0x16 => some (.insert f.imm8)
  | 0x17 => some (.eject f.imm8)
  | 0x18 => some .iswp
  | 0x19 => some .rdstat
  | _ => none

/-- The decoder (R82, R84): PP_BAD_COMMAND is tried before PP_BAD_OPERAND (R227). -/
def decode (w : CmdWord) : Except DecodeError Instr :=
  match build (split w) with
  | none => .error .badCommand
  | some i => if (split w).operandsOk then .ok i else .error .badOperand

/-- The 8-bit operand of a Boolean. -/
def boolImm (e : Bool) : Byte :=
  if e then 1 else 0

/-- The fields of an instruction, row by row from R82. -/
def Instr.fields : Instr → Fields
  | .cenc t => { op := 0x01, rsv := 0, d := 0, imm8 := t }
  | .cdec t => { op := 0x02, rsv := 0, d := 0, imm8 := t }
  | .tbload d => { op := 0x04, rsv := 0, d := d.bit, imm8 := 0 }
  | .tbread d => { op := 0x05, rsv := 0, d := d.bit, imm8 := 0 }
  | .tbwrite d b => { op := 0x06, rsv := 0, d := d.bit, imm8 := b }
  | .tbflush d => { op := 0x07, rsv := 0, d := d.bit, imm8 := 0 }
  | .dstep d m => { op := 0x08, rsv := 0, d := d.bit, imm8 := m.setWidth 8 }
  | .dsel d e => { op := 0x09, rsv := 0, d := d.bit, imm8 := boolImm e }
  | .diswp d => { op := 0x0A, rsv := 0, d := d.bit, imm8 := 0 }
  | .dsetwpo d v => { op := 0x0B, rsv := 0, d := d.bit, imm8 := boolImm v }
  | .reset => { op := 0x10, rsv := 0, d := 0, imm8 := 0 }
  | .select i => { op := 0x11, rsv := 0, d := 0, imm8 := i }
  | .setwm e => { op := 0x12, rsv := 0, d := 0, imm8 := boolImm e }
  | .ldlatch b => { op := 0x13, rsv := 0, d := 0, imm8 := b }
  | .rwbyte => { op := 0x14, rsv := 0, d := 0, imm8 := 0 }
  | .step ph => { op := 0x15, rsv := 0, d := 0, imm8 := ph }
  | .insert i => { op := 0x16, rsv := 0, d := 0, imm8 := i }
  | .eject i => { op := 0x17, rsv := 0, d := 0, imm8 := i }
  | .iswp => { op := 0x18, rsv := 0, d := 0, imm8 := 0 }
  | .rdstat => { op := 0x19, rsv := 0, d := 0, imm8 := 0 }

/-- The encoder: the command word of an instruction (R80, R82). -/
def encode (i : Instr) : CmdWord :=
  pack i.fields

/-- One row of the opcode map (R82). -/
structure OpcodeRow where
  mnemonic : String
  value : CmdWord
  mask : CmdWord
deriving DecidableEq, Repr

/-- The opcode map as R82 prints it: a word decodes to the row whose masked bits are its `value`. -/
def opcodeMap : List OpcodeRow :=
  [ ⟨"CENC", 0x0800, 0xFF00⟩, ⟨"CDEC", 0x1000, 0xFF00⟩, ⟨"TBLOAD", 0x2000, 0xFEFF⟩, ⟨"TBREAD", 0x2800, 0xFEFF⟩,
    ⟨"TBWRITE", 0x3000, 0xFE00⟩, ⟨"TBFLUSH", 0x3800, 0xFEFF⟩, ⟨"DSTEP", 0x4000, 0xFEF0⟩, ⟨"DSEL", 0x4800, 0xFEFE⟩,
    ⟨"DISWP", 0x5000, 0xFEFF⟩, ⟨"DSETWPO", 0x5800, 0xFEFE⟩ ] ++
  [ ⟨"RESET", 0x8000, 0xFFFF⟩, ⟨"SELECT", 0x8800, 0xFF00⟩, ⟨"SETWM", 0x9000, 0xFFFE⟩, ⟨"LDLATCH", 0x9800, 0xFF00⟩,
    ⟨"RWBYTE", 0xA000, 0xFFFF⟩, ⟨"STEP", 0xA800, 0xFF00⟩, ⟨"INSERT", 0xB000, 0xFF00⟩, ⟨"EJECT", 0xB800, 0xFF00⟩,
    ⟨"ISWP", 0xC000, 0xFFFF⟩, ⟨"RDSTAT", 0xC800, 0xFFFF⟩ ]

/-- The mnemonic of an instruction (R82, R83). -/
def Instr.mnemonic : Instr → String
  | .cenc _ => "CENC"
  | .cdec _ => "CDEC"
  | .tbload _ => "TBLOAD"
  | .tbread _ => "TBREAD"
  | .tbwrite _ _ => "TBWRITE"
  | .tbflush _ => "TBFLUSH"
  | .dstep _ _ => "DSTEP"
  | .dsel _ _ => "DSEL"
  | .diswp _ => "DISWP"
  | .dsetwpo _ _ => "DSETWPO"
  | .reset => "RESET"
  | .select _ => "SELECT"
  | .setwm _ => "SETWM"
  | .ldlatch _ => "LDLATCH"
  | .rwbyte => "RWBYTE"
  | .step _ => "STEP"
  | .insert _ => "INSERT"
  | .eject _ => "EJECT"
  | .iswp => "ISWP"
  | .rdstat => "RDSTAT"

/-- The command word whose low `nbits` bits are `w`'s and whose other bits are 0: a command word is one 16-bit number
(R80), so the table's bit k is the word's bit k. -/
def tableWord (nbits w : Nat) : CmdWord :=
  BitVec.ofNat 16 (w % 2 ^ nbits)

/-- The decoder on a word as the opcode table numbers its bits; there is one length, 16 bits (R80), so no instruction is
longer. -/
def decodeTableWord (nbits w : Nat) : Option Instr :=
  if nbits ≤ 16 then (decode (tableWord nbits w)).toOption else none

end Sys2Proof
end

