-- ==== Sys2Proof/Machine/State.lean ====
section
/-! DEFINITION. The state of the drive block as plain data (`10_state.md`, R20 to R42), the host's side of its interface
(the operations still to be issued, the side-band operands, the host's images, the response: R14, R85, R265), the state
at power-on (R252), and the reasons a step can stop. -/

namespace Sys2Proof.Machine

/-- The two image layouts (R31). -/
inductive Layout where
  /-- "raw sector order" -/
  | sector
  /-- "pre-nibblized order" -/
  | nibble
deriving DecidableEq, Repr

/-- The length an image of a layout has (R31, R50). -/
def Layout.bytes : Layout → Nat
  | .sector => Config.imageBytesSector
  | .nibble => Config.imageBytesNibble

/-- The bytes of one image (R50): offsets strictly rising, no entry equal to what an unlisted offset reads as
(`Memory.unlisted`), the one form `Memory.wf` states. -/
abbrev Memory := List Host.Cell

/-- What an offset that is not listed reads as. Every byte of an image is the host's (R20), so this is how a zero byte is
written down and no reset value. DESIGN CHOICE, unsafe: log entry 4. -/
def Memory.unlisted : Byte := 0x00

/-- The canonical form of a memory. -/
abbrev Memory.wf (m : Memory) : Prop :=
  m.Pairwise (fun a b => a.1 < b.1) ∧ ∀ c ∈ m, c.2 ≠ Memory.unlisted

/-- Every listed offset lies inside a space of `len` bytes. -/
abbrev Memory.within (m : Memory) (len : Nat) : Prop :=
  ∀ c ∈ m, c.1 < len

/-- A disk image in the host's hands (R31): layout tag, read-only attribute, and a byte sequence of any length. -/
structure HostImage where
  layout : Layout
  ro : Bool
  len : Nat
  mem : Memory
deriving DecidableEq, Repr

/-- `D[d].img` when it is not `none` (R31): which of the host's images is attached, its layout and read-only attribute,
and the byte sequence `IMG[d]`, whose length is `layout.bytes`. -/
structure Disk where
  name : Nat
  layout : Layout
  ro : Bool
  mem : Memory
deriving DecidableEq, Repr

/-- The N bytes of a track buffer (R33). -/
abbrev TrackBytes := Vector Byte Config.trackNibLen

/-- One 256-byte sector. -/
abbrev Sector := Vector Byte Config.sectorBytes

/-- The track buffer (R33 to R36); the bounds of R39 item 4 are the fields' types. -/
structure TrackBuffer where
  /-- `TB.buf` (R33). -/
  buf : TrackBytes
  /-- `TB.cur`, the index of the next byte (R34). -/
  cur : Fin Config.trackNibLen
  /-- `TB.dirty` (R35). -/
  dirty : Bool
  /-- `TB.track`, the whole track the buffer was loaded from (R36). -/
  track : Fin Config.nTracks
deriving DecidableEq, Repr

/-- One drive mechanism (R25 to R32); the bounds of R39 item 1 are the fields' types. -/
structure Drive where
  /-- `D[d].half`, the half-track position (R25). -/
  half : Fin Config.nHalf
  /-- `D[d].phases`, bit p = phase line p energized (R26). -/
  phases : BitVec 4
  /-- `D[d].last`, the previously energized phase (R27). -/
  last : Fin Config.nPhases
  /-- `D[d].motor` (R28). -/
  motor : Bool
  /-- `D[d].light` (R29). -/
  light : Bool
  /-- `D[d].wpo`, the write-protect override (R30). -/
  wpo : Bool
  /-- `D[d].img` with the bytes `IMG[d]` (R31). -/
  img : Option Disk
  /-- `D[d].tb` (R32). -/
  tb : Option TrackBuffer
deriving DecidableEq, Repr

/-- The controller registers (R21 to R24). -/
structure Controller where
  /-- `C.sel`; `none` is the value −1 (R21). -/
  sel : Option DriveId
  /-- `C.wmode` (R22). -/
  wmode : Bool
  /-- `C.latch` (R23). -/
  latch : Byte
  /-- `C.pstat` (R24). -/
  pstat : Bool
deriving DecidableEq, Repr

/-- The response status (R220). -/
inductive Status where
  | ok
  | ppBadCommand
  | ppBadOperand
  | ppDriveRange
  | ppSlotOccupied
  | ppBadImage
  | ppPhaseRange
  | ppTrackRange
  | decodeIntegrity
deriving DecidableEq, Repr

/-- The response record `RESP` (R14). -/
structure Response where
  status : Status
  value : Byte
  fail : BitVec 16
deriving DecidableEq, Repr

/-- A side-band operand (R85): nothing, the byte sequence of CENC or CDEC, or the name of one of the host's images for
INSERT (R87: "a name ... bound in the program's start state"). -/
inductive SideBand where
  | none
  | bytes (b : List Byte)
  | image (name : Nat)
deriving DecidableEq, Repr

/-- A side-band result (R14): CENC's byte sequence, CDEC's sixteen optional sectors, or nothing. -/
inductive SideResult where
  | none
  | stream (b : TrackBytes)
  | sectors (res : Vector (Option Sector) Config.nSectors)
deriving DecidableEq, Repr

/-- One operation as the host issues it: the command word and what travels beside it (R80, R85). -/
structure Command where
  word : CmdWord
  side : SideBand
deriving DecidableEq, Repr

/-- The whole state. -/
structure State where
  /-- The controller record `C` (R20). -/
  ctl : Controller
  /-- `D[0]` (R20). -/
  drive0 : Drive
  /-- `D[1]` (R20). -/
  drive1 : Drive
  /-- The host's images by name; `none` where the block holds the image, from INSERT to EJECT (R31, R65, R265).
  DESIGN CHOICE of the form, safe: log entry 8. -/
  store : List (Option HostImage)
  /-- The operations the host has still to issue, in order (R15, R265). DESIGN CHOICE of the form, safe: log entry 5. -/
  queue : List Command
  /-- What travels beside the operation being performed (R85). -/
  sideIn : SideBand
  /-- The response of the operation last performed (R14). DESIGN CHOICE of the form, safe: log entry 10. -/
  resp : Response
  /-- Its side-band result (R14). -/
  sideOut : SideResult
  /-- The MODEL's own field: how many draws the run has made, the argument of `Config.freeByte`. -/
  draws : Nat
deriving DecidableEq, Repr

/-- A drive at power-on (R252). -/
def Drive.powerOn : Drive :=
  { half := Config.initHalf, phases := 0, last := Config.initLast, motor := false, light := false, wpo := false,
    img := none, tb := none }

/-- The power-on state (R252): what the state is before any operation. The host holds no image and has issued nothing;
it fills `store` and `queue`. The values of the fields that are the model's own: DESIGN CHOICE, unsafe, log entry 2. -/
def State.reset : State :=
  { ctl := { sel := none, wmode := false, latch := 0x00, pstat := false }
    drive0 := Drive.powerOn
    drive1 := Drive.powerOn
    store := []
    queue := []
    sideIn := .none
    resp := { status := .ok, value := 0, fail := 0 }
    sideOut := .none
    draws := 0 }

/-- The reasons a step can end in a fault: there is none. "Nothing in this core is fatal" (R225), every access is in
range by the types of the state (R56), so no operation raises a fault and nothing rests on one. -/
inductive Fault where
deriving DecidableEq, Repr

/-- The reasons a step can have no meaning. -/
inductive Refusal where
  /-- Raised by no meaning: the form `exec` would use for an instruction with no meaning yet. Safe. -/
  | notModelled (mnemonic : String)
  /-- Raised by INSERT when the image named beside the word is in the other drive's hands: R256 and U8 say "the host may
  not attach one image to both drives", treatment "refuse" (the model gives the host no such move). Safe: the machine
  stops where the hardware would go on. Log entry 9. -/
  | sharedImage
deriving DecidableEq, Repr

end Sys2Proof.Machine
end

