-- ==== Sys2Proof/Machine/Ops.lean ====
section
/-! DEFINITION. The named operations over the image memories and the records of the state; the response, and with it what
stands in the place of taking an exception (R12, R228: a ProtocolPrecondition is reported and nothing else happens; there
is no handler and nothing to return from, R229); issuing one command. -/

namespace Sys2Proof.Machine

/-- One byte of a memory: `MemRead(S, a, 1)` (R11). -/
def Memory.read (m : Memory) (a : Nat) : Byte :=
  (m.lookup a).getD Memory.unlisted

/-- `MemRead(S, a, n)` (R11): lowest offset first. -/
def Memory.readBlock (m : Memory) (a n : Nat) : Vector Byte n :=
  Vector.ofFn fun i : Fin n => m.read (a + i.val)

/-- The cells of a byte sequence laid at offset `a`, those equal to the unlisted byte left out. -/
def Memory.cellsFrom (a : Nat) : List Byte → Memory
  | [] => []
  | b :: bs => if b = Memory.unlisted then Memory.cellsFrom (a + 1) bs else (a, b) :: Memory.cellsFrom (a + 1) bs

/-- `MemWrite(S, a, n, v)` (R11) with `n` the length of `v`. -/
def Memory.writeBlock (m : Memory) (a : Nat) (v : List Byte) : Memory :=
  m.filter (fun c => c.1 < a) ++ Memory.cellsFrom a v ++ m.filter (fun c => a + v.length ≤ c.1)

/-- An image taken out of the host's hands (R265, INSERT). -/
def HostImage.attached (h : HostImage) (name : Nat) : Disk :=
  { name := name, layout := h.layout, ro := h.ro, mem := h.mem }

/-- An image given back to the host (R265, EJECT): its length is its layout's. -/
def Disk.returned (k : Disk) : HostImage :=
  { layout := k.layout, ro := k.ro, len := k.layout.bytes, mem := k.mem }

/-- The other of the two drives. -/
def driveOther : DriveId → DriveId
  | .d0 => .d1
  | .d1 => .d0

/-- `D[d]` (R10). -/
def State.drive (s : State) : DriveId → Drive
  | .d0 => s.drive0
  | .d1 => s.drive1

/-- `D[d] <- x` (R10). -/
def State.setDrive (s : State) (d : DriveId) (x : Drive) : State :=
  match d with
  | .d0 => { s with drive0 := x }
  | .d1 => { s with drive1 := x }

/-- `C.sel` as the signed number the rules write (R21). -/
def selIndex : Option DriveId → Int
  | none => -1
  | some .d0 => 0
  | some .d1 => 1

/-- The numeric code of a status (R220). -/
def statusCode : Status → BitVec 8
  | .ok => 0x00
  | .ppBadCommand => 0x10
  | .ppBadOperand => 0x11
  | .ppDriveRange => 0x12
  | .ppSlotOccupied => 0x13
  | .ppBadImage => 0x14
  | .ppPhaseRange => 0x15
  | .ppTrackRange => 0x16
  | .decodeIntegrity => 0x20

/-- The response as a 32-bit number, `status << 24 | value << 16 | fail` (R86). -/
def responseWord (r : Response) : BitVec 32 :=
  statusCode r.status ++ r.value ++ r.fail

/-- The end of an operation: its response and its side-band result (R14). -/
def State.respond (s : State) (r : Response) (out : SideResult) : State :=
  { s with resp := r, sideOut := out }

/-- `raise ProtocolPrecondition(code)` (R12, R221): the status is reported and nothing else changes. -/
def State.raise (s : State) (code : Status) : State :=
  s.respond { status := code, value := 0, fail := 0 } .none

/-- `draw(byte)` (R13): a free value, and the state with the draw counted. -/
def State.draw (s : State) : Byte × State :=
  (Config.freeByte s.draws, { s with draws := s.draws + 1 })

/-- The status of a decoder error (R84). -/
def decodeStatus : DecodeError → Status
  | .badCommand => .ppBadCommand
  | .badOperand => .ppBadOperand

/-- The host issues one command (R15): the rest of its operations stay to be issued, the side band holds what travels
beside the word. -/
def State.issue (s : State) (c : Command) (rest : List Command) : State :=
  { s with queue := rest, sideIn := c.side }

/-- The host's operations with the word of the next one set; with nothing queued, one command with no side band. -/
def queueWithWord (q : List Command) (w : CmdWord) : List Command :=
  match q with
  | [] => [{ word := w, side := .none }]
  | c :: rest => { c with word := w } :: rest

end Sys2Proof.Machine
end

