-- ==== Sys2Proof/Machine/Flags.lean ====
section
/-! DEFINITION. The flags of the block: the write-protect sense `wp(d)` (R30), the per-sector failure mask (R14, R126) and
the status it gives (R220, R222), a Boolean as a response value (R175, R199), the protection status bit (R24). -/

namespace Sys2Proof.Machine

/-- `wp(d)` (R30): the override, or a read-only image. -/
def Drive.wp (x : Drive) : Bool :=
  x.wpo || (match x.img with
    | some k => k.ro
    | none => false)

/-- The `fail` mask (R121): bit `l` is 1 when logical sector `l` did not decode. -/
def failMask (res : Vector (Option Sector) Config.nSectors) : BitVec 16 :=
  BitVec.ofFnLE fun l : Fin 16 => res[l].isNone

/-- The status of an operation that raised nothing: DECODE_INTEGRITY when a sector failed (R121, R222). -/
def failStatus (fail : BitVec 16) : Status :=
  if fail = 0 then .ok else .decodeIntegrity

/-- A Boolean result as `RESP.value` (R175, R199). -/
def boolValue (b : Bool) : Byte :=
  if b then 1 else 0

/-- The end of an operation that raised nothing, with its value and its flushes' failure mask (R14, R16). -/
def State.reply (s : State) (value : Byte) (fail : BitVec 16) : State :=
  s.respond { status := failStatus fail, value := value, fail := fail } .none

/-- The end of an operation whose value is a draw (R194, R198, R200). -/
def State.replyDraw (s : State) : State :=
  s.draw.2.reply s.draw.1 0

/-- `C.pstat <- v` (R24). -/
def State.setProtStatus (s : State) (v : Bool) : State :=
  { s with ctl := { s.ctl with pstat := v } }

end Sys2Proof.Machine
end

