-- ==== Sys2Proof/Machine/Format.lean ====
section
/-! DEFINITION. The on-disk format (`30_encoding.md` Part B, R90 to R105): markers, the odd-bit-pair code, the dense code,
fields, frames and tracks; and the decoder's scan (R121 to R127). All pure functions (R129). The literals are the
spec's defaults, by its own mark from general knowledge: PRESUMED, unsafe, log entry 11. -/

namespace Sys2Proof.Machine

/-- SYNC (R90). -/
def syncByte : Byte := 0xFF

/-- ADDR_PRO (R105). -/
def addrPro : List Byte := [0xD5, 0xAA, 0x96]

/-- DATA_PRO (R105). -/
def dataPro : List Byte := [0xD5, 0xAA, 0xAD]

/-- EPI (R105). -/
def epilogue : List Byte := [0xDE, 0xAA, 0xEB]

/-- VOLUME (R7). -/
def volume : Byte := 254

/-- GAP_A (R7): sync bytes before an address field. -/
abbrev gapA : Nat := 47

/-- GAP_B (R7): sync bytes between the two fields. -/
abbrev gapB : Nat := 6

/-- DATA_SEARCH (R7): the decoder's window for the data prologue. -/
def dataSearch : Nat := 32

/-- INTERLEAVE (R104): physical to logical sector. -/
def interleave : Vector (Fin Config.nSectors) Config.nSectors :=
  #v[0, 7, 14, 6, 13, 5, 12, 4, 11, 3, 10, 2, 9, 1, 8, 15]

/-- ENC44 (R91): the odd bits, then the even bits. -/
def enc44 (v : Byte) : List Byte :=
  [(v >>> 1) ||| 0xAA, v ||| 0xAA]

/-- DEC44 (R92). -/
def dec44 (a b : Byte) : Byte :=
  ((a <<< 1) ||| 1) &&& b

/-- The alphabet NIB62 (R94), eight values a row. -/
def nib62Table : List Byte :=
  [ 0x96, 0x97, 0x9A, 0x9B, 0x9D, 0x9E, 0x9F, 0xA6, 0xA7, 0xAB, 0xAC, 0xAD, 0xAE, 0xAF, 0xB2, 0xB3,
    0xB4, 0xB5, 0xB6, 0xB7, 0xB9, 0xBA, 0xBB, 0xBC, 0xBD, 0xBE, 0xBF, 0xCB, 0xCD, 0xCE, 0xCF, 0xD3 ] ++
  [ 0xD6, 0xD7, 0xD9, 0xDA, 0xDB, 0xDC, 0xDD, 0xDE, 0xDF, 0xE5, 0xE6, 0xE7, 0xE9, 0xEA, 0xEB, 0xEC,
    0xED, 0xEE, 0xEF, 0xF2, 0xF3, 0xF4, 0xF5, 0xF6, 0xF7, 0xF9, 0xFA, 0xFB, 0xFC, 0xFD, 0xFE, 0xFF ]

/-- NIB62[x] (R94). -/
def nib62 (x : Six) : Byte :=
  nib62Table[x.toNat]'(by have h := x.isLt; simp [nib62Table]; omega)

/-- UNNIB62 (R95): `none` for a byte outside the alphabet. -/
def unnib62 (b : Byte) : Option Six :=
  (nib62Table.idxOf? b).map (BitVec.ofNat 6)

/-- rev2 (R96): the two bits exchanged. -/
def rev2 (x : BitVec 2) : BitVec 2 :=
  ((x &&& 1) <<< 1) ||| (x >>> 1)

/-- The low two bits of byte `k` of a sector, exchanged; 0 past its end (R97). -/
def lowPair (data : Sector) (k : Nat) : BitVec 2 :=
  if h : k < Config.sectorBytes then rev2 (data[k].setWidth 2) else 0

/-- `v[k]` for `k` in 0..85 (R97): three low pairs. -/
def lowSix (data : Sector) (k : Nat) : Six :=
  (lowPair data k).setWidth 6 ||| ((lowPair data (k + 86)).setWidth 6 <<< 2)
    ||| ((lowPair data (k + 172)).setWidth 6 <<< 4)

/-- The 342 six-bit values of a sector (R97). -/
def expand (data : Sector) : List Six :=
  (List.range 86).map (lowSix data) ++ data.toList.map fun b : Byte => (b >>> 2).setWidth 6

/-- The exclusive-or chain and the trailing checksum (R98), from the previous value `prev`. -/
def chain (prev : Six) : List Six → List Byte
  | [] => [nib62 prev]
  | v :: vs => nib62 (v ^^^ prev) :: chain v vs

/-- ENC62 (R98): the 343 bytes of a data field's body. -/
def enc62 (data : Sector) : List Byte :=
  chain 0 (expand data)

/-- The chain undone (R99): the values, when every byte is in the alphabet and the last one is the last value. -/
def unchain (prev : Six) : List Byte → Option (List Six)
  | [] => none
  | [c] => if unnib62 c = some prev then some [] else none
  | e :: es =>
    match unnib62 e with
    | none => none
    | some x => (unchain (x ^^^ prev) es).map fun vs => (x ^^^ prev) :: vs

/-- `data[i]` from the 342 values (R99). -/
def assembleByte (v : List Six) (i : Nat) : Byte :=
  (((v.getD (86 + i) 0).setWidth 8 : Byte) <<< 2)
    ||| (rev2 (((v.getD (i % 86) 0) >>> (2 * (i / 86))).setWidth 2)).setWidth 8

/-- DEC62 (R99) on the 343 bytes of a body. -/
def dec62 (e : List Byte) : Option Sector :=
  (unchain 0 e).map fun v => Vector.ofFn fun i : Fin Config.sectorBytes => assembleByte v i.val

/-- ADDR(t, p) (R100), 14 bytes. -/
def addrField (t : Fin Config.nTracks) (p : Fin Config.nSectors) : List Byte :=
  addrPro ++ enc44 volume ++ enc44 (BitVec.ofNat 8 t.val) ++ enc44 (BitVec.ofNat 8 p.val)
    ++ enc44 (volume ^^^ BitVec.ofNat 8 t.val ^^^ BitVec.ofNat 8 p.val) ++ epilogue

/-- DATA(data) (R101), 349 bytes. -/
def dataField (data : Sector) : List Byte :=
  dataPro ++ enc62 data ++ epilogue

/-- FRAMEOF(t, p, data) (R102), 416 bytes. -/
def frameOf (t : Fin Config.nTracks) (p : Fin Config.nSectors) (data : Sector) : List Byte :=
  List.replicate gapA syncByte ++ addrField t p ++ List.replicate gapB syncByte ++ dataField data

/-- `sec(trk, l)` (R103). -/
def sectorOf (trk : Vector Byte Config.trackBytes) (l : Fin Config.nSectors) : Sector :=
  Vector.ofFn fun i : Fin Config.sectorBytes =>
    trk[l.val * 256 + i.val]'(by have h1 := l.isLt; have h2 := i.isLt; simp only [Config.nSectors, Config.sectorBytes, Config.trackBytes] at *; omega)

/-- The sixteen frames of TRACKOF in physical order (R103). -/
def trackFrames (t : Fin Config.nTracks) (trk : Vector Byte Config.trackBytes) : List Byte :=
  (List.finRange Config.nSectors).flatMap fun p => frameOf t p (sectorOf trk interleave[p])

theorem expand_length (data : Sector) : (expand data).length = 342 := by
  simp [expand, Config.sectorBytes]

theorem chain_length (prev : Six) (vs : List Six) : (chain prev vs).length = vs.length + 1 := by
  induction vs generalizing prev with
  | nil => rfl
  | cons v vs ih => simp [chain, ih]

theorem frameOf_length (t : Fin Config.nTracks) (p : Fin Config.nSectors) (data : Sector) :
    (frameOf t p data).length = 416 := by
  simp [frameOf, addrField, dataField, enc62, chain_length, expand_length, addrPro, dataPro, epilogue, enc44, gapA,
    gapB]

theorem trackFrames_length (t : Fin Config.nTracks) (trk : Vector Byte Config.trackBytes) :
    (trackFrames t trk).length = Config.trackNibLen := by
  simp [trackFrames, List.length_flatMap, frameOf_length, Config.nSectors, Config.trackNibLen]

/-- TRACKOF(t, trk) (R103). -/
def trackOf (t : Fin Config.nTracks) (trk : Vector Byte Config.trackBytes) : TrackBytes :=
  ⟨(trackFrames t trk).toArray, by simpa using trackFrames_length t trk⟩

/-- `g(i) = buf[i mod n]` (R121): every index is taken circularly. -/
def circular (buf : Array Byte) (i : Nat) : Byte :=
  buf.getD (i % buf.size) 0

/-- AddressFieldAt(i, t) (R122): the sector number of a valid address field that starts at `i`. -/
def addressFieldAt (g : Nat → Byte) (t : Fin Config.nTracks) (i : Nat) : Option (Fin Config.nSectors) :=
  if g i = 0xD5 ∧ g (i + 1) = 0xAA ∧ g (i + 2) = 0x96 then
    let vol := dec44 (g (i + 3)) (g (i + 4))
    let trk := dec44 (g (i + 5)) (g (i + 6))
    let sec := dec44 (g (i + 7)) (g (i + 8))
    let chk := dec44 (g (i + 9)) (g (i + 10))
    if chk = vol ^^^ trk ^^^ sec ∧ trk = BitVec.ofNat 8 t.val ∧ g (i + 11) = 0xDE ∧ g (i + 12) = 0xAA then
      if h : sec.toNat < Config.nSectors then some ⟨sec.toNat, h⟩ else none
    else none
  else none

/-- DataPrologueAfter(i) (R123): the least candidate position with a data prologue. -/
def dataPrologueAfter (g : Nat → Byte) (i : Nat) : Option Nat :=
  ((List.range (dataSearch + 1)).map (i + 14 + ·)).find? fun k =>
    g k = 0xD5 && g (k + 1) = 0xAA && g (k + 2) = 0xAD

/-- DataFieldAt(j) (R124). -/
def dataFieldAt (g : Nat → Byte) (j : Nat) : Option Sector :=
  if g (j + 346) = 0xDE ∧ g (j + 347) = 0xAA then dec62 ((List.range 343).map fun m => g (j + 3 + m)) else none

/-- The valid pair of fields whose address prologue is at `i`, as its logical sector and its data (R125). -/
def pairAt (g : Nat → Byte) (t : Fin Config.nTracks) (i : Nat) : Option (Fin Config.nSectors × Sector) :=
  match addressFieldAt g t i with
  | none => none
  | some sec =>
    match dataPrologueAfter g i with
    | none => none
    | some j => (dataFieldAt g j).map fun data => (interleave[sec], data)

/-- CDEC's scan (R121, R127): every start position once; for each logical sector the first valid pair found (R125). -/
def scan (buf : Array Byte) (t : Fin Config.nTracks) : Vector (Option Sector) Config.nSectors :=
  let found := (List.range buf.size).filterMap (pairAt (circular buf) t)
  Vector.ofFn fun l => found.lookup l

end Sys2Proof.Machine
end

