-- ==== Sys2Proof/Machine/Operands.lean ====
section
/-! DEFINITION. The operand forms of the operations (R81, R85): drive index, track, phase index, side-band block and
side-band image. A form that can be out of range answers `none` there, and the operation's rule says what is raised. -/

namespace Sys2Proof.Machine

/-- A drive index at controller level (R81): all of `imm8`, in range when at most 1. -/
def driveIndex (i : Byte) : Option DriveId :=
  if i = 0 then some .d0 else if i = 1 then some .d1 else none

/-- A track operand (R120, R121): in range when at most 34. -/
def trackIndex (t : Byte) : Option (Fin Config.nTracks) :=
  if h : t.toNat < Config.nTracks then some ⟨t.toNat, h⟩ else none

/-- A phase index at controller level (R195), as the mask with that one line energized: in range when at most 3. -/
def phaseMask (ph : Byte) : Option (BitVec 4) :=
  if ph.toNat ≤ 3 then some (1#4 <<< ph.toNat) else none

/-- The byte sequence beside the word (R85); a command that carries none carries an empty one.
DESIGN CHOICE, unsafe: log entry 6. -/
def sideBytes : SideBand → List Byte
  | .bytes b => b
  | _ => []

/-- The 4096-byte block of CENC (R120), when it has that length. -/
def sideBlock (b : List Byte) : Option (Vector Byte Config.trackBytes) :=
  if h : b.length = Config.trackBytes then some ⟨b.toArray, by simpa using h⟩ else none

/-- Whether the drive holds the image of that name (R31). -/
def Drive.holds (x : Drive) (name : Nat) : Bool :=
  match x.img with
  | some k => k.name = name
  | none => false

/-- Whether one of the two drives holds the image of that name (R256). -/
def State.holds (s : State) (name : Nat) : Bool :=
  s.drive0.holds name || s.drive1.holds name

/-- What INSERT finds beside the word (R85, R196). -/
inductive ImageOperand where
  /-- No image at all, no place of that name, or an empty place whose image no drive holds: answered as an image of the
  wrong length. DESIGN CHOICE, unsafe: log entry 6. -/
  | missing
  /-- The image is out of the host's hands and in a drive already (R256). -/
  | held
  /-- The image and its name. -/
  | found (name : Nat) (h : HostImage)
deriving DecidableEq, Repr

/-- The image operand of INSERT (R196). The spec's host always hands an image over, so what it does with a name it has no
image under is the model's: DESIGN CHOICE, unsafe, log entry 6. That covers an empty place of the store that no drive's
image left, which no run from power-on has (`State.placesHeld`) and `State.Inv` alone allows. -/
def State.imageOperand (s : State) : ImageOperand :=
  match s.sideIn with
  | .image name =>
    match s.store[name]? with
    | some (some h) => .found name h
    | some none => if s.holds name then .held else .missing
    | none => .missing
  | _ => .missing

end Sys2Proof.Machine
end

