-- ==== Sys2Proof/Machine/Codec.lean ====
section
/-! DEFINITION. The Nibble Codec operations CENC and CDEC (`40_codec.md`). -/

namespace Sys2Proof.Machine

/-- CENC (R120). -/
def execCenc (t : Byte) (s : State) : Host.Outcome State Fault Refusal :=
  match trackIndex t with
  | none => .next (s.raise .ppTrackRange)
  | some t =>
    match sideBlock (sideBytes s.sideIn) with
    | none => .next (s.raise .ppBadOperand)
    | some trk => .next (s.respond { status := .ok, value := 0, fail := 0 } (.stream (trackOf t trk)))

/-- CDEC (R121). -/
def execCdec (t : Byte) (s : State) : Host.Outcome State Fault Refusal :=
  match trackIndex t with
  | none => .next (s.raise .ppTrackRange)
  | some t =>
    let buf := sideBytes s.sideIn
    if buf = [] then .next (s.raise .ppBadOperand)
    else
      let res := scan buf.toArray t
      let fail := failMask res
      .next (s.respond { status := failStatus fail, value := 0, fail := fail } (.sectors res))

end Sys2Proof.Machine
end

