-- ==== Sys2Proof/Machine/TrackBuffer.lean ====
section
/-! DEFINITION. The Track Buffer operations TBLOAD, TBREAD, TBWRITE and TBFLUSH and the internal Unload and EnsureLoaded
(`41_track_buffer.md`), each once as a function of one drive, then the four meanings. -/

namespace Sys2Proof.Machine

/-- The whole track of a half-track (R178). -/
def wholeTrack (h : Fin Config.nHalf) : Fin Config.nTracks :=
  ⟨h.val / 2, by have hh := h.isLt; simp only [Config.nHalf, Config.nTracks] at *; omega⟩

/-- `MemWrite` of a whole logical sector of a SECTOR image (R51, R57). -/
def Disk.writeSector (k : Disk) (t : Fin Config.nTracks) (l : Fin Config.nSectors) (data : Sector) : Disk :=
  { k with mem := k.mem.writeBlock ((t.val * 16 + l.val) * 256) data.toList }

/-- The sectors that decoded, written back in increasing order; the others keep their bytes (R153, R67). -/
def Disk.writeSectors (k : Disk) (t : Fin Config.nTracks) (res : Vector (Option Sector) Config.nSectors) : Disk :=
  (List.finRange Config.nSectors).foldl
    (fun k l =>
      match res[l] with
      | some data => k.writeSector t l data
      | none => k) k

/-- A dirty buffer written back to its image (R153): the image after it and the failure mask. -/
def Disk.writeBack (k : Disk) (tb : TrackBuffer) : Disk × BitVec 16 :=
  match k.layout with
  | .sector =>
    let res := scan tb.buf.toArray tb.track
    (k.writeSectors tb.track res, failMask res)
  | .nibble => ({ k with mem := k.mem.writeBlock (tb.track.val * Config.trackNibLen) tb.buf.toList }, 0)

/-- TBFLUSH (R153) on one drive: the drive after it and the failure mask. A buffer without an image does not occur
(R39 item 2); there is nothing to write it to, and nothing changes. DESIGN CHOICE, safe: log
entry 7. -/
def Drive.flush (x : Drive) : Drive × BitVec 16 :=
  match x.tb, x.img with
  | some tb, some k =>
    if tb.dirty then
      ({ x with img := some (k.writeBack tb).1, tb := some { tb with dirty := false } }, (k.writeBack tb).2)
    else (x, 0)
  | _, _ => (x, 0)

/-- Unload (R154): flush, then drop the buffer. -/
def Drive.unload (x : Drive) : Drive × BitVec 16 :=
  ({ x.flush.1 with tb := none }, x.flush.2)

/-- The bytes a load puts into the buffer (R150): the encoded track of a SECTOR image, the N bytes of a NIBBLE one. -/
def Disk.trackImage (k : Disk) (t : Fin Config.nTracks) : TrackBytes :=
  match k.layout with
  | .sector => trackOf t (k.mem.readBlock (t.val * 4096) Config.trackBytes)
  | .nibble => k.mem.readBlock (t.val * Config.trackNibLen) Config.trackNibLen

/-- The buffer a load makes of the track under the head (R150). -/
def Disk.freshBuffer (k : Disk) (h : Fin Config.nHalf) : TrackBuffer :=
  { buf := k.trackImage (wholeTrack h), cur := Config.loadCursor, dirty := false, track := wholeTrack h }

/-- TBLOAD (R150) on one drive: no effect without an image; a loaded buffer is flushed first. -/
def Drive.load (x : Drive) : Drive × BitVec 16 :=
  match x.img with
  | none => (x, 0)
  | some _ =>
    let y := x.flush
    ({ y.1 with tb := y.1.img.map fun k => k.freshBuffer x.half }, y.2)

/-- EnsureLoaded (R155) on one drive: the lazy load. It flushes nothing, for no buffer exists when it loads. -/
def Drive.ensureLoaded (x : Drive) : Drive :=
  match x.tb with
  | some _ => x
  | none => x.load.1

/-- `(cur + 1) mod N` (R34). -/
def nextCursor (c : Fin Config.trackNibLen) : Fin Config.trackNibLen :=
  ⟨(c.val + 1) % Config.trackNibLen, Nat.mod_lt _ (by decide)⟩

/-- TBREAD (R151) on one drive: the byte and the drive after it; the sentinel and no change without an image. -/
def Drive.readByte (x : Drive) : Byte × Drive :=
  match x.img with
  | none => (Config.noDiskSentinel, x)
  | some _ =>
    match x.ensureLoaded.tb with
    | none => (Config.noDiskSentinel, x.ensureLoaded)
    | some tb => (tb.buf[tb.cur], { x.ensureLoaded with tb := some { tb with cur := nextCursor tb.cur } })

/-- TBWRITE (R152) on one drive, in the write mode `wmode`. -/
def Drive.writeByte (x : Drive) (wmode : Bool) (b : Byte) : Drive :=
  match x.img with
  | none => x
  | some _ =>
    if wmode then
      match x.ensureLoaded.tb with
      | none => x.ensureLoaded
      | some tb =>
        if x.wp then { x.ensureLoaded with tb := some { tb with cur := nextCursor tb.cur } }
        else
          { x.ensureLoaded with
            tb := some { tb with buf := tb.buf.set tb.cur b, cur := nextCursor tb.cur, dirty := true } }
    else x

/-- TBREAD as a whole operation, shared by TBREAD and RWBYTE (R194). -/
def State.readByte (s : State) (d : DriveId) : State :=
  (s.setDrive d (s.drive d).readByte.2).reply (s.drive d).readByte.1 0

/-- TBLOAD (R150). -/
def execTbload (d : DriveId) (s : State) : Host.Outcome State Fault Refusal :=
  .next ((s.setDrive d (s.drive d).load.1).reply 0 (s.drive d).load.2)

/-- TBREAD (R151). -/
def execTbread (d : DriveId) (s : State) : Host.Outcome State Fault Refusal :=
  .next (s.readByte d)

/-- TBWRITE (R152). -/
def execTbwrite (d : DriveId) (b : Byte) (s : State) : Host.Outcome State Fault Refusal :=
  .next ((s.setDrive d ((s.drive d).writeByte s.ctl.wmode b)).reply 0 0)

/-- TBFLUSH (R153). -/
def execTbflush (d : DriveId) (s : State) : Host.Outcome State Fault Refusal :=
  .next ((s.setDrive d (s.drive d).flush.1).reply 0 (s.drive d).flush.2)

end Sys2Proof.Machine
end

