-- ==== Sys2Proof/Machine/DriveMechanism.lean ====
section
/-! DEFINITION. The Drive Mechanism operations DSTEP, DSEL, DISWP and DSETWPO (`42_drive_mechanism.md`), the stepper once
as a function of one drive, then the four meanings. -/

namespace Sys2Proof.Machine

/-- The lines that were off and are now on (R170). -/
def newLines (m phases : BitVec 4) : BitVec 4 :=
  m &&& ~~~phases

/-- The one newly energized phase, when there is exactly one (R170: popcount 1, bitindex). -/
def newPhase (m phases : BitVec 4) : Option (Fin Config.nPhases) :=
  if newLines m phases = 0b0001 then some 0
  else if newLines m phases = 0b0010 then some 1
  else if newLines m phases = 0b0100 then some 2
  else if newLines m phases = 0b1000 then some 3
  else none

/-- STEPDELTA indexed by `(p − last) mod 4` (R171), the policy of the spec's document (U3): DESIGN CHOICE, unsafe, log
entry 12. -/
def stepDelta (p last : Fin Config.nPhases) : Int :=
  match (p.val + 4 - last.val) % 4 with
  | 1 => 1
  | 3 => -1
  | _ => 0

/-- `clamp(0, 69, half + delta)` (R172, R9). -/
def moveHead (h : Fin Config.nHalf) (delta : Int) : Fin Config.nHalf :=
  let v : Int := (h.val : Int) + delta
  if v < 0 then 0 else if hv : v.toNat < Config.nHalf then ⟨v.toNat, hv⟩ else 69

/-- Whether a loaded buffer is of another whole track than half-track `h` (R170, R173). -/
def Drive.trackChanged (x : Drive) (h : Fin Config.nHalf) : Bool :=
  match x.tb with
  | some tb => tb.track ≠ wholeTrack h
  | none => false

/-- DSTEP (R170) on one drive: the drive after it and the failure mask of a track-change flush. -/
def Drive.step (x : Drive) (m : BitVec 4) : Drive × BitVec 16 :=
  match newPhase m x.phases with
  | none => ({ x with phases := m }, 0)
  | some p =>
    let h := moveHead x.half (stepDelta p x.last)
    let y := { x with phases := m, last := p, half := h }
    if h ≠ x.half ∧ y.trackChanged h then y.unload else (y, 0)

/-- DSEL (R174) on one drive: on, or flush, drop and off. -/
def Drive.enable (x : Drive) (e : Bool) : Drive × BitVec 16 :=
  if e then ({ x with motor := true, light := true }, 0)
  else ({ x.unload.1 with motor := false, light := false }, x.unload.2)

/-- DSTEP as a whole operation, shared by DSTEP and STEP (R195). -/
def State.stepDrive (s : State) (d : DriveId) (m : BitVec 4) : State :=
  (s.setDrive d ((s.drive d).step m).1).reply 0 ((s.drive d).step m).2

/-- DISWP as a whole operation, shared by DISWP and ISWP (R198). -/
def State.senseProtect (s : State) (d : DriveId) : State :=
  s.reply (boolValue (s.drive d).wp) 0

/-- DSTEP (R170). -/
def execDstep (d : DriveId) (m : BitVec 4) (s : State) : Host.Outcome State Fault Refusal :=
  .next (s.stepDrive d m)

/-- DSEL (R174). -/
def execDsel (d : DriveId) (e : Bool) (s : State) : Host.Outcome State Fault Refusal :=
  .next ((s.setDrive d ((s.drive d).enable e).1).reply 0 ((s.drive d).enable e).2)

/-- DISWP (R175). -/
def execDiswp (d : DriveId) (s : State) : Host.Outcome State Fault Refusal :=
  .next (s.senseProtect d)

/-- DSETWPO (R176). -/
def execDsetwpo (d : DriveId) (v : Bool) (s : State) : Host.Outcome State Fault Refusal :=
  .next ((s.setDrive d { s.drive d with wpo := v }).reply 0 0)

end Sys2Proof.Machine
end

