-- ==== Sys2Proof/Machine/DiskController.lean ====
section
/-! DEFINITION. The Disk Controller operations (`43_disk_controller.md`) and RESET (`70_reset_and_hazards.md` R250). A
controller-level operation picks the drive by `C.sel` and runs the unit-level operation on it (R190). -/

namespace Sys2Proof.Machine

/-- Both drives off, then the three controller registers (R250). -/
def State.deselectAll (s : State) : State :=
  { s with
    drive0 := (s.drive0.enable false).1
    drive1 := (s.drive1.enable false).1
    ctl := { s.ctl with sel := none, wmode := false, pstat := false } }

/-- RESET (R250): the masks of the two flushes are or-ed (R222). -/
def execReset (s : State) : Host.Outcome State Fault Refusal :=
  .next (s.deselectAll.reply 0 ((s.drive0.enable false).2 ||| (s.drive1.enable false).2))

/-- The other drive off, the chosen one on and selected (R191). -/
def State.switchTo (s : State) (d : DriveId) : State :=
  { (s.setDrive (driveOther d) ((s.drive (driveOther d)).enable false).1).setDrive d ((s.drive d).enable true).1 with
    ctl := { s.ctl with sel := some d } }

/-- SELECT (R191). -/
def execSelect (i : Byte) (s : State) : Host.Outcome State Fault Refusal :=
  match driveIndex i with
  | none => .next (s.raise .ppDriveRange)
  | some d =>
    .next ((s.switchTo d).reply 0 (((s.drive (driveOther d)).enable false).2 ||| ((s.drive d).enable true).2))

/-- SETWM (R192). -/
def execSetwm (e : Bool) (s : State) : Host.Outcome State Fault Refusal :=
  .next ({ s with ctl := { s.ctl with wmode := e } }.reply 0 0)

/-- LDLATCH (R193). -/
def execLdlatch (b : Byte) (s : State) : Host.Outcome State Fault Refusal :=
  .next ({ s with ctl := { s.ctl with latch := b } }.reply 0 0)

/-- The write half of RWBYTE (R194): the protection status bit, then TBWRITE of the latch. -/
def State.commitLatch (s : State) (d : DriveId) : State :=
  let x := s.drive d
  let t := if x.img.isSome && x.wp then s.setProtStatus true else s
  t.setDrive d (x.writeByte s.ctl.wmode s.ctl.latch)

/-- RWBYTE (R194): a draw with no drive selected (R200), a read in read mode, a commit and a draw in write mode. -/
def execRwbyte (s : State) : Host.Outcome State Fault Refusal :=
  match s.ctl.sel with
  | none => .next s.replyDraw
  | some d => .next (if s.ctl.wmode then (s.commitLatch d).replyDraw else s.readByte d)

/-- STEP (R195): the index forwarded as a one-line mask; accepted and ignored with no drive selected. -/
def execStep (ph : Byte) (s : State) : Host.Outcome State Fault Refusal :=
  match phaseMask ph with
  | none => .next (s.raise .ppPhaseRange)
  | some m =>
    match s.ctl.sel with
    | none => .next (s.reply 0 0)
    | some d => .next (s.stepDrive d m)

/-- An image attached to a drive (R196): it leaves the host's hands (R265). -/
def State.attach (s : State) (d : DriveId) (name : Nat) (h : HostImage) : State :=
  { s.setDrive d { s.drive d with img := some (h.attached name) } with store := s.store.set name none }

/-- INSERT (R196), its checks in the order of R227; an image in the other drive's hands is refused (R256, U8). -/
def execInsert (i : Byte) (s : State) : Host.Outcome State Fault Refusal :=
  match driveIndex i with
  | none => .next (s.raise .ppDriveRange)
  | some d =>
    if (s.drive d).img.isSome then .next (s.raise .ppSlotOccupied)
    else
      match s.imageOperand with
      | .missing => .next (s.raise .ppBadImage)
      | .held => .refused .sharedImage
      | .found name h =>
        if h.len ≠ h.layout.bytes then .next (s.raise .ppBadImage)
        else .next ((s.attach d name h).reply 0 0)

/-- A drive emptied (R197): the buffer flushed and dropped, the image given back to the host as the flush left it
(R265); the failure mask of the flush. -/
def State.detach (s : State) (d : DriveId) : State × BitVec 16 :=
  let y := (s.drive d).unload
  ({ s.setDrive d { y.1 with img := none } with
    store := match y.1.img with
      | some k => s.store.set k.name (some k.returned)
      | none => s.store }, y.2)

/-- EJECT (R197): no effect on an empty drive. -/
def execEject (i : Byte) (s : State) : Host.Outcome State Fault Refusal :=
  match driveIndex i with
  | none => .next (s.raise .ppDriveRange)
  | some d =>
    if (s.drive d).img.isNone then .next (s.reply 0 0)
    else .next ((s.detach d).1.reply 0 (s.detach d).2)

/-- ISWP (R198): a draw with no drive selected (R200). -/
def execIswp (s : State) : Host.Outcome State Fault Refusal :=
  match s.ctl.sel with
  | none => .next s.replyDraw
  | some d => .next (s.senseProtect d)

/-- RDSTAT (R199) for either value of STATUS_CLEAR_ON_READ. -/
def State.readStatus (s : State) (clearOnRead : Bool) : State :=
  (if clearOnRead then s.setProtStatus false else s).reply (boolValue s.ctl.pstat) 0

/-- RDSTAT (R199) with the spec's default parameter. -/
def execRdstat (s : State) : Host.Outcome State Fault Refusal :=
  .next (s.readStatus Config.statusClearOnRead)

end Sys2Proof.Machine
end

