-- ==== Sys2Proof/Machine/Dispatch.lean ====
section
/-! DEFINITION. One arm per operation of the opcode map (R82). -/

namespace Sys2Proof.Machine

def exec (i : Instr) (s : State) : Host.Outcome State Fault Refusal :=
  match i with
  | .cenc t => Sys2Proof.Machine.execCenc t s
  | .cdec t => Sys2Proof.Machine.execCdec t s
  | .tbload d => Sys2Proof.Machine.execTbload d s
  | .tbread d => Sys2Proof.Machine.execTbread d s
  | .tbwrite d b => Sys2Proof.Machine.execTbwrite d b s
  | .tbflush d => Sys2Proof.Machine.execTbflush d s
  | .dstep d m => Sys2Proof.Machine.execDstep d m s
  | .dsel d e => Sys2Proof.Machine.execDsel d e s
  | .diswp d => Sys2Proof.Machine.execDiswp d s
  | .dsetwpo d v => Sys2Proof.Machine.execDsetwpo d v s
  | .reset => Sys2Proof.Machine.execReset s
  | .select k => Sys2Proof.Machine.execSelect k s
  | .setwm e => Sys2Proof.Machine.execSetwm e s
  | .ldlatch b => Sys2Proof.Machine.execLdlatch b s
  | .rwbyte => Sys2Proof.Machine.execRwbyte s
  | .step ph => Sys2Proof.Machine.execStep ph s
  | .insert k => Sys2Proof.Machine.execInsert k s
  | .eject k => Sys2Proof.Machine.execEject k s
  | .iswp => Sys2Proof.Machine.execIswp s
  | .rdstat => Sys2Proof.Machine.execRdstat s

end Sys2Proof.Machine
end

