-- ==== Sys2Proof/Machine/Step.lean ====
section
/-! DEFINITION. One step: the host's next operation performed to completion (R15), an illegal word reported (R84). With
no operation issued the block does nothing (R265, R266). -/

namespace Sys2Proof.Machine

/-- One step of the machine. -/
def step (s : State) : Host.Outcome State Fault Refusal :=
  match s.queue with
  | [] => .next s
  | c :: rest =>
    match decode c.word with
    | .ok i => exec i (s.issue c rest)
    | .error e => .next ((s.issue c rest).raise (decodeStatus e))

/-- The state with the next operation's word set: the block fetches no instruction from memory (R37), the host issues
command words. DESIGN CHOICE, safe: log entry 5. -/
def State.withFetchWord (s : State) (nbits w : Nat) : State :=
  { s with queue := queueWithWord s.queue (tableWord nbits w) }

end Sys2Proof.Machine
end

