-- ==== Sys2Proof/Machine/Assembler.lean ====
section
/-! DEFINITION. The assembler of the spec: one operation per line (R87) and the three pseudo-instructions with their
fixed expansions (R88). A line is a list of characters; an ill-formed line has no meaning (`none`).
What R87 leaves open of the text is a DESIGN CHOICE, safe: log entry 13. -/

namespace Sys2Proof.Machine

/-- The pseudo-instructions (R88). The operand of SEEKUP is its count; the phase it starts from is the programmer's. -/
inductive Pseudo where
  | wrbyte (b : Byte)
  | readn (n : Nat)
  | seekup (k : Nat)
deriving DecidableEq, Repr

/-- The expansion of a pseudo-instruction (R88), with `f` the last phase of the selected drive as the program's start
state has it. -/
def Pseudo.expand (f : Fin Config.nPhases) : Pseudo → List Instr
  | .wrbyte b => [.ldlatch b, .rwbyte]
  | .readn n => List.replicate n .rwbyte
  | .seekup k => (List.range k).map fun j => .step (BitVec.ofNat 8 ((f.val + j + 1) % 4))

/-- The value of a digit below 16, in either case of letter. -/
def digitValue (c : Char) : Option Nat :=
  let n := c.toNat
  if 48 ≤ n ∧ n ≤ 57 then some (n - 48)
  else if 97 ≤ n ∧ n ≤ 102 then some (n - 87)
  else if 65 ≤ n ∧ n ≤ 70 then some (n - 55)
  else none

/-- The number a run of digits writes in a base, after the digits that write `acc`. -/
def digitsValue (base : Nat) (acc : Nat) : List Char → Option Nat
  | [] => some acc
  | c :: cs =>
    match digitValue c with
    | some v => if v < base then digitsValue base (acc * base + v) cs else none
    | none => none

/-- A number (R87): decimal, or hex with `0x`, or binary with `0b`. -/
def asmNumber : List Char → Option Nat
  | '0' :: 'x' :: c :: cs => digitsValue 16 0 (c :: cs)
  | '0' :: 'b' :: c :: cs => digitsValue 2 0 (c :: cs)
  | c :: cs => digitsValue 10 0 (c :: cs)
  | [] => none

/-- A number below `2 ^ w`. -/
def asmField (w : Nat) (t : List Char) : Option (BitVec w) :=
  match asmNumber t with
  | some n => if n < 2 ^ w then some (BitVec.ofNat w n) else none
  | none => none

/-- A Boolean operand: 0 or 1. -/
def asmBool (t : List Char) : Option Bool :=
  (asmField 1 t).map fun b => b = 1

/-- A drive operand (R87): `d0` or `d1`. -/
def asmDrive : List Char → Option DriveId
  | ['d', '0'] => some .d0
  | ['d', '1'] => some .d1
  | _ => none

/-- A side-band name (R87): between angle brackets. -/
def asmName : List Char → Option (List Char)
  | '<' :: cs => if cs.getLast? = some '>' then some cs.dropLast else none
  | _ => none

/-- White space within a line. -/
def isBlank (c : Char) : Bool :=
  c = ' ' || c = '\t' || c = '\r'

/-- A text without the white space around it. -/
def trimText (t : List Char) : List Char :=
  ((t.dropWhile isBlank).reverse.dropWhile isBlank).reverse

/-- The operands of a line: separated by commas, none when there is only white space. -/
def asmOperands (t : List Char) : List (List Char) :=
  if t.all isBlank then [] else (t.splitOn ',').map trimText

/-- One instruction from its mnemonic and operands, with the side-band name written beside it (R82, R87). -/
def asmInstr (mn : List Char) (ops : List (List Char)) : Option (Instr × Option (List Char)) :=
  match ops with
  | [] =>
    if mn = "RESET".toList then some (.reset, none)
    else if mn = "RWBYTE".toList then some (.rwbyte, none)
    else if mn = "ISWP".toList then some (.iswp, none)
    else if mn = "RDSTAT".toList then some (.rdstat, none)
    else none
  | [a] =>
    if mn = "TBLOAD".toList then (asmDrive a).map fun d => (.tbload d, none)
    else if mn = "TBREAD".toList then (asmDrive a).map fun d => (.tbread d, none)
    else if mn = "TBFLUSH".toList then (asmDrive a).map fun d => (.tbflush d, none)
    else if mn = "DISWP".toList then (asmDrive a).map fun d => (.diswp d, none)
    else if mn = "SETWM".toList then (asmBool a).map fun e => (.setwm e, none)
    else if mn = "SELECT".toList then (asmField 8 a).map fun i => (.select i, none)
    else if mn = "LDLATCH".toList then (asmField 8 a).map fun b => (.ldlatch b, none)
    else if mn = "STEP".toList then (asmField 8 a).map fun p => (.step p, none)
    else if mn = "EJECT".toList then (asmField 8 a).map fun i => (.eject i, none)
    else none
  | [a, b] =>
    if mn = "CENC".toList then
      (asmField 8 a).bind fun t => (asmName b).map fun n => (.cenc t, some n)
    else if mn = "CDEC".toList then
      (asmField 8 a).bind fun t => (asmName b).map fun n => (.cdec t, some n)
    else if mn = "INSERT".toList then
      (asmField 8 a).bind fun i => (asmName b).map fun n => (.insert i, some n)
    else if mn = "TBWRITE".toList then
      (asmDrive a).bind fun d => (asmField 8 b).map fun v => (.tbwrite d v, none)
    else if mn = "DSTEP".toList then
      (asmDrive a).bind fun d => (asmField 4 b).map fun m => (.dstep d m, none)
    else if mn = "DSEL".toList then
      (asmDrive a).bind fun d => (asmBool b).map fun e => (.dsel d e, none)
    else if mn = "DSETWPO".toList then
      (asmDrive a).bind fun d => (asmBool b).map fun v => (.dsetwpo d v, none)
    else none
  | _ => none

/-- A pseudo-instruction from its mnemonic and operands (R88). -/
def asmPseudo (mn : List Char) (ops : List (List Char)) : Option Pseudo :=
  match ops with
  | [a] =>
    if mn = "WRBYTE".toList then (asmField 8 a).map .wrbyte
    else if mn = "READN".toList then (asmNumber a).map .readn
    else if mn = "SEEKUP".toList then (asmNumber a).map .seekup
    else none
  | _ => none

/-- One line (R87): the instructions it stands for, none for a line with nothing but a comment. -/
def asmLine (f : Fin Config.nPhases) (line : List Char) : Option (List (Instr × Option (List Char))) :=
  let t := trimText (line.takeWhile fun c => c ≠ ';')
  let mn := t.takeWhile fun c => !isBlank c
  let ops := asmOperands (t.dropWhile fun c => !isBlank c)
  if t = [] then some []
  else
    match asmPseudo mn ops with
    | some p => some ((p.expand f).map fun i => (i, none))
    | none => (asmInstr mn ops).map fun i => [i]

/-- The side band of a name: what the program's start state binds it to (R87). -/
def bindName (env : List (List Char × SideBand)) : Option (List Char) → Option SideBand
  | none => some .none
  | some n => env.lookup n

/-- A program as the commands the host issues. -/
def assemble (f : Fin Config.nPhases) (env : List (List Char × SideBand)) :
    List (List Char) → Option (List Command)
  | [] => some []
  | line :: rest =>
    match asmLine f line, assemble f env rest with
    | some is, some cs =>
      (is.mapM fun i => (bindName env i.2).map fun b => ({ word := encode i.1, side := b } : Command)).map (· ++ cs)
    | _, _ => none

end Sys2Proof.Machine
end

