-- ==== Sys2Proof/Safety.lean ====
section
/-! DEFINITION. What counts as a sound state, in the terms the statements use: the invariants of `10_state.md` R39 that
the types of the state do not already force, the canonical form of every memory, and one place for every image. -/

namespace Sys2Proof.Machine

/-- An attached image: canonical, inside its layout's length (R31, R56). -/
def Disk.ok (k : Disk) : Prop :=
  k.mem.wf ∧ k.mem.within k.layout.bytes

/-- An image in the host's hands: canonical, inside its own length. -/
def HostImage.ok (h : HostImage) : Prop :=
  h.mem.wf ∧ h.mem.within h.len

/-- R39 items 2 and 5 for one drive, and its image. Items 1 and 4 are the types of the fields. -/
def Drive.ok (x : Drive) : Prop :=
  (x.tb.isSome = true → x.img.isSome = true) ∧
  (∀ tb, x.tb = some tb → tb.track = wholeTrack x.half) ∧
  (∀ k, x.img = some k → k.ok)

/-- Every image is in one place: the place of an attached one in the host's store is empty, and the two drives hold
different ones (R256, R265). -/
def State.imagesApart (s : State) : Prop :=
  (∀ d k, (s.drive d).img = some k → s.store[k.name]? = some none) ∧
  (∀ k0 k1, s.drive0.img = some k0 → s.drive1.img = some k1 → k0.name ≠ k1.name)

/-- Every empty place of the host's store is that of an attached image (R265): nothing but INSERT empties a place. The
store is the model's, log entry 8. -/
def State.placesHeld (s : State) : Prop :=
  ∀ name : Nat, s.store[name]? = some none → ∃ d k, (s.drive d).img = some k ∧ k.name = name

/-- The invariant of the machine (R39 items 1, 2, 4 and 5; the memory's form). -/
def State.Inv (s : State) : Prop :=
  (∀ d, (s.drive d).ok) ∧ (∀ h, some h ∈ s.store → h.ok) ∧ s.imagesApart

/-- R39 item 7, which holds while only controller-level operations are issued. -/
def State.CtlInv (s : State) : Prop :=
  ∀ d, (s.drive d).motor = decide (s.ctl.sel = some d) ∧ (s.drive d).light = decide (s.ctl.sel = some d) ∧
    ((s.drive d).tb.isSome = true → s.ctl.sel = some d)

/-- A buffer over a read-only image is clean (R159). -/
def State.ReadOnlyClean (s : State) : Prop :=
  ∀ d k tb, (s.drive d).img = some k → k.ro = true → (s.drive d).tb = some tb → tb.dirty = false

/-- The controller-level operations, opcodes 0x10 to 0x19 (R82). -/
def Instr.controllerLevel : Instr → Bool
  | .reset | .select _ | .setwm _ | .ldlatch _ | .rwbyte | .step _ | .insert _ | .eject _ | .iswp | .rdstat => true
  | .cenc _ | .cdec _ | .tbload _ | .tbread _ | .tbwrite _ _ | .tbflush _ | .dstep _ _ | .dsel _ _ | .diswp _
  | .dsetwpo _ _ => false

/-- The ProtocolPrecondition statuses (R220). -/
def Status.isPrecondition : Status → Bool
  | .ppBadCommand | .ppBadOperand | .ppDriveRange | .ppSlotOccupied | .ppBadImage | .ppPhaseRange | .ppTrackRange => true
  | .ok | .decodeIntegrity => false

/-- The operations that can flush (R63, R222): the two codec operations cannot. -/
def Instr.canFlush : Instr → Bool
  | .tbflush _ | .tbload _ | .dstep _ _ | .dsel _ false | .reset | .select _ | .step _ | .eject _ => true
  | .cenc _ | .cdec _ | .tbread _ | .tbwrite _ _ | .dsel _ true | .diswp _ | .dsetwpo _ _ | .setwm _ | .ldlatch _
  | .rwbyte | .insert _ | .iswp | .rdstat => false

/-- The drive a unit-level operation names (R82). -/
def Instr.unitDrive : Instr → Option DriveId
  | .tbload d | .tbread d | .tbwrite d _ | .tbflush d | .dstep d _ | .dsel d _ | .diswp d | .dsetwpo d _ => some d
  | .cenc _ | .cdec _ | .reset | .select _ | .setwm _ | .ldlatch _ | .rwbyte | .step _ | .insert _ | .eject _ | .iswp
  | .rdstat => none

/-- The response of an operation that raises nothing and reports nothing: status OK, a value (R14). -/
def okResponse (value : Byte) : Response :=
  { status := .ok, value := value, fail := 0 }

/-- The response of a flush that failed in the sectors of `fail` (R222): OK when there are none. -/
def flushResponse (fail : BitVec 16) : Response :=
  { status := failStatus fail, value := 0, fail := fail }

/-- The response of a ProtocolPrecondition (R221). -/
def raisedResponse (code : Status) : Response :=
  { status := code, value := 0, fail := 0 }

/-- `n` byte reads of drive `d` in a row (R156): the values, first read first, and the state after them. -/
def readMany (d : DriveId) : Nat → State → Option (List Byte × State)
  | 0, s => some ([], s)
  | n + 1, s =>
    match exec (.tbread d) s with
    | .next t => (readMany d n t).map fun r => (t.resp.value :: r.1, r.2)
    | _ => none

end Sys2Proof.Machine
end

