-- ==== Sys2Proof/Certificates/Slice0/Obligations.lean ====
section
/-! DEFINITION. The statements about the drive block for the provers, from the numbered rules of spec/. Each docstring
names the rules. A complete next state is written as an update of the state before, so that what is not named in it is
unchanged. -/

open Sys2Proof Sys2Proof.Machine

/-! ## Command words -/

/-- R80 to R82: no bit of an encoding is dropped. -/
def Obligations.DecodeOfEncode : Prop :=
  ∀ i : Instr, decode (encode i) = .ok i

/-- R82: a word decodes to the row of the opcode map whose masked bits it has, and to nothing where no row has them; the
word is then the encoding of what it decodes to. -/
def Obligations.OpcodeMapDecides : Prop :=
  ∀ w : CmdWord,
    (∀ r ∈ opcodeMap, w &&& r.mask = r.value →
      ∃ i, decode w = .ok i ∧ i.mnemonic = r.mnemonic ∧ encode i = w) ∧
    ((∀ r ∈ opcodeMap, w &&& r.mask ≠ r.value) → ∃ e, decode w = .error e)

/-- R84: which words are illegal, and that each is reported with its code and changes no state. -/
def Obligations.IllegalWordsReported : Prop :=
  ∀ (s : State) (c : Command) (rest : List Command), s.queue = c :: rest →
    let op := c.word.toNat / 2048
    let rsv := c.word.toNat / 512 % 4
    let d := c.word.toNat / 256 % 2
    let imm := c.word.toNat % 256
    let unassigned := op ∈ [0x00, 0x03, 0x0C, 0x0D, 0x0E, 0x0F, 0x1A, 0x1B, 0x1C, 0x1D, 0x1E, 0x1F]
    let badOperand := rsv ≠ 0 ∨ (¬ (0x04 ≤ op ∧ op ≤ 0x0B) ∧ d = 1) ∨
      (op ∈ [0x04, 0x05, 0x07, 0x0A, 0x10, 0x14, 0x18, 0x19] ∧ imm ≠ 0) ∨ (op = 0x08 ∧ 16 ≤ imm) ∨
      (op ∈ [0x09, 0x0B, 0x12] ∧ 2 ≤ imm)
    (unassigned → step s = .next ((s.issue c rest).respond (raisedResponse .ppBadCommand) .none)) ∧
    (¬ unassigned → badOperand →
      step s = .next ((s.issue c rest).respond (raisedResponse .ppBadOperand) .none)) ∧
    (¬ unassigned → ¬ badOperand → ∃ i, decode c.word = .ok i)

/-- Words the spec writes out (R87, R120 to R199) decode to the operations it writes beside them. -/
def Obligations.SpecWordsDecode : Prop :=
  decode 0x0811 = .ok (.cenc 17) ∧ decode 0x1011 = .ok (.cdec 17) ∧ decode 0x2000 = .ok (.tbload .d0) ∧
  decode 0x30D5 = .ok (.tbwrite .d0 0xD5) ∧ decode 0x4102 = .ok (.dstep .d1 0b0010) ∧
  decode 0x4900 = .ok (.dsel .d1 false) ∧ decode 0x5801 = .ok (.dsetwpo .d0 true) ∧ decode 0x8000 = .ok .reset ∧
  decode 0x8801 = .ok (.select 1) ∧ decode 0x9001 = .ok (.setwm true) ∧ decode 0x98D5 = .ok (.ldlatch 0xD5) ∧
  decode 0xA000 = .ok .rwbyte ∧ decode 0xB801 = .ok (.eject 1) ∧ decode 0x0000 = .error .badCommand ∧
  decode 0x8100 = .error .badOperand

/-- R15, R265: a step performs the operation the next command word decodes to, on the state with that command taken from
the host's list and its side band presented; with no operation issued nothing happens (R266). The host's list and the
idle step are the model's form of the host interface (log entry 5). -/
def Obligations.StepRunsDecoded : Prop :=
  (∀ (s : State) (c : Command) (rest : List Command) (i : Instr), s.queue = c :: rest → decode c.word = .ok i →
    step s = exec i { s with queue := rest, sideIn := c.side }) ∧
  (∀ s : State, s.queue = [] → step s = .next s)

/-- R86: the response as a number, `status << 24 | value << 16 | fail`, with the codes of R220. -/
def Obligations.ResponseWordFields : Prop :=
  ∀ r : Response,
    (responseWord r).toNat = (statusCode r.status).toNat * 2 ^ 24 + r.value.toNat * 2 ^ 16 + r.fail.toNat ∧
    (statusCode r.status).toNat =
      match r.status with
      | .ok => 0x00
      | .ppBadCommand => 0x10
      | .ppBadOperand => 0x11
      | .ppDriveRange => 0x12
      | .ppSlotOccupied => 0x13
      | .ppBadImage => 0x14
      | .ppPhaseRange => 0x15
      | .ppTrackRange => 0x16
      | .decodeIntegrity => 0x20

/-- R88: the three pseudo-instructions' expansions. -/
def Obligations.PseudoInstructionsExpand : Prop :=
  ∀ (f : Fin Config.nPhases) (b : Byte) (n : Nat),
    (Pseudo.wrbyte b).expand f = [.ldlatch b, .rwbyte] ∧
    ((Pseudo.readn n).expand f).length = n ∧ (∀ i ∈ (Pseudo.readn n).expand f, i = .rwbyte) ∧
    ((Pseudo.seekup n).expand f).length = n ∧
    ∀ j, j < n → ((Pseudo.seekup n).expand f)[j]? = some (.step (BitVec.ofNat 8 ((f.val + (j + 1)) % 4)))

/-! ## Reset, invariants, errors -/

/-- R252: the power-on state. -/
def Obligations.PowerOnState : Prop :=
  State.reset.ctl = { sel := none, wmode := false, latch := 0x00, pstat := false } ∧
  ∀ d, let x := State.reset.drive d
    x.half = 0 ∧ x.phases = 0b0000 ∧ x.last = 0 ∧ x.motor = false ∧ x.light = false ∧ x.wpo = false ∧ x.img = none ∧
      x.tb = none

/-- R39: the invariants hold at power-on. -/
def Obligations.PowerOnStateSound : Prop :=
  State.reset.Inv ∧ State.reset.CtlInv ∧ State.reset.ReadOnlyClean ∧ State.reset.placesHeld

/-- R39 items 1, 2, 4 and 5, the canonical form and bounds of every image, and one place for every image: kept by every
step; and so is that every empty place of the host's store is that of an attached image (R265). The canonical form and
the place of an image in the host's hands are the model's (log entries 4 and 8). -/
def Obligations.StepKeepsInvariant : Prop :=
  ∀ s t : State, step s = .next t → (s.Inv → t.Inv) ∧ (s.placesHeld → t.placesHeld)

/-- R39 item 7: kept by every controller-level operation. -/
def Obligations.ControllerOperationsKeepSelection : Prop :=
  ∀ (i : Instr) (s t : State), Instr.controllerLevel i = true → s.CtlInv → exec i s = .next t → t.CtlInv

/-- R225: every step completes, but for the move R256 and U8 deny the host (log entry 9): the INSERT of an image that a
drive holds already. -/
def Obligations.NothingIsFatal : Prop :=
  ∀ s : State, (∃ t, step s = .next t) ∨
    (step s = .refused .sharedImage ∧
      ∃ c rest i d name, s.queue = c :: rest ∧ decode c.word = .ok (.insert i) ∧ driveIndex i = some d ∧
        (s.drive d).img = none ∧ c.side = .image name ∧ s.store[name]? = some none ∧
        ∃ e k, (s.drive e).img = some k ∧ k.name = name)

/-- R221: after a ProtocolPrecondition nothing differs from before the operation. -/
def Obligations.PreconditionViolationChangesNothing : Prop :=
  ∀ (s t : State) (c : Command) (rest : List Command), s.queue = c :: rest → step s = .next t →
    t.resp.status.isPrecondition = true →
    t = { s with queue := rest, sideIn := c.side, resp := raisedResponse t.resp.status, sideOut := .none }

/-- R222: the report of a decode failure: it is the mask, it comes from CDEC or an operation that can flush, and then
from a dirty buffer over a SECTOR image. -/
def Obligations.DecodeIntegrityReported : Prop :=
  ∀ (i : Instr) (s t : State), exec i s = .next t →
    (t.resp.status = .decodeIntegrity ↔ t.resp.fail ≠ 0) ∧
    (t.resp.fail ≠ 0 → (∃ k, i = .cdec k) ∨
      (Instr.canFlush i = true ∧ ∃ d k tb, (s.drive d).img = some k ∧ k.layout = .sector ∧ (s.drive d).tb = some tb ∧
        tb.dirty = true))

/-! ## Frames over all operations -/

/-- R21 to R24: what writes each controller register. -/
def Obligations.ControllerRegisterWriters : Prop :=
  ∀ (i : Instr) (s t : State), exec i s = .next t →
    (t.ctl.sel ≠ s.ctl.sel → (∃ k, i = .select k) ∨ i = .reset) ∧
    (t.ctl.wmode ≠ s.ctl.wmode → (∃ e, i = .setwm e) ∨ i = .reset) ∧
    (t.ctl.latch ≠ s.ctl.latch → ∃ b, i = .ldlatch b) ∧
    (t.ctl.pstat ≠ s.ctl.pstat → (i = .rwbyte ∧ t.ctl.pstat = true) ∨ (i = .reset ∧ t.ctl.pstat = false))

/-- R25 to R32: what writes each drive register; a buffer comes and goes and an image is attached and detached only as
named. -/
def Obligations.DriveRegisterWriters : Prop :=
  ∀ (i : Instr) (s t : State) (d : DriveId), exec i s = .next t →
    let x := s.drive d
    let y := t.drive d
    ((y.half ≠ x.half ∨ y.phases ≠ x.phases ∨ y.last ≠ x.last) →
      (∃ m, i = .dstep d m) ∨ (∃ ph, i = .step ph ∧ s.ctl.sel = some d)) ∧
    ((y.motor ≠ x.motor ∨ y.light ≠ x.light) → (∃ e, i = .dsel d e) ∨ (∃ k, i = .select k) ∨ i = .reset) ∧
    (y.wpo ≠ x.wpo → ∃ v, i = .dsetwpo d v) ∧
    (x.img = none → y.img ≠ none → ∃ k, i = .insert k ∧ driveIndex k = some d) ∧
    (x.img ≠ none → y.img = none → ∃ k, i = .eject k ∧ driveIndex k = some d) ∧
    (x.tb = none → y.tb ≠ none → i = .tbload d ∨ i = .tbread d ∨ (∃ b, i = .tbwrite d b) ∨
      (i = .rwbyte ∧ s.ctl.sel = some d))

/-- R63: the image of a drive changes only at a flush point of that drive, and only when its buffer is dirty. -/
def Obligations.ImageChangesOnlyAtFlushPoints : Prop :=
  ∀ (i : Instr) (s t : State) (d : DriveId) (k k' : Disk), exec i s = .next t →
    (s.drive d).img = some k → (t.drive d).img = some k' →
    k'.name = k.name ∧ k'.layout = k.layout ∧ k'.ro = k.ro ∧
    (k'.mem ≠ k.mem → (∃ tb, (s.drive d).tb = some tb ∧ tb.dirty = true) ∧
      (i = .tbflush d ∨ (∃ m, i = .dstep d m) ∨ (∃ ph, i = .step ph ∧ s.ctl.sel = some d) ∨ i = .dsel d false ∨
        (∃ n o, i = .select n ∧ driveIndex n = some o ∧ o ≠ d) ∨ i = .reset ∨ i = .tbload d))

/-- R39 item 3 and R154: a buffer that an operation drops was flushed by it, or was clean. -/
def Obligations.DirtyBufferNeverDropped : Prop :=
  ∀ (i : Instr) (s t : State) (d : DriveId) (tb : TrackBuffer) (k : Disk), exec i s = .next t →
    (s.drive d).tb = some tb → tb.dirty = true → (s.drive d).img = some k → (t.drive d).tb = none →
    (∃ k', (t.drive d).img = some k' ∧ k'.mem = (k.writeBack tb).1.mem) ∨
    ((t.drive d).img = none ∧
      t.store = s.store.set k.name (some (k.writeBack tb).1.returned))

/-- R82, D5: a unit-level operation touches its own drive and nothing else but the response. -/
def Obligations.UnitOperationsStayInTheirDrive : Prop :=
  ∀ (i : Instr) (d : DriveId) (s t : State), Instr.unitDrive i = some d → exec i s = .next t →
    t = { s.setDrive d (t.drive d) with resp := t.resp, sideOut := .none }

/-- R265, R13: the host's images and operations change only where an image is handed over or back; a draw is counted only
by the two operations that draw. The fields are the model's (log entries 3, 5, 8 and 10). -/
def Obligations.HostSideFrame : Prop :=
  ∀ (i : Instr) (s t : State), exec i s = .next t →
    t.queue = s.queue ∧ t.sideIn = s.sideIn ∧
    (t.store ≠ s.store → (∃ k, i = .insert k) ∨ ∃ k, i = .eject k) ∧
    (t.sideOut ≠ .none → (∃ k, i = .cenc k) ∨ ∃ k, i = .cdec k) ∧
    (t.draws ≠ s.draws → t.draws = s.draws + 1 ∧ (i = .rwbyte ∨ i = .iswp))

/-! ## Nibble Codec -/

/-- R91 to R93: the odd-bit-pair code and its inverse; a byte of the code has bits 7, 5, 3 and 1 set, so no two adjacent
zero bits. -/
def Obligations.OddBitPairCode : Prop :=
  (∀ v : Byte, ∃ a b, enc44 v = [a, b] ∧ a = ((v >>> 1) ||| 0xAA) ∧ b = (v ||| 0xAA) ∧ dec44 a b = v) ∧
  (∀ a b : Byte, dec44 a b = (((a <<< 1) ||| 1) &&& b)) ∧
  ∀ v b : Byte, b ∈ enc44 v →
    b.getLsbD 7 = true ∧ b.getLsbD 5 = true ∧ b.getLsbD 3 = true ∧ b.getLsbD 1 = true ∧
    ∀ k : Fin 7, b.getLsbD k.val = true ∨ b.getLsbD (k.val + 1) = true

/-- R93 to R95: the alphabet is strictly increasing, is undone by its inverse, and is the set of bytes with bit 7 set, at
most one pair of adjacent zero bits and at least one pair of adjacent one bits among bits 6 to 0, less 0xAA and 0xD5. -/
def Obligations.DenseAlphabet : Prop :=
  (∀ x y : Six, x.toNat < y.toNat → (nib62 x).toNat < (nib62 y).toNat) ∧
  (∀ (x : Six) (b : Byte), unnib62 b = some x ↔ nib62 x = b) ∧
  ∀ b : Byte, (∃ x, nib62 x = b) ↔
    b.getLsbD 7 = true ∧
    ((List.range 7).filter fun k => !b.getLsbD k && !b.getLsbD (k + 1)).length ≤ 1 ∧
    (∃ k, k < 6 ∧ b.getLsbD k = true ∧ b.getLsbD (k + 1) = true) ∧ b ≠ 0xAA ∧ b ≠ 0xD5

/-- R97: the 342 six-bit values of a sector, bit by bit: the exchanged low pairs of bytes `k`, `k + 86` and `k + 172`,
then the high six bits of every byte. -/
def Obligations.DenseValues : Prop :=
  ∀ data : Sector,
    let byte := fun k : Nat => data.toList.getD k 0
    (expand data).length = 342 ∧
    (∀ k, k < 86 → ∃ v : Six, (expand data)[k]? = some v ∧
      v.getLsbD 0 = (byte k).getLsbD 1 ∧ v.getLsbD 1 = (byte k).getLsbD 0 ∧
      v.getLsbD 2 = (byte (k + 86)).getLsbD 1 ∧ v.getLsbD 3 = (byte (k + 86)).getLsbD 0 ∧
      v.getLsbD 4 = (byte (k + 172)).getLsbD 1 ∧ v.getLsbD 5 = (byte (k + 172)).getLsbD 0) ∧
    (∀ i, i < 256 → ∃ v : Six, (expand data)[86 + i]? = some v ∧ v.toNat = (byte i).toNat / 4)

/-- R98: the 343 bytes of a body: each value xor its predecessor, then the last value. -/
def Obligations.DenseChain : Prop :=
  ∀ data : Sector,
    let v := fun i : Nat => (expand data).getD i 0
    (enc62 data).length = 343 ∧ (enc62 data)[0]? = some (nib62 (v 0)) ∧
    (∀ i, 0 < i → i < 342 → (enc62 data)[i]? = some (nib62 (v i ^^^ v (i - 1)))) ∧
    (enc62 data)[342]? = some (nib62 (v 341))

/-- R99: the dense code is undone, for every sector; a body with a byte outside the alphabet does not decode, and a body
of alphabet bytes decodes exactly when the exclusive or of its six-bit numbers is 0 (R98); a body of 343 such bytes then
decodes to the sector R99 assembles from its values `v`, and bits 5:4 of `v[84]` and `v[85]` make no difference (R97). -/
def Obligations.DenseDecode : Prop :=
  (∀ data : Sector, dec62 (enc62 data) = some data) ∧
  (∀ (e : List Byte) (b : Byte), b ∈ e → unnib62 b = none → dec62 e = none) ∧
  (∀ xs : List Six, xs ≠ [] → (dec62 (xs.map nib62) = none ↔ xs.foldl (· ^^^ ·) 0 ≠ 0)) ∧
  let v : List Six → Nat → Six := fun xs i => (xs.take (i + 1)).foldl (· ^^^ ·) 0
  (∀ xs : List Six, xs.length = 343 → xs.foldl (· ^^^ ·) 0 = 0 →
    ∃ data : Sector, dec62 (xs.map nib62) = some data ∧
      ∀ i : Fin Config.sectorBytes, data[i] =
        ((v xs (86 + i.val)).setWidth 8 <<< 2) |||
          (rev2 ((v xs (i.val % 86) >>> (2 * (i.val / 86))).setWidth 2)).setWidth 8) ∧
  ∀ xs ys : List Six, xs.length = 343 → ys.length = 343 → xs.foldl (· ^^^ ·) 0 = 0 → ys.foldl (· ^^^ ·) 0 = 0 →
    (∀ i, i < 342 → i ≠ 84 → i ≠ 85 → v xs i = v ys i) →
    (∀ i, i = 84 ∨ i = 85 → (v xs i).setWidth 4 = (v ys i).setWidth 4) →
    dec62 (xs.map nib62) = dec62 (ys.map nib62)

/-- R102: the parts of a frame at their offsets. -/
def Obligations.FrameLayout : Prop :=
  ∀ (t : Fin Config.nTracks) (p : Fin Config.nSectors) (data : Sector),
    let f := frameOf t p data
    f.length = 416 ∧ (∀ o, o < 47 → f[o]? = some 0xFF) ∧ (∀ o, 61 ≤ o → o < 67 → f[o]? = some 0xFF) ∧
    (f.drop 47).take 14 =
      [0xD5, 0xAA, 0x96] ++ enc44 0xFE ++ enc44 (BitVec.ofNat 8 t.val) ++ enc44 (BitVec.ofNat 8 p.val)
        ++ enc44 (0xFE ^^^ BitVec.ofNat 8 t.val ^^^ BitVec.ofNat 8 p.val) ++ [0xDE, 0xAA, 0xEB] ∧
    (f.drop 67).take 3 = [0xD5, 0xAA, 0xAD] ∧ (f.drop 70).take 343 = enc62 data ∧ f.drop 413 = [0xDE, 0xAA, 0xEB]

/-- R103: frame `p` of a track stands at indices `416 p` to `416 p + 415` and holds logical sector INTERLEAVE[p]; R104:
the table. -/
def Obligations.TrackLayout : Prop :=
  interleave.toList.map Fin.val = [0, 7, 14, 6, 13, 5, 12, 4, 11, 3, 10, 2, 9, 1, 8, 15] ∧
  ∀ (t : Fin Config.nTracks) (trk : Vector Byte Config.trackBytes) (p : Fin Config.nSectors),
    ((trackOf t trk).toList.drop (416 * p.val)).take 416 = frameOf t p (sectorOf trk interleave[p]) ∧
    ∀ (l : Fin Config.nSectors) (i : Fin Config.sectorBytes), (sectorOf trk l)[i] = trk.toList[l.val * 256 + i.val]?.getD 0

/-- R122: when an address field stands at an index. -/
def Obligations.AddressFieldAccepted : Prop :=
  ∀ (g : Nat → Byte) (t : Fin Config.nTracks) (i : Nat) (sec : Fin Config.nSectors),
    addressFieldAt g t i = some sec ↔
      g i = 0xD5 ∧ g (i + 1) = 0xAA ∧ g (i + 2) = 0x96 ∧
      dec44 (g (i + 9)) (g (i + 10)) =
        dec44 (g (i + 3)) (g (i + 4)) ^^^ dec44 (g (i + 5)) (g (i + 6)) ^^^ dec44 (g (i + 7)) (g (i + 8)) ∧
      (dec44 (g (i + 5)) (g (i + 6))).toNat = t.val ∧ (dec44 (g (i + 7)) (g (i + 8))).toNat = sec.val ∧
      g (i + 11) = 0xDE ∧ g (i + 12) = 0xAA

/-- R123: the data prologue is the first of the 33 candidate positions. -/
def Obligations.DataPrologueIsFirstInWindow : Prop :=
  ∀ (g : Nat → Byte) (i : Nat),
    let at_ := fun k => g k = 0xD5 ∧ g (k + 1) = 0xAA ∧ g (k + 2) = 0xAD
    (∀ k, dataPrologueAfter g i = some k ↔
      i + 14 ≤ k ∧ k ≤ i + 14 + 32 ∧ at_ k ∧ ∀ j, i + 14 ≤ j → j < k → ¬ at_ j) ∧
    (dataPrologueAfter g i = none ↔ ∀ k, i + 14 ≤ k → k ≤ i + 14 + 32 → ¬ at_ k)

/-- R124, R121, R125: the data field at an index, and the valid pair of fields that starts at one. -/
def Obligations.ValidPairOfFields : Prop :=
  ∀ (g : Nat → Byte) (t : Fin Config.nTracks) (i : Nat),
    (∀ (j : Nat) (data : Sector), dataFieldAt g j = some data ↔
      dec62 ((List.range 343).map fun m => g (j + 3 + m)) = some data ∧ g (j + 346) = 0xDE ∧ g (j + 347) = 0xAA) ∧
    (∀ (l : Fin Config.nSectors) (data : Sector), pairAt g t i = some (l, data) ↔
      ∃ sec j, addressFieldAt g t i = some sec ∧ dataPrologueAfter g i = some j ∧ dataFieldAt g j = some data ∧
        l = interleave[sec])

/-- R120: CENC. A command that carries no byte sequence counts as one that carries the empty one: the model's choice, log
entry 6. -/
def Obligations.CencEncodesTrack : Prop :=
  ∀ (t : Byte) (s : State),
    encode (.cenc t) = 0x0800 ||| t.setWidth 16 ∧
    (34 < t.toNat → exec (.cenc t) s = .next (s.respond (raisedResponse .ppTrackRange) .none)) ∧
    (t.toNat ≤ 34 → (sideBytes s.sideIn).length ≠ 4096 →
      exec (.cenc t) s = .next (s.respond (raisedResponse .ppBadOperand) .none)) ∧
    (t.toNat ≤ 34 → (sideBytes s.sideIn).length = 4096 →
      ∃ (t' : Fin Config.nTracks) (trk : Vector Byte Config.trackBytes), t'.val = t.toNat ∧
        trk.toList = sideBytes s.sideIn ∧
        exec (.cenc t) s = .next (s.respond (okResponse 0) (.stream (trackOf t' trk))))

/-- R121, R125, R126: CDEC. A command that carries no byte sequence counts as one that carries the empty one: the model's
choice, log entry 6. -/
def Obligations.CdecDecodesTrack : Prop :=
  ∀ (t : Byte) (s : State),
    let buf := sideBytes s.sideIn
    encode (.cdec t) = 0x1000 ||| t.setWidth 16 ∧
    (34 < t.toNat → exec (.cdec t) s = .next (s.respond (raisedResponse .ppTrackRange) .none)) ∧
    (t.toNat ≤ 34 → buf = [] → exec (.cdec t) s = .next (s.respond (raisedResponse .ppBadOperand) .none)) ∧
    (t.toNat ≤ 34 → buf ≠ [] →
      ∃ (t' : Fin Config.nTracks) (res : Vector (Option Sector) Config.nSectors) (fail : BitVec 16),
        t'.val = t.toNat ∧ exec (.cdec t) s = .next (s.respond (flushResponse fail) (.sectors res)) ∧
        (∀ l : Fin Config.nSectors, fail.getLsbD l.val = res[l].isNone) ∧
        ∀ (l : Fin Config.nSectors) (data : Sector), res[l] = some data ↔
          ∃ i, i < buf.length ∧ pairAt (fun j => buf.getD (j % buf.length) 0) t' i = some (l, data) ∧
            ∀ j, j < i → ∀ data', pairAt (fun j => buf.getD (j % buf.length) 0) t' j ≠ some (l, data'))

/-- R128: decoding what CENC encoded gives every sector back, for every track and every block. -/
def Obligations.CodecRoundTrip : Prop :=
  ∀ (t : Byte) (trk : Vector Byte Config.trackBytes) (s : State), t.toNat ≤ 34 →
    ∃ out : TrackBytes,
      exec (.cenc t) { s with sideIn := .bytes trk.toList } =
        .next ({ s with sideIn := .bytes trk.toList }.respond (okResponse 0) (.stream out)) ∧
      exec (.cdec t) { s with sideIn := .bytes out.toList } =
        .next ({ s with sideIn := .bytes out.toList }.respond (okResponse 0)
          (.sectors (Vector.ofFn fun l => some (sectorOf trk l))))

/-- R127: decoding a rotated stream gives the same sectors, when no logical sector has two valid pairs. -/
def Obligations.ScanIgnoresRotation : Prop :=
  ∀ (t : Fin Config.nTracks) (buf : List Byte) (r : Nat), r ≤ buf.length →
    (∀ i j l data data', i < buf.length → j < buf.length → pairAt (circular buf.toArray) t i = some (l, data) →
      pairAt (circular buf.toArray) t j = some (l, data') → i = j) →
    scan (buf.drop r ++ buf.take r).toArray t = scan buf.toArray t

/-! ## Track Buffer -/

/-- R150: TBLOAD. -/
def Obligations.TbloadLoadsTrackUnderHead : Prop :=
  ∀ (d : DriveId) (s : State),
    encode (.tbload d) = 0x2000 ||| ((d.bit.setWidth 16 : CmdWord) <<< 8) ∧
    ((s.drive d).img = none → exec (.tbload d) s = .next (s.respond (okResponse 0) .none)) ∧
    (∀ k, (s.drive d).img = some k →
      ∃ (k' : Disk) (t : Fin Config.nTracks) (buf : TrackBytes),
        (s.drive d).flush.1.img = some k' ∧ t.val = (s.drive d).half.val / 2 ∧
        exec (.tbload d) s =
          .next ((s.setDrive d { (s.drive d).flush.1 with
            tb := some { buf := buf, cur := 0, dirty := false, track := t } }).respond
              (flushResponse (s.drive d).flush.2) .none) ∧
        (k.layout = .sector → ∃ trk : Vector Byte Config.trackBytes,
          (∀ i : Fin Config.trackBytes, trk[i] = k'.mem.read (t.val * 4096 + i.val)) ∧ buf = trackOf t trk) ∧
        (k.layout = .nibble → ∀ i : Fin Config.trackNibLen, buf[i] = k'.mem.read (t.val * 6656 + i.val)))

/-- R151: TBREAD. -/
def Obligations.TbreadReadsAtCursor : Prop :=
  ∀ (d : DriveId) (s : State),
    encode (.tbread d) = 0x2800 ||| ((d.bit.setWidth 16 : CmdWord) <<< 8) ∧
    ((s.drive d).img = none → exec (.tbread d) s = .next (s.respond (okResponse 0xFF) .none)) ∧
    (∀ k, (s.drive d).img = some k →
      ∃ (tb : TrackBuffer) (c : Fin Config.trackNibLen),
        ((s.drive d).tb = some tb ∨ ((s.drive d).tb = none ∧ (s.drive d).load.1.tb = some tb)) ∧
        c.val = (tb.cur.val + 1) % 6656 ∧
        exec (.tbread d) s =
          .next ((s.setDrive d { s.drive d with tb := some { tb with cur := c } }).respond
            (okResponse tb.buf[tb.cur]) .none))

/-- R152: TBWRITE. -/
def Obligations.TbwriteWritesAtCursor : Prop :=
  ∀ (d : DriveId) (b : Byte) (s : State),
    encode (.tbwrite d b) = 0x3000 ||| ((d.bit.setWidth 16 : CmdWord) <<< 8) ||| b.setWidth 16 ∧
    ((s.drive d).img = none ∨ s.ctl.wmode = false →
      exec (.tbwrite d b) s = .next (s.respond (okResponse 0) .none)) ∧
    (∀ k, (s.drive d).img = some k → s.ctl.wmode = true →
      ∃ (tb : TrackBuffer) (c : Fin Config.trackNibLen),
        ((s.drive d).tb = some tb ∨ ((s.drive d).tb = none ∧ (s.drive d).load.1.tb = some tb)) ∧
        c.val = (tb.cur.val + 1) % 6656 ∧
        ((s.drive d).wpo = true ∨ k.ro = true → exec (.tbwrite d b) s =
          .next ((s.setDrive d { s.drive d with tb := some { tb with cur := c } }).respond (okResponse 0) .none)) ∧
        ((s.drive d).wpo = false ∧ k.ro = false → exec (.tbwrite d b) s =
          .next ((s.setDrive d { s.drive d with
            tb := some { tb with buf := tb.buf.set tb.cur b, cur := c, dirty := true } }).respond
              (okResponse 0) .none)))

/-- R153, R67: TBFLUSH. Nothing without a dirty buffer; a SECTOR image gets every sector that decodes and keeps its
bytes for the others; a NIBBLE image gets the buffer verbatim; dirty is cleared; no byte outside the track changes. -/
def Obligations.TbflushWritesBack : Prop :=
  ∀ (d : DriveId) (s : State),
    encode (.tbflush d) = 0x3800 ||| ((d.bit.setWidth 16 : CmdWord) <<< 8) ∧
    exec (.tbflush d) s =
      .next ((s.setDrive d (s.drive d).flush.1).respond (flushResponse (s.drive d).flush.2) .none) ∧
    ((∀ tb, (s.drive d).tb = some tb → tb.dirty = false) →
      exec (.tbflush d) s = .next (s.respond (okResponse 0) .none)) ∧
    (∀ tb k, (s.drive d).tb = some tb → tb.dirty = true → (s.drive d).img = some k → k.layout = .sector →
      ∃ (m : Memory) (fail : BitVec 16),
        exec (.tbflush d) s =
          .next ((s.setDrive d { s.drive d with
            img := some { k with mem := m }, tb := some { tb with dirty := false } }).respond
              (flushResponse fail) .none) ∧
        (∀ l : Fin Config.nSectors, fail.getLsbD l.val = (scan tb.buf.toArray tb.track)[l].isNone) ∧
        (∀ (l : Fin Config.nSectors) (i : Fin Config.sectorBytes),
          m.read ((tb.track.val * 16 + l.val) * 256 + i.val) =
            match (scan tb.buf.toArray tb.track)[l] with
            | some data => data[i]
            | none => k.mem.read ((tb.track.val * 16 + l.val) * 256 + i.val)) ∧
        (∀ a, a < tb.track.val * 4096 ∨ tb.track.val * 4096 + 4096 ≤ a → m.read a = k.mem.read a)) ∧
    (∀ tb k, (s.drive d).tb = some tb → tb.dirty = true → (s.drive d).img = some k → k.layout = .nibble →
      ∃ m : Memory,
        exec (.tbflush d) s =
          .next ((s.setDrive d { s.drive d with
            img := some { k with mem := m }, tb := some { tb with dirty := false } }).respond (okResponse 0) .none) ∧
        (∀ i : Fin Config.trackNibLen, m.read (tb.track.val * 6656 + i.val) = tb.buf[i]) ∧
        (∀ a, a < tb.track.val * 6656 ∨ tb.track.val * 6656 + 6656 ≤ a → m.read a = k.mem.read a))

/-- R156: after `n` byte reads of a drive with an image the cursor stands `n` further, circularly, the `j`-th value is
the byte `j` places on from where the cursor stood, and nothing else but the responses has changed. -/
def Obligations.CircularCursor : Prop :=
  ∀ (d : DriveId) (s : State) (k : Disk) (tb : TrackBuffer) (n : Nat),
    (s.drive d).img = some k → (s.drive d).tb = some tb →
    ∃ (vs : List Byte) (t : State) (c : Fin Config.trackNibLen),
      readMany d n s = some (vs, t) ∧ vs.length = n ∧ c.val = (tb.cur.val + n) % 6656 ∧
      t.drive d = { s.drive d with tb := some { tb with cur := c } } ∧
      t.drive (driveOther d) = s.drive (driveOther d) ∧ t.ctl = s.ctl ∧ t.store = s.store ∧
      ∀ j, j < n → vs[j]? = tb.buf.toList[(tb.cur.val + j) % 6656]?

/-- R159, R60: a protected image is never written. For a read-only one: through any operation it is in its drive
unchanged, or EJECT gives it back unchanged, and its buffer stays clean. For one that `wp(d)` protects either way (R30),
its buffer clean: the same through any one operation, and the override stays until a DSETWPO of the drive, so that the
law goes on from there. -/
def Obligations.ReadOnlyImageNeverWritten : Prop :=
  (∀ (i : Instr) (s t : State), s.Inv → s.ReadOnlyClean → exec i s = .next t →
    t.ReadOnlyClean ∧
    ∀ d k, (s.drive d).img = some k → k.ro = true →
      (t.drive d).img = some k ∨ ((t.drive d).img = none ∧ t.store[k.name]? = some (some k.returned))) ∧
  ∀ (i : Instr) (s t : State) (d : DriveId) (k : Disk), exec i s = .next t → (s.drive d).img = some k →
    ((s.drive d).wpo = true ∨ k.ro = true) → (∀ tb, (s.drive d).tb = some tb → tb.dirty = false) →
    (∀ tb, (t.drive d).tb = some tb → tb.dirty = false) ∧
    ((t.drive d).img = some k ∨
      ((∃ n, i = .eject n ∧ driveIndex n = some d) ∧ (t.drive d).img = none ∧
        t.store = s.store.set k.name (some k.returned))) ∧
    ((∀ v, i ≠ .dsetwpo d v) → (t.drive d).wpo = (s.drive d).wpo)

/-- R158: the write-back of a track as TBLOAD made it leaves every byte of a SECTOR image as it was. -/
def Obligations.RewriteOfLoadedTrackChangesNothing : Prop :=
  ∀ (d : DriveId) (s : State) (k : Disk) (h : Fin Config.nHalf) (c : Fin Config.trackNibLen), k.layout = .sector →
    (s.drive d).img = some k →
    (s.drive d).tb = some { k.freshBuffer h with cur := c, dirty := true } →
    ∃ m : Memory,
      exec (.tbflush d) s =
        .next ((s.setDrive d { s.drive d with
          img := some { k with mem := m }, tb := some { k.freshBuffer h with cur := c } }).respond
            (okResponse 0) .none) ∧
      ∀ a, m.read a = k.mem.read a

/-! ## Drive Mechanism -/

/-- R170 to R173, R178: DSTEP. -/
def Obligations.DstepMovesHead : Prop :=
  ∀ (d : DriveId) (m : BitVec 4) (s : State),
    let x := s.drive d
    let new := m &&& ~~~x.phases
    encode (.dstep d m) = 0x4000 ||| ((d.bit.setWidth 16 : CmdWord) <<< 8) ||| m.setWidth 16 ∧
    ((∀ p : Fin Config.nPhases, new ≠ 1#4 <<< p.val) →
      exec (.dstep d m) s = .next ((s.setDrive d { x with phases := m }).respond (okResponse 0) .none)) ∧
    (∀ p : Fin Config.nPhases, new = 1#4 <<< p.val →
      let q := (p.val + 4 - x.last.val) % 4
      let delta : Int := if q = 1 then 1 else if q = 3 then -1 else 0
      ∃ h : Fin Config.nHalf, (h.val : Int) = max 0 (min 69 ((x.half.val : Int) + delta)) ∧
        let y := { x with phases := m, last := p, half := h }
        ((h = x.half ∨ ∀ tb, x.tb = some tb → tb.track.val = h.val / 2) →
          exec (.dstep d m) s = .next ((s.setDrive d y).respond (okResponse 0) .none)) ∧
        (∀ tb, h ≠ x.half → x.tb = some tb → tb.track.val ≠ h.val / 2 →
          exec (.dstep d m) s =
            .next ((s.setDrive d { y.flush.1 with tb := none }).respond (flushResponse y.flush.2) .none)))

/-- R177: the stepper laws, for STEP on the selected drive with the last phase's line the only one on. -/
def Obligations.StepperLaws : Prop :=
  ∀ (s t : State) (d : DriveId) (ph : Byte), s.ctl.sel = some d → ph.toNat < 4 →
    (s.drive d).phases = 1#4 <<< (s.drive d).last.val → exec (.step ph) s = .next t →
    let p := (s.drive d).half.val
    let f := (s.drive d).last.val
    let q := (t.drive d).half.val
    ((ph.toNat = f ∨ ph.toNat = (f + 2) % 4) → q = p) ∧
    (ph.toNat = (f + 1) % 4 → q = min 69 (p + 1)) ∧
    (ph.toNat = (f + 3) % 4 → q = p - 1) ∧
    (t.drive d).last.val = ph.toNat ∧ (t.drive d).phases = 1#4 <<< ph.toNat

/-- R174: DSEL. -/
def Obligations.DselSwitchesMotor : Prop :=
  ∀ (d : DriveId) (s : State),
    encode (.dsel d true) = 0x4801 ||| ((d.bit.setWidth 16 : CmdWord) <<< 8) ∧
    encode (.dsel d false) = 0x4800 ||| ((d.bit.setWidth 16 : CmdWord) <<< 8) ∧
    exec (.dsel d true) s =
      .next ((s.setDrive d { s.drive d with motor := true, light := true }).respond (okResponse 0) .none) ∧
    exec (.dsel d false) s =
      .next ((s.setDrive d { (s.drive d).flush.1 with tb := none, motor := false, light := false }).respond
        (flushResponse (s.drive d).flush.2) .none)

/-- R175, R30: DISWP. -/
def Obligations.DiswpSensesProtection : Prop :=
  ∀ (d : DriveId) (s : State),
    encode (.diswp d) = 0x5000 ||| ((d.bit.setWidth 16 : CmdWord) <<< 8) ∧
    ∃ v : Byte, exec (.diswp d) s = .next (s.respond (okResponse v) .none) ∧
      (((s.drive d).wpo = true ∨ ∃ k, (s.drive d).img = some k ∧ k.ro = true) → v = 1) ∧
      (¬ ((s.drive d).wpo = true ∨ ∃ k, (s.drive d).img = some k ∧ k.ro = true) → v = 0)

/-- R176: DSETWPO. -/
def Obligations.DsetwpoSetsOverride : Prop :=
  ∀ (d : DriveId) (v : Bool) (s : State),
    encode (.dsetwpo d v) =
      0x5800 ||| ((d.bit.setWidth 16 : CmdWord) <<< 8) ||| (if v then 1 else 0) ∧
    exec (.dsetwpo d v) s = .next ((s.setDrive d { s.drive d with wpo := v }).respond (okResponse 0) .none)

/-! ## Disk Controller -/

/-- R250, R251: RESET. -/
def Obligations.ResetDeselects : Prop :=
  ∀ s : State,
    encode .reset = 0x8000 ∧
    exec .reset s =
      .next ({ s with
        drive0 := { s.drive0.flush.1 with tb := none, motor := false, light := false }
        drive1 := { s.drive1.flush.1 with tb := none, motor := false, light := false }
        ctl := { s.ctl with sel := none, wmode := false, pstat := false } }.respond
          (flushResponse (s.drive0.flush.2 ||| s.drive1.flush.2)) .none)

/-- R250: RESET on an already reset block changes nothing. -/
def Obligations.ResetTwiceIsReset : Prop :=
  ∀ s t u : State, exec .reset s = .next t → exec .reset t = .next u →
    u = { t with resp := okResponse 0 }

/-- R191: SELECT. -/
def Obligations.SelectChoosesDrive : Prop :=
  ∀ (i : Byte) (s : State),
    encode (.select i) = 0x8800 ||| i.setWidth 16 ∧
    (1 < i.toNat → exec (.select i) s = .next (s.respond (raisedResponse .ppDriveRange) .none)) ∧
    (∀ d, i = (if d = DriveId.d0 then 0 else 1) →
      let o := s.drive (driveOther d)
      exec (.select i) s =
        .next ({ (s.setDrive (driveOther d) { o.flush.1 with tb := none, motor := false, light := false }).setDrive d
            { s.drive d with motor := true, light := true } with
          ctl := { s.ctl with sel := some d } }.respond (flushResponse o.flush.2) .none))

/-- R191, D27: selecting the selected drive changes nothing, under R39 item 7. -/
def Obligations.SelectSelectedChangesNothing : Prop :=
  ∀ (i : Byte) (d : DriveId) (s : State), s.CtlInv → s.ctl.sel = some d → driveIndex i = some d →
    exec (.select i) s = .next (s.respond (okResponse 0) .none)

/-- R192: SETWM. -/
def Obligations.SetwmSetsMode : Prop :=
  ∀ (e : Bool) (s : State),
    encode (.setwm e) = 0x9000 ||| (if e then 1 else 0) ∧
    exec (.setwm e) s = .next ({ s with ctl := { s.ctl with wmode := e } }.respond (okResponse 0) .none)

/-- R193: LDLATCH; the latch keeps its value across RWBYTE. -/
def Obligations.LdlatchLoadsLatch : Prop :=
  ∀ (b : Byte) (s : State),
    encode (.ldlatch b) = 0x9800 ||| b.setWidth 16 ∧
    exec (.ldlatch b) s = .next ({ s with ctl := { s.ctl with latch := b } }.respond (okResponse 0) .none) ∧
    ∀ t, exec .rwbyte s = .next t → t.ctl.latch = s.ctl.latch

/-- R194, R200: RWBYTE. With no drive selected a draw, and no state changes; in read mode what TBREAD does; in write mode
what TBWRITE of the latch does, the protection status bit set when an attached image is protected, and a draw. What it
says of the draw holds for every floating value (log entry 3). -/
def Obligations.RwbyteTransfersByte : Prop :=
  ∀ s : State,
    encode .rwbyte = 0xA000 ∧
    (s.ctl.sel = none → exec .rwbyte s =
      .next ({ s with draws := s.draws + 1 }.respond (okResponse (Config.freeByte s.draws)) .none)) ∧
    (∀ d, s.ctl.sel = some d → s.ctl.wmode = false →
      ∃ t, exec .rwbyte s = .next t ∧ exec (.tbread d) s = .next t) ∧
    (∀ d, s.ctl.sel = some d → s.ctl.wmode = true →
      ∃ t, exec (.tbwrite d s.ctl.latch) s = .next t ∧
        exec .rwbyte s =
          .next ({ t with
            draws := s.draws + 1
            ctl := { s.ctl with
              pstat := s.ctl.pstat || ((s.drive d).img.isSome && (s.drive d).wp) } }.respond
            (okResponse (Config.freeByte s.draws)) .none))

/-- R201: with a drive selected that holds no image. STEP moves the head as usual (R170 to R172): not at all when its line
was on already, else by STEPDELTA within the ends. -/
def Obligations.NoMediaInSelectedDrive : Prop :=
  ∀ (s : State) (d : DriveId), s.ctl.sel = some d → (s.drive d).img = none → (s.drive d).tb = none →
    (s.ctl.wmode = false → exec .rwbyte s = .next (s.respond (okResponse 0xFF) .none)) ∧
    (s.ctl.wmode = true → exec .rwbyte s =
      .next ({ s with draws := s.draws + 1 }.respond (okResponse (Config.freeByte s.draws)) .none)) ∧
    exec .iswp s = .next (s.respond (okResponse (if (s.drive d).wpo then 1 else 0)) .none) ∧
    (∀ (ph : Byte) (p : Fin Config.nPhases), ph.toNat = p.val →
      let x := s.drive d
      (x.phases.getLsbD p.val = true →
        exec (.step ph) s = .next ((s.setDrive d { x with phases := 1#4 <<< p.val }).respond (okResponse 0) .none)) ∧
      (x.phases.getLsbD p.val = false →
        exec (.step ph) s = .next ((s.setDrive d { x with
          phases := 1#4 <<< p.val, last := p, half := moveHead x.half (stepDelta p x.last) }).respond
            (okResponse 0) .none)))

/-- R195, R200: STEP. -/
def Obligations.StepForwardsPhase : Prop :=
  ∀ (ph : Byte) (s : State),
    encode (.step ph) = 0xA800 ||| ph.setWidth 16 ∧
    (3 < ph.toNat → exec (.step ph) s = .next (s.respond (raisedResponse .ppPhaseRange) .none)) ∧
    (ph.toNat ≤ 3 → s.ctl.sel = none → exec (.step ph) s = .next (s.respond (okResponse 0) .none)) ∧
    (∀ d, ph.toNat ≤ 3 → s.ctl.sel = some d →
      ∃ t, exec (.step ph) s = .next t ∧ exec (.dstep d (1#4 <<< ph.toNat)) s = .next t)

/-- R196, R227: INSERT, its checks in order; the image leaves the host's hands (R265), which the model shows by an empty
place in its store (log entry 8). What follows a name the host has no image under is the model's choice: refused when a
drive holds that image (log entry 9), else answered as an image of the wrong length (log entry 6). -/
def Obligations.InsertAttachesImage : Prop :=
  ∀ (i : Byte) (s : State),
    encode (.insert i) = 0xB000 ||| i.setWidth 16 ∧
    (1 < i.toNat → exec (.insert i) s = .next (s.respond (raisedResponse .ppDriveRange) .none)) ∧
    (∀ d, i = (if d = DriveId.d0 then 0 else 1) →
      ((s.drive d).img ≠ none → exec (.insert i) s = .next (s.respond (raisedResponse .ppSlotOccupied) .none)) ∧
      (∀ name h, (s.drive d).img = none → s.sideIn = .image name → s.store[name]? = some (some h) →
        (h.len ≠ (if h.layout = .sector then 143360 else 232960) →
          exec (.insert i) s = .next (s.respond (raisedResponse .ppBadImage) .none)) ∧
        (h.len = (if h.layout = .sector then 143360 else 232960) →
          exec (.insert i) s =
            .next ({ s.setDrive d { s.drive d with
                img := some { name := name, layout := h.layout, ro := h.ro, mem := h.mem } } with
              store := s.store.set name none }.respond (okResponse 0) .none))) ∧
      (∀ name, (s.drive d).img = none → s.sideIn = .image name → s.store[name]? = some none →
        ((∃ e k, (s.drive e).img = some k ∧ k.name = name) → exec (.insert i) s = .refused .sharedImage) ∧
        ((∀ e k, (s.drive e).img = some k → k.name ≠ name) →
          exec (.insert i) s = .next (s.respond (raisedResponse .ppBadImage) .none))) ∧
      ((s.drive d).img = none → (∀ name, s.sideIn = .image name → s.store[name]? = none) →
        exec (.insert i) s = .next (s.respond (raisedResponse .ppBadImage) .none)))

/-- R197, R64, R265: EJECT: the buffer flushed and dropped, the image given back as the flush left it, to its place in the
host's store (log entry 8). -/
def Obligations.EjectDetachesImage : Prop :=
  ∀ (i : Byte) (s : State),
    encode (.eject i) = 0xB800 ||| i.setWidth 16 ∧
    (1 < i.toNat → exec (.eject i) s = .next (s.respond (raisedResponse .ppDriveRange) .none)) ∧
    (∀ d, i = (if d = DriveId.d0 then 0 else 1) →
      ((s.drive d).img = none → exec (.eject i) s = .next (s.respond (okResponse 0) .none)) ∧
      (∀ k, (s.drive d).img = some k →
        ∃ k', (s.drive d).flush.1.img = some k' ∧ k'.name = k.name ∧ k'.layout = k.layout ∧ k'.ro = k.ro ∧
          exec (.eject i) s =
            .next ({ s.setDrive d { (s.drive d).flush.1 with tb := none, img := none } with
              store := s.store.set k.name
                (some { layout := k.layout, ro := k.ro, len := k.layout.bytes, mem := k'.mem }) }.respond
              (flushResponse (s.drive d).flush.2) .none)))

/-- R196, R197: an image inserted and ejected again comes back as it was. -/
def Obligations.EjectUndoesInsert : Prop :=
  ∀ (i : Byte) (d : DriveId) (s t u : State), s.Inv → driveIndex i = some d → (s.drive d).img = none →
    exec (.insert i) s = .next t → t.resp.status = .ok → exec (.eject i) t = .next u →
    u = s.respond (okResponse 0) .none

/-- R198, R200: ISWP; what it says of the draw holds for every floating value (log entry 3). -/
def Obligations.IswpSensesSelected : Prop :=
  ∀ s : State,
    encode .iswp = 0xC000 ∧
    (s.ctl.sel = none → exec .iswp s =
      .next ({ s with draws := s.draws + 1 }.respond (okResponse (Config.freeByte s.draws)) .none)) ∧
    (∀ d, s.ctl.sel = some d →
      ∃ v : Byte, exec .iswp s = .next (s.respond (okResponse v) .none) ∧ exec (.diswp d) s = exec .iswp s ∧
        (v = if (s.drive d).wp then 1 else 0))

/-- R199: RDSTAT with the default parameter; and for either value of STATUS_CLEAR_ON_READ. -/
def Obligations.RdstatReadsStatus : Prop :=
  ∀ s : State,
    encode .rdstat = 0xC800 ∧
    exec .rdstat s = .next (s.respond (okResponse (if s.ctl.pstat then 1 else 0)) .none) ∧
    s.readStatus false = s.respond (okResponse (if s.ctl.pstat then 1 else 0)) .none ∧
    s.readStatus true =
      { s with ctl := { s.ctl with pstat := false } }.respond (okResponse (if s.ctl.pstat then 1 else 0)) .none
end

