-- ==== Sys2Proof/Laws/Memory.lean ====
section
/-! SUPPORT. The laws of the image memories: a read after a write, the canonical form and the bounds kept by every
operation (`20_memory.md`). -/

namespace Sys2Proof.Machine

theorem Memory.lookup_filter (m : Memory) (p : Nat → Bool) (x : Nat) :
    (m.filter fun c => p c.1).lookup x = if p x then m.lookup x else none := by
  induction m with
  | nil => simp
  | cons c m ih =>
    obtain ⟨k, b⟩ := c
    by_cases hk : x = k
    · subst hk
      cases hp : p x <;> simp [hp] at ih ⊢
      exact ih
    · have hb : (x == k) = false := by simpa using hk
      by_cases hp : p k <;> simp [List.lookup_cons, hp, hb, ih]

theorem Memory.lookup_cellsFrom (a : Nat) (v : List Byte) (x : Nat) :
    ((Memory.cellsFrom a v).lookup x).getD Memory.unlisted = if a ≤ x then v.getD (x - a) Memory.unlisted
      else Memory.unlisted := by
  induction v generalizing a with
  | nil => simp [Memory.cellsFrom]
  | cons b v ih =>
    have step : ((Memory.cellsFrom (a + 1) v).lookup x).getD Memory.unlisted
        = if a + 1 ≤ x then v.getD (x - (a + 1)) Memory.unlisted else Memory.unlisted := ih (a + 1)
    rcases Nat.lt_trichotomy x a with h | h | h
    · have h1 : ¬ a ≤ x := by omega
      have h2 : ¬ a + 1 ≤ x := by omega
      have h3 : (x == a) = false := by simp; omega
      rw [if_neg h2] at step
      rw [if_neg h1]
      simp only [Memory.cellsFrom]
      split
      · exact step
      · rw [List.lookup_cons, h3]; exact step
    · subst h
      simp only [Memory.cellsFrom]
      split <;> simp_all
    · have h1 : a ≤ x := by omega
      have h2 : a + 1 ≤ x := by omega
      have h3 : (x == a) = false := by simp; omega
      have h4 : x - a = (x - (a + 1)) + 1 := by omega
      rw [if_pos h2] at step
      rw [if_pos h1, h4, List.getD_cons_succ]
      simp only [Memory.cellsFrom]
      split
      · exact step
      · rw [List.lookup_cons, h3]; exact step

theorem Memory.lookup_cellsFrom_outside (a : Nat) (v : List Byte) (x : Nat) (h : x < a ∨ a + v.length ≤ x) :
    (Memory.cellsFrom a v).lookup x = none := by
  induction v generalizing a with
  | nil => rfl
  | cons b v ih =>
    have hv : (Memory.cellsFrom (a + 1) v).lookup x = none := ih (a + 1) (by simp at h; omega)
    have hx : (x == a) = false := by simp at h ⊢; omega
    simp only [Memory.cellsFrom]
    split <;> simp [List.lookup_cons, hx, hv]

/-- A read after a block write: the byte written inside the block, the byte before outside it. -/
theorem Memory.read_writeBlock (m : Memory) (a : Nat) (v : List Byte) (x : Nat) :
    (m.writeBlock a v).read x =
      if a ≤ x ∧ x < a + v.length then v.getD (x - a) Memory.unlisted else m.read x := by
  have hb := Memory.lookup_filter m (fun k => decide (k < a)) x
  have ha := Memory.lookup_filter m (fun k => decide (a + v.length ≤ k)) x
  simp only [decide_eq_true_eq] at hb ha
  unfold Memory.writeBlock Memory.read
  rw [List.lookup_append, List.lookup_append, hb, ha]
  by_cases h1 : x < a
  · have h2 : ¬ (a ≤ x ∧ x < a + v.length) := by omega
    have h3 : ¬ a + v.length ≤ x := by omega
    simp [h1, h2, h3, Memory.lookup_cellsFrom_outside a v x (Or.inl h1)]
  · by_cases h2 : a + v.length ≤ x
    · have h3 : ¬ (a ≤ x ∧ x < a + v.length) := by omega
      simp [h1, h2, h3, Memory.lookup_cellsFrom_outside a v x (Or.inr h2)]
    · have h3 : a ≤ x ∧ x < a + v.length := by omega
      simpa [h1, h2, h3] using Memory.lookup_cellsFrom a v x

theorem Memory.cellsFrom_bounds (a : Nat) (v : List Byte) :
    ∀ c ∈ Memory.cellsFrom a v, a ≤ c.1 ∧ c.1 < a + v.length ∧ c.2 ≠ Memory.unlisted := by
  induction v generalizing a with
  | nil => simp [Memory.cellsFrom]
  | cons b v ih =>
    intro c hc
    simp only [Memory.cellsFrom] at hc
    have later : c ∈ Memory.cellsFrom (a + 1) v → a ≤ c.1 ∧ c.1 < a + (b :: v).length ∧ c.2 ≠ Memory.unlisted := by
      intro hc
      obtain ⟨h1, h2, h3⟩ := ih (a + 1) c hc
      exact ⟨by omega, by simp only [List.length_cons]; omega, h3⟩
    split at hc
    · exact later hc
    · rcases List.mem_cons.mp hc with rfl | hc
      · simp_all
      · exact later hc

theorem Memory.cellsFrom_sorted (a : Nat) (v : List Byte) :
    (Memory.cellsFrom a v).Pairwise fun c d => c.1 < d.1 := by
  induction v generalizing a with
  | nil => exact List.Pairwise.nil
  | cons b v ih =>
    simp only [Memory.cellsFrom]
    split
    · exact ih (a + 1)
    · exact List.Pairwise.cons (fun d hd => by have := Memory.cellsFrom_bounds (a + 1) v d hd; simp; omega) (ih (a + 1))

/-- A block write keeps the canonical form. -/
theorem Memory.wf_writeBlock {m : Memory} (hm : m.wf) (a : Nat) (v : List Byte) : (m.writeBlock a v).wf := by
  refine ⟨?_, ?_⟩
  · unfold Memory.writeBlock
    rw [List.pairwise_append, List.pairwise_append]
    refine ⟨⟨hm.1.filter _, Memory.cellsFrom_sorted a v, ?_⟩, hm.1.filter _, ?_⟩
    · intro c hc d hd
      have h1 := (List.mem_filter.mp hc).2
      have h2 := Memory.cellsFrom_bounds a v d hd
      simp at h1
      omega
    · intro c hc d hd
      have h2 := (List.mem_filter.mp hd).2
      simp at h2
      rcases List.mem_append.mp hc with hc | hc
      · have h1 := (List.mem_filter.mp hc).2
        simp at h1
        omega
      · have h1 := Memory.cellsFrom_bounds a v c hc
        omega
  · intro c hc
    rcases List.mem_append.mp hc with hc | hc
    · rcases List.mem_append.mp hc with hc | hc
      · exact hm.2 c (List.mem_filter.mp hc).1
      · exact (Memory.cellsFrom_bounds a v c hc).2.2
    · exact hm.2 c (List.mem_filter.mp hc).1

/-- A block write inside a space keeps every listed offset inside it. -/
theorem Memory.within_writeBlock {m : Memory} {len : Nat} (hm : m.within len) (a : Nat) (v : List Byte)
    (h : a + v.length ≤ len) : (m.writeBlock a v).within len := by
  intro c hc
  rcases List.mem_append.mp hc with hc | hc
  · rcases List.mem_append.mp hc with hc | hc
    · exact hm c (List.mem_filter.mp hc).1
    · have := Memory.cellsFrom_bounds a v c hc
      omega
  · exact hm c (List.mem_filter.mp hc).1

theorem Memory.wf_nil : Memory.wf [] := ⟨List.Pairwise.nil, by simp⟩

@[simp] theorem Memory.read_nil (x : Nat) : Memory.read [] x = Memory.unlisted := rfl

@[simp] theorem Memory.getElem_readBlock (m : Memory) (a n i : Nat) (h : i < n) :
    (m.readBlock a n)[i] = m.read (a + i) := by
  simp [Memory.readBlock]

/-- Two canonical memories that read alike everywhere are equal. -/
theorem Memory.ext {m m' : Memory} (hm : m.wf) (hm' : m'.wf) (h : ∀ x, m.read x = m'.read x) : m = m' := by
  induction m generalizing m' with
  | nil =>
    cases m' with
    | nil => rfl
    | cons c t =>
      have := h c.1
      obtain ⟨k, b⟩ := c
      have hb := hm'.2 (k, b) (by simp)
      simp [Memory.read] at this
      exact absurd this.symm hb
  | cons c t ih =>
    obtain ⟨k, b⟩ := c
    have hb := hm.2 (k, b) (by simp)
    have below : ∀ (u : Memory) (n : Nat), (∀ d ∈ u, n < d.1) → u.read n = Memory.unlisted := by
      intro u n hu
      have : u.lookup n = none := by
        rw [List.lookup_eq_none_iff]
        intro d hd
        have := hu d hd
        simp
        omega
      simp [Memory.read, this]
    have tail : ∀ {u : Memory} {n : Nat} {e : Byte}, Memory.wf ((n, e) :: u) → Memory.wf u ∧ ∀ d ∈ u, n < d.1 := by
      intro u n e hu
      have h1 := List.pairwise_cons.mp hu.1
      exact ⟨⟨h1.2, fun d hd => hu.2 d (List.mem_cons_of_mem _ hd)⟩, h1.1⟩
    cases m' with
    | nil =>
      have := h k
      simp [Memory.read] at this
      exact absurd this hb
    | cons c' t' =>
      obtain ⟨k', b'⟩ := c'
      have hb' := hm'.2 (k', b') (by simp)
      obtain ⟨wt, lt⟩ := tail hm
      obtain ⟨wt', lt'⟩ := tail hm'
      have head : ∀ (n : Nat) (e : Byte) (u : Memory), Memory.read ((n, e) :: u) n = e := by
        intro n e u
        simp [Memory.read]
      have skip : ∀ (n x : Nat) (e : Byte) (u : Memory), x ≠ n → Memory.read ((n, e) :: u) x = Memory.read u x := by
        intro n x e u hx
        have : (x == n) = false := by simpa using hx
        simp [Memory.read, List.lookup_cons, this]
      have hk : k = k' := by
        rcases Nat.lt_trichotomy k k' with hlt | heq | hgt
        · have h1 := h k
          rw [head, skip k' k b' t' (by omega), below t' k (fun d hd => by have := lt' d hd; omega)] at h1
          exact absurd h1 hb
        · exact heq
        · have h1 := h k'
          rw [head, skip k k' b t (by omega), below t k' (fun d hd => by have := lt d hd; omega)] at h1
          exact absurd h1.symm hb'
      subst hk
      have hbb : b = b' := by
        have h1 := h k
        rwa [head, head] at h1
      subst hbb
      congr 1
      apply ih wt wt'
      intro x
      by_cases hx : x = k
      · subst hx
        rw [below t x lt, below t' x lt']
      · have h1 := h x
        rwa [skip k x b t hx, skip k x b t' hx] at h1

end Sys2Proof.Machine
end

