-- ==== Sys2Proof/Laws/State.lean ====
section
/-! SUPPORT. One lemma per field per update of the state, so that no later proof unfolds a record update. -/

namespace Sys2Proof.Machine

@[simp] theorem driveOther_driveOther (d : DriveId) : driveOther (driveOther d) = d := by cases d <;> rfl
@[simp] theorem driveOther_ne (d : DriveId) : driveOther d ≠ d := by cases d <;> decide
@[simp] theorem ne_driveOther (d : DriveId) : d ≠ driveOther d := by cases d <;> decide

theorem eq_driveOther_of_ne {d e : DriveId} (h : e ≠ d) : e = driveOther d := by
  cases d <;> cases e <;> simp_all [driveOther]

@[simp] theorem State.drive_d0 (s : State) : s.drive .d0 = s.drive0 := rfl
@[simp] theorem State.drive_d1 (s : State) : s.drive .d1 = s.drive1 := rfl

section setDrive
variable (s : State) (d : DriveId) (x y : Drive)

@[simp] theorem State.setDrive_drive_same : (s.setDrive d x).drive d = x := by cases d <;> rfl
@[simp] theorem State.setDrive_drive_other : (s.setDrive d x).drive (driveOther d) = s.drive (driveOther d) := by
  cases d <;> rfl
@[simp] theorem State.setDrive_other_drive : (s.setDrive (driveOther d) x).drive d = s.drive d := by cases d <;> rfl
@[simp] theorem State.setDrive_ctl : (s.setDrive d x).ctl = s.ctl := by cases d <;> rfl
@[simp] theorem State.setDrive_store : (s.setDrive d x).store = s.store := by cases d <;> rfl
@[simp] theorem State.setDrive_queue : (s.setDrive d x).queue = s.queue := by cases d <;> rfl
@[simp] theorem State.setDrive_sideIn : (s.setDrive d x).sideIn = s.sideIn := by cases d <;> rfl
@[simp] theorem State.setDrive_resp : (s.setDrive d x).resp = s.resp := by cases d <;> rfl
@[simp] theorem State.setDrive_sideOut : (s.setDrive d x).sideOut = s.sideOut := by cases d <;> rfl
@[simp] theorem State.setDrive_draws : (s.setDrive d x).draws = s.draws := by cases d <;> rfl
@[simp] theorem State.setDrive_self : s.setDrive d (s.drive d) = s := by cases d <;> rfl
@[simp] theorem State.setDrive_setDrive : (s.setDrive d x).setDrive d y = s.setDrive d y := by cases d <;> rfl

/-- A drive after a drive is written: the one written, or as before. -/
theorem State.setDrive_drive (e : DriveId) :
    (s.setDrive d x).drive e = if e = d then x else s.drive e := by
  cases d <;> cases e <;> rfl

end setDrive

section respond
variable (s : State) (r : Response) (out : SideResult)

@[simp] theorem State.respond_ctl : (s.respond r out).ctl = s.ctl := rfl
@[simp] theorem State.respond_drive0 : (s.respond r out).drive0 = s.drive0 := rfl
@[simp] theorem State.respond_drive1 : (s.respond r out).drive1 = s.drive1 := rfl
@[simp] theorem State.respond_drive (d : DriveId) : (s.respond r out).drive d = s.drive d := by cases d <;> rfl
@[simp] theorem State.respond_store : (s.respond r out).store = s.store := rfl
@[simp] theorem State.respond_queue : (s.respond r out).queue = s.queue := rfl
@[simp] theorem State.respond_sideIn : (s.respond r out).sideIn = s.sideIn := rfl
@[simp] theorem State.respond_resp : (s.respond r out).resp = r := rfl
@[simp] theorem State.respond_sideOut : (s.respond r out).sideOut = out := rfl
@[simp] theorem State.respond_draws : (s.respond r out).draws = s.draws := rfl

end respond

section reply
variable (s : State) (v : Byte) (f : BitVec 16) (c : Status)

@[simp] theorem State.reply_ctl : (s.reply v f).ctl = s.ctl := rfl
@[simp] theorem State.reply_drive0 : (s.reply v f).drive0 = s.drive0 := rfl
@[simp] theorem State.reply_drive1 : (s.reply v f).drive1 = s.drive1 := rfl
@[simp] theorem State.reply_drive (d : DriveId) : (s.reply v f).drive d = s.drive d := by cases d <;> rfl
@[simp] theorem State.reply_store : (s.reply v f).store = s.store := rfl
@[simp] theorem State.reply_queue : (s.reply v f).queue = s.queue := rfl
@[simp] theorem State.reply_sideIn : (s.reply v f).sideIn = s.sideIn := rfl
@[simp] theorem State.reply_resp : (s.reply v f).resp = { status := failStatus f, value := v, fail := f } := rfl
@[simp] theorem State.reply_sideOut : (s.reply v f).sideOut = .none := rfl
@[simp] theorem State.reply_draws : (s.reply v f).draws = s.draws := rfl

@[simp] theorem State.raise_ctl : (s.raise c).ctl = s.ctl := rfl
@[simp] theorem State.raise_drive0 : (s.raise c).drive0 = s.drive0 := rfl
@[simp] theorem State.raise_drive1 : (s.raise c).drive1 = s.drive1 := rfl
@[simp] theorem State.raise_drive (d : DriveId) : (s.raise c).drive d = s.drive d := by cases d <;> rfl
@[simp] theorem State.raise_store : (s.raise c).store = s.store := rfl
@[simp] theorem State.raise_queue : (s.raise c).queue = s.queue := rfl
@[simp] theorem State.raise_sideIn : (s.raise c).sideIn = s.sideIn := rfl
@[simp] theorem State.raise_resp : (s.raise c).resp = { status := c, value := 0, fail := 0 } := rfl
@[simp] theorem State.raise_sideOut : (s.raise c).sideOut = .none := rfl
@[simp] theorem State.raise_draws : (s.raise c).draws = s.draws := rfl

@[simp] theorem State.replyDraw_ctl : s.replyDraw.ctl = s.ctl := rfl
@[simp] theorem State.replyDraw_drive0 : s.replyDraw.drive0 = s.drive0 := rfl
@[simp] theorem State.replyDraw_drive1 : s.replyDraw.drive1 = s.drive1 := rfl
@[simp] theorem State.replyDraw_drive (d : DriveId) : s.replyDraw.drive d = s.drive d := by cases d <;> rfl
@[simp] theorem State.replyDraw_store : s.replyDraw.store = s.store := rfl
@[simp] theorem State.replyDraw_queue : s.replyDraw.queue = s.queue := rfl
@[simp] theorem State.replyDraw_sideIn : s.replyDraw.sideIn = s.sideIn := rfl
@[simp] theorem State.replyDraw_resp :
    s.replyDraw.resp = { status := .ok, value := Config.freeByte s.draws, fail := 0 } := rfl
@[simp] theorem State.replyDraw_sideOut : s.replyDraw.sideOut = .none := rfl
@[simp] theorem State.replyDraw_draws : s.replyDraw.draws = s.draws + 1 := rfl

end reply

section setProtStatus
variable (s : State) (v : Bool)

@[simp] theorem State.setProtStatus_ctl : (s.setProtStatus v).ctl = { s.ctl with pstat := v } := rfl
@[simp] theorem State.setProtStatus_drive0 : (s.setProtStatus v).drive0 = s.drive0 := rfl
@[simp] theorem State.setProtStatus_drive1 : (s.setProtStatus v).drive1 = s.drive1 := rfl
@[simp] theorem State.setProtStatus_drive (d : DriveId) : (s.setProtStatus v).drive d = s.drive d := by
  cases d <;> rfl
@[simp] theorem State.setProtStatus_store : (s.setProtStatus v).store = s.store := rfl
@[simp] theorem State.setProtStatus_queue : (s.setProtStatus v).queue = s.queue := rfl
@[simp] theorem State.setProtStatus_sideIn : (s.setProtStatus v).sideIn = s.sideIn := rfl
@[simp] theorem State.setProtStatus_draws : (s.setProtStatus v).draws = s.draws := rfl

end setProtStatus

section issue
variable (s : State) (c : Command) (rest : List Command)

@[simp] theorem State.issue_ctl : (s.issue c rest).ctl = s.ctl := rfl
@[simp] theorem State.issue_drive0 : (s.issue c rest).drive0 = s.drive0 := rfl
@[simp] theorem State.issue_drive1 : (s.issue c rest).drive1 = s.drive1 := rfl
@[simp] theorem State.issue_drive (d : DriveId) : (s.issue c rest).drive d = s.drive d := by cases d <;> rfl
@[simp] theorem State.issue_store : (s.issue c rest).store = s.store := rfl
@[simp] theorem State.issue_queue : (s.issue c rest).queue = rest := rfl
@[simp] theorem State.issue_sideIn : (s.issue c rest).sideIn = c.side := rfl
@[simp] theorem State.issue_draws : (s.issue c rest).draws = s.draws := rfl

end issue

section attach
variable (s : State) (d : DriveId) (name : Nat) (h : HostImage)

@[simp] theorem State.attach_ctl : (s.attach d name h).ctl = s.ctl := by cases d <;> rfl
@[simp] theorem State.attach_drive_same :
    (s.attach d name h).drive d = { s.drive d with img := some (h.attached name) } := by cases d <;> rfl
@[simp] theorem State.attach_drive_other : (s.attach d name h).drive (driveOther d) = s.drive (driveOther d) := by
  cases d <;> rfl
@[simp] theorem State.attach_store : (s.attach d name h).store = s.store.set name none := by cases d <;> rfl
@[simp] theorem State.attach_queue : (s.attach d name h).queue = s.queue := by cases d <;> rfl
@[simp] theorem State.attach_sideIn : (s.attach d name h).sideIn = s.sideIn := by cases d <;> rfl
@[simp] theorem State.attach_draws : (s.attach d name h).draws = s.draws := by cases d <;> rfl

@[simp] theorem State.detach_ctl : (s.detach d).1.ctl = s.ctl := by cases d <;> rfl
@[simp] theorem State.detach_drive_same :
    (s.detach d).1.drive d = { (s.drive d).unload.1 with img := none } := by cases d <;> rfl
@[simp] theorem State.detach_drive_other : (s.detach d).1.drive (driveOther d) = s.drive (driveOther d) := by
  cases d <;> rfl
@[simp] theorem State.detach_queue : (s.detach d).1.queue = s.queue := by cases d <;> rfl
@[simp] theorem State.detach_sideIn : (s.detach d).1.sideIn = s.sideIn := by cases d <;> rfl
@[simp] theorem State.detach_draws : (s.detach d).1.draws = s.draws := by cases d <;> rfl
@[simp] theorem State.detach_fail : (s.detach d).2 = (s.drive d).unload.2 := rfl

end attach

section draw
variable (s : State)

@[simp] theorem State.draw_value : s.draw.1 = Config.freeByte s.draws := rfl
@[simp] theorem State.draw_ctl : s.draw.2.ctl = s.ctl := rfl
@[simp] theorem State.draw_drive (d : DriveId) : s.draw.2.drive d = s.drive d := by cases d <;> rfl
@[simp] theorem State.draw_store : s.draw.2.store = s.store := rfl
@[simp] theorem State.draw_queue : s.draw.2.queue = s.queue := rfl
@[simp] theorem State.draw_sideIn : s.draw.2.sideIn = s.sideIn := rfl
@[simp] theorem State.draw_draws : s.draw.2.draws = s.draws + 1 := rfl

end draw

section select
variable (s : State) (d : DriveId)

@[simp] theorem State.deselectAll_ctl :
    s.deselectAll.ctl = { s.ctl with sel := none, wmode := false, pstat := false } := rfl
@[simp] theorem State.deselectAll_drive : s.deselectAll.drive d = ((s.drive d).enable false).1 := by cases d <;> rfl
@[simp] theorem State.deselectAll_store : s.deselectAll.store = s.store := rfl
@[simp] theorem State.deselectAll_queue : s.deselectAll.queue = s.queue := rfl
@[simp] theorem State.deselectAll_sideIn : s.deselectAll.sideIn = s.sideIn := rfl
@[simp] theorem State.deselectAll_draws : s.deselectAll.draws = s.draws := rfl

@[simp] theorem State.switchTo_ctl : (s.switchTo d).ctl = { s.ctl with sel := some d } := rfl
@[simp] theorem State.switchTo_drive_same : (s.switchTo d).drive d = ((s.drive d).enable true).1 := by cases d <;> rfl
@[simp] theorem State.switchTo_drive_other :
    (s.switchTo d).drive (driveOther d) = ((s.drive (driveOther d)).enable false).1 := by cases d <;> rfl
@[simp] theorem State.switchTo_store : (s.switchTo d).store = s.store := by cases d <;> rfl
@[simp] theorem State.switchTo_queue : (s.switchTo d).queue = s.queue := by cases d <;> rfl
@[simp] theorem State.switchTo_sideIn : (s.switchTo d).sideIn = s.sideIn := by cases d <;> rfl
@[simp] theorem State.switchTo_draws : (s.switchTo d).draws = s.draws := by cases d <;> rfl

end select

end Sys2Proof.Machine
end

