-- ==== Sys2Proof/Laws/Drive.lean ====
section
/-! SUPPORT. What the shared operations on one drive can do: flush, unload, load, byte read, byte write, step, motor
(`41_track_buffer.md`, `42_drive_mechanism.md`), and that each keeps a sound drive sound. -/

namespace Sys2Proof.Machine

section disk
variable (k : Disk) (t : Fin Config.nTracks)

@[simp] theorem Disk.writeSector_layout (l : Fin Config.nSectors) (data : Sector) :
    (k.writeSector t l data).layout = k.layout := rfl
@[simp] theorem Disk.writeSector_ro (l : Fin Config.nSectors) (data : Sector) :
    (k.writeSector t l data).ro = k.ro := rfl
@[simp] theorem Disk.writeSector_name (l : Fin Config.nSectors) (data : Sector) :
    (k.writeSector t l data).name = k.name := rfl

/-- What the write-back of any list of sectors leaves alone, and that it keeps the memory sound. -/
theorem Disk.foldl_writeSector (res : Vector (Option Sector) Config.nSectors) (ls : List (Fin Config.nSectors)) :
    let k' := ls.foldl (fun k l =>
      match res[l] with
      | some data => k.writeSector t l data
      | none => k) k
    k'.layout = k.layout ∧ k'.ro = k.ro ∧ k'.name = k.name ∧ (k.mem.wf → k'.mem.wf) ∧
      (k.mem.within Config.imageBytesSector → k'.mem.within Config.imageBytesSector) := by
  induction ls generalizing k with
  | nil => simp
  | cons l ls ih =>
    simp only [List.foldl_cons]
    cases h : res[l] with
    | none => exact ih k
    | some data =>
      obtain ⟨h1, h2, h3, h4, h5⟩ := ih (k.writeSector t l data)
      refine ⟨h1, h2, h3, fun hk => h4 (Memory.wf_writeBlock hk _ _), fun hk => h5 (Memory.within_writeBlock hk _ _ ?_)⟩
      have ht := t.isLt
      have hl := l.isLt
      simp only [Vector.length_toList, Config.sectorBytes, Config.imageBytesSector, Config.nTracks,
        Config.nSectors] at *
      omega

@[simp] theorem Disk.writeSectors_layout (res : Vector (Option Sector) Config.nSectors) :
    (k.writeSectors t res).layout = k.layout := (Disk.foldl_writeSector k t res _).1
@[simp] theorem Disk.writeSectors_ro (res : Vector (Option Sector) Config.nSectors) :
    (k.writeSectors t res).ro = k.ro := (Disk.foldl_writeSector k t res _).2.1
@[simp] theorem Disk.writeSectors_name (res : Vector (Option Sector) Config.nSectors) :
    (k.writeSectors t res).name = k.name := (Disk.foldl_writeSector k t res _).2.2.1

/-- One byte after one sector is written. -/
theorem Disk.read_writeSector (l : Fin Config.nSectors) (data : Sector) (x : Nat) :
    (k.writeSector t l data).mem.read x =
      if x / 256 = t.val * 16 + l.val then data.toList.getD (x % 256) Memory.unlisted else k.mem.read x := by
  simp only [Disk.writeSector, Memory.read_writeBlock, Vector.length_toList, Config.sectorBytes]
  by_cases h : x / 256 = t.val * 16 + l.val
  · rw [if_pos h, if_pos (by omega)]
    congr 1
    omega
  · rw [if_neg h, if_neg (by omega)]

/-- One byte after the write-back of a list of distinct sectors: a decoded sector of the list has its new bytes, every
other byte is as before. -/
theorem Disk.read_foldl_writeSector (res : Vector (Option Sector) Config.nSectors) (ls : List (Fin Config.nSectors))
    (hnd : ls.Nodup) (x : Nat) :
    (ls.foldl (fun k l =>
      match res[l] with
      | some data => k.writeSector t l data
      | none => k) k).mem.read x =
      match ls.find? (fun l => x / 256 = t.val * 16 + l.val) with
      | some l =>
        match res[l] with
        | some data => data.toList.getD (x % 256) Memory.unlisted
        | none => k.mem.read x
      | none => k.mem.read x := by
  induction ls generalizing k with
  | nil => rfl
  | cons l ls ih =>
    obtain ⟨hl, hnd⟩ := List.nodup_cons.mp hnd
    simp only [List.foldl_cons]
    rw [ih _ hnd]
    by_cases hx : x / 256 = t.val * 16 + l.val
    · have hrest : ls.find? (fun m => x / 256 = t.val * 16 + m.val) = none := by
        rw [List.find?_eq_none]
        intro m hm hmx
        simp only [decide_eq_true_eq] at hmx
        exact hl ((Fin.ext (by omega) : l = m) ▸ hm)
      rw [hrest, List.find?_cons_of_pos (by simpa using hx)]
      cases h : res[l] with
      | none => simp only [h]
      | some data => simp only [h, Disk.read_writeSector, if_pos hx]
    · rw [List.find?_cons_of_neg (by simpa using hx)]
      cases h : res[l] with
      | none => rfl
      | some data => simp only [Disk.read_writeSector, if_neg hx]

/-- One byte after the write-back of a track (R153, R67). -/
theorem Disk.read_writeSectors (res : Vector (Option Sector) Config.nSectors) (x : Nat) :
    (k.writeSectors t res).mem.read x =
      match (List.finRange Config.nSectors).find? (fun l => x / 256 = t.val * 16 + l.val) with
      | some l =>
        match res[l] with
        | some data => data.toList.getD (x % 256) Memory.unlisted
        | none => k.mem.read x
      | none => k.mem.read x :=
  Disk.read_foldl_writeSector k t res _ (List.nodup_finRange _) x

variable (tb : TrackBuffer)

@[simp] theorem Disk.writeBack_layout : (k.writeBack tb).1.layout = k.layout := by
  unfold Disk.writeBack; split <;> simp
@[simp] theorem Disk.writeBack_ro : (k.writeBack tb).1.ro = k.ro := by
  unfold Disk.writeBack; split <;> simp
@[simp] theorem Disk.writeBack_name : (k.writeBack tb).1.name = k.name := by
  unfold Disk.writeBack; split <;> simp

theorem Disk.writeBack_sector {k : Disk} (hl : k.layout = .sector) (tb : TrackBuffer) :
    k.writeBack tb = (k.writeSectors tb.track (scan tb.buf.toArray tb.track),
      failMask (scan tb.buf.toArray tb.track)) := by
  simp [Disk.writeBack, hl]

theorem Disk.writeBack_nibble {k : Disk} (hl : k.layout = .nibble) (tb : TrackBuffer) :
    k.writeBack tb =
      ({ k with mem := k.mem.writeBlock (tb.track.val * Config.trackNibLen) tb.buf.toList }, 0) := by
  simp [Disk.writeBack, hl]

/-- The write-back of sectors keeps a memory in its canonical form and inside a SECTOR image. -/
theorem Disk.writeSectors_sound (res : Vector (Option Sector) Config.nSectors) (hw : k.mem.wf)
    (hb : k.mem.within Config.imageBytesSector) :
    (k.writeSectors t res).mem.wf ∧ (k.writeSectors t res).mem.within Config.imageBytesSector := by
  have h := (Disk.foldl_writeSector k t res (List.finRange Config.nSectors)).2.2.2
  exact ⟨h.1 hw, h.2 hb⟩

/-- The write-back keeps an attached image sound. -/
theorem Disk.writeBack_ok {k : Disk} (hk : k.ok) (tb : TrackBuffer) : (k.writeBack tb).1.ok := by
  obtain ⟨hw, hb⟩ := hk
  cases hl : k.layout with
  | sector =>
    rw [hl] at hb
    have h := Disk.writeSectors_sound k tb.track (scan tb.buf.toArray tb.track) hw hb
    rw [Disk.writeBack_sector hl]
    exact ⟨h.1, by rw [Disk.writeSectors_layout, hl]; exact h.2⟩
  | nibble =>
    rw [hl] at hb
    have h := Memory.within_writeBlock hb (tb.track.val * Config.trackNibLen) tb.buf.toList (by
      have ht := tb.track.isLt
      rw [Vector.length_toList]
      simp only [Config.trackNibLen, Config.nTracks, Layout.bytes, Config.imageBytesNibble] at ht ⊢
      omega)
    rw [Disk.writeBack_nibble hl]
    exact ⟨Memory.wf_writeBlock hw _ _, by rw [hl]; exact h⟩

end disk

/-- Everything a flush can do (R153). -/
theorem Drive.flush_cases (x : Drive) :
    x.flush = (x, 0) ∨
    ∃ tb k, x.tb = some tb ∧ x.img = some k ∧ tb.dirty = true ∧
      x.flush = ({ x with img := some (k.writeBack tb).1, tb := some { tb with dirty := false } },
        (k.writeBack tb).2) := by
  unfold Drive.flush
  split
  · next tb k htb hk =>
    split
    · next hd => exact Or.inr ⟨tb, k, htb, hk, hd, rfl⟩
    · exact Or.inl rfl
  · exact Or.inl rfl

/-- A flush of a clean buffer, or of none, does nothing (R157). -/
theorem Drive.flush_clean {x : Drive} (h : ∀ tb, x.tb = some tb → tb.dirty = false) : x.flush = (x, 0) := by
  rcases x.flush_cases with h' | ⟨tb, _, htb, _, hd, _⟩
  · exact h'
  · simp [h tb htb] at hd

section flush
variable (x : Drive)

@[simp] theorem Drive.flush_half : x.flush.1.half = x.half := by
  rcases x.flush_cases with h | ⟨_, _, _, _, _, h⟩ <;> rw [h]
@[simp] theorem Drive.flush_phases : x.flush.1.phases = x.phases := by
  rcases x.flush_cases with h | ⟨_, _, _, _, _, h⟩ <;> rw [h]
@[simp] theorem Drive.flush_last : x.flush.1.last = x.last := by
  rcases x.flush_cases with h | ⟨_, _, _, _, _, h⟩ <;> rw [h]
@[simp] theorem Drive.flush_motor : x.flush.1.motor = x.motor := by
  rcases x.flush_cases with h | ⟨_, _, _, _, _, h⟩ <;> rw [h]
@[simp] theorem Drive.flush_light : x.flush.1.light = x.light := by
  rcases x.flush_cases with h | ⟨_, _, _, _, _, h⟩ <;> rw [h]
@[simp] theorem Drive.flush_wpo : x.flush.1.wpo = x.wpo := by
  rcases x.flush_cases with h | ⟨_, _, _, _, _, h⟩ <;> rw [h]
@[simp] theorem Drive.flush_img_isSome : x.flush.1.img.isSome = x.img.isSome := by
  rcases x.flush_cases with h | ⟨_, _, _, hk, _, h⟩ <;> rw [h]
  simp [hk]
@[simp] theorem Drive.flush_tb_isSome : x.flush.1.tb.isSome = x.tb.isSome := by
  rcases x.flush_cases with h | ⟨_, _, ht, _, _, h⟩ <;> rw [h]
  simp [ht]

/-- The image after a flush, field by field. -/
theorem Drive.flush_img {k : Disk} (hk : x.img = some k) :
    ∃ k', x.flush.1.img = some k' ∧ k'.name = k.name ∧ k'.layout = k.layout ∧ k'.ro = k.ro ∧ (k.ok → k'.ok) := by
  rcases x.flush_cases with h | ⟨tb, k0, _, hk0, _, h⟩
  · exact ⟨k, by rw [h]; exact hk, rfl, rfl, rfl, id⟩
  · obtain rfl : k0 = k := by simpa [hk0] using hk
    exact ⟨_, by rw [h], by simp, by simp, by simp, fun ho => Disk.writeBack_ok ho tb⟩

@[simp] theorem Drive.unload_half : x.unload.1.half = x.half := by simp [Drive.unload]
@[simp] theorem Drive.unload_phases : x.unload.1.phases = x.phases := by simp [Drive.unload]
@[simp] theorem Drive.unload_last : x.unload.1.last = x.last := by simp [Drive.unload]
@[simp] theorem Drive.unload_motor : x.unload.1.motor = x.motor := by simp [Drive.unload]
@[simp] theorem Drive.unload_light : x.unload.1.light = x.light := by simp [Drive.unload]
@[simp] theorem Drive.unload_wpo : x.unload.1.wpo = x.wpo := by simp [Drive.unload]
@[simp] theorem Drive.unload_tb : x.unload.1.tb = none := rfl
@[simp] theorem Drive.unload_img : x.unload.1.img = x.flush.1.img := rfl
@[simp] theorem Drive.unload_fail : x.unload.2 = x.flush.2 := rfl

end flush

/-- Everything a load can do (R150). -/
theorem Drive.load_cases (x : Drive) :
    (x.img = none ∧ x.load = (x, 0)) ∨
    ∃ k, x.img.isSome = true ∧ x.flush.1.img = some k ∧
      x.load = ({ x.flush.1 with tb := some (k.freshBuffer x.half) }, x.flush.2) := by
  unfold Drive.load
  split
  · next h => exact Or.inl ⟨h, rfl⟩
  · next k h =>
    obtain ⟨k', hk', _⟩ := x.flush_img h
    exact Or.inr ⟨k', by simp [h], hk', by simp [hk']⟩

/-- The lazy load (R155): an image and no buffer gives the track under the head, clean, at the load cursor. -/
theorem Drive.ensureLoaded_none {x : Drive} {k : Disk} (hk : x.img = some k) (ht : x.tb = none) :
    x.ensureLoaded = { x with tb := some (k.freshBuffer x.half) } := by
  have hf : x.flush = (x, 0) := Drive.flush_clean (by simp [ht])
  simp [Drive.ensureLoaded, ht, Drive.load, hk, hf]

theorem Drive.ensureLoaded_some {x : Drive} {tb : TrackBuffer} (ht : x.tb = some tb) : x.ensureLoaded = x := by
  simp [Drive.ensureLoaded, ht]

/-- The buffer a byte access of a drive with an image works on (R155). -/
def Drive.accessed (x : Drive) (k : Disk) : TrackBuffer :=
  x.tb.getD (k.freshBuffer x.half)

theorem Drive.ensureLoaded_eq {x : Drive} {k : Disk} (hk : x.img = some k) :
    x.ensureLoaded = { x with tb := some (x.accessed k) } := by
  cases ht : x.tb with
  | none => simp [Drive.ensureLoaded_none hk ht, Drive.accessed, ht]
  | some tb =>
    rw [Drive.ensureLoaded_some ht]
    cases x
    simp_all [Drive.accessed]

/-- Everything a byte read can do (R151). -/
theorem Drive.readByte_none {x : Drive} (hk : x.img = none) : x.readByte = (Config.noDiskSentinel, x) := by
  simp [Drive.readByte, hk]

theorem Drive.readByte_some {x : Drive} {k : Disk} (hk : x.img = some k) :
    x.readByte = ((x.accessed k).buf[(x.accessed k).cur],
      { x with tb := some { x.accessed k with cur := nextCursor (x.accessed k).cur } }) := by
  simp [Drive.readByte, hk, Drive.ensureLoaded_eq hk]

/-- Everything a byte write can do (R152). -/
theorem Drive.writeByte_none {x : Drive} (hk : x.img = none) (w : Bool) (b : Byte) : x.writeByte w b = x := by
  simp [Drive.writeByte, hk]

theorem Drive.writeByte_readMode (x : Drive) (b : Byte) : x.writeByte false b = x := by
  unfold Drive.writeByte; split <;> simp

theorem Drive.writeByte_protected {x : Drive} {k : Disk} (hk : x.img = some k) (hp : x.wp = true) (b : Byte) :
    x.writeByte true b =
      { x with tb := some { x.accessed k with cur := nextCursor (x.accessed k).cur } } := by
  simp [Drive.writeByte, hk, Drive.ensureLoaded_eq hk, hp]

theorem Drive.writeByte_stored {x : Drive} {k : Disk} (hk : x.img = some k) (hp : x.wp = false) (b : Byte) :
    x.writeByte true b =
      { x with tb := some { x.accessed k with
          buf := (x.accessed k).buf.set (x.accessed k).cur b
          cur := nextCursor (x.accessed k).cur
          dirty := true } } := by
  simp [Drive.writeByte, hk, Drive.ensureLoaded_eq hk, hp]

/-- What one energized line steps to (R195, R170): nothing new when it was on already, else its own phase. -/
theorem newPhase_oneLine : ∀ (p : Fin Config.nPhases) (phases : BitVec 4),
    newPhase (1#4 <<< p.val) phases = if phases.getLsbD p.val then none else some p := by
  decide

/-- Everything a step can do (R170): no new line, a step within the track, or a step that unloads. -/
theorem Drive.step_cases (x : Drive) (m : BitVec 4) :
    (newPhase m x.phases = none ∧ x.step m = ({ x with phases := m }, 0)) ∨
    ∃ p, newPhase m x.phases = some p ∧
      let y := { x with phases := m, last := p, half := moveHead x.half (stepDelta p x.last) }
      (y.half = x.half ∨ y.trackChanged y.half = false) ∧ x.step m = (y, 0) ∨
      (y.half ≠ x.half ∧ y.trackChanged y.half = true) ∧ x.step m = y.unload := by
  unfold Drive.step
  cases hp : newPhase m x.phases with
  | none => exact Or.inl ⟨rfl, rfl⟩
  | some p =>
    refine Or.inr ⟨p, rfl, ?_⟩
    simp only
    split
    · next h => exact Or.inr ⟨h, rfl⟩
    · next h =>
      refine Or.inl ⟨?_, rfl⟩
      rcases not_and_or.mp h with h | h
      · exact Or.inl (not_not.mp h)
      · exact Or.inr (by simpa using h)

section step
variable (x : Drive) (m : BitVec 4)

@[simp] theorem Drive.step_phases : (x.step m).1.phases = m := by
  rcases x.step_cases m with ⟨_, h⟩ | ⟨_, _, ⟨_, h⟩ | ⟨_, h⟩⟩ <;> simp [h]
@[simp] theorem Drive.step_motor : (x.step m).1.motor = x.motor := by
  rcases x.step_cases m with ⟨_, h⟩ | ⟨_, _, ⟨_, h⟩ | ⟨_, h⟩⟩ <;> simp [h]
@[simp] theorem Drive.step_light : (x.step m).1.light = x.light := by
  rcases x.step_cases m with ⟨_, h⟩ | ⟨_, _, ⟨_, h⟩ | ⟨_, h⟩⟩ <;> simp [h]
@[simp] theorem Drive.step_wpo : (x.step m).1.wpo = x.wpo := by
  rcases x.step_cases m with ⟨_, h⟩ | ⟨_, _, ⟨_, h⟩ | ⟨_, h⟩⟩ <;> simp [h]

end step

/-- The motor on (R174). -/
theorem Drive.enable_true (x : Drive) : x.enable true = ({ x with motor := true, light := true }, 0) := rfl

/-- The motor off (R174). -/
theorem Drive.enable_false (x : Drive) :
    x.enable false = ({ x.unload.1 with motor := false, light := false }, x.flush.2) := rfl

/-- The head stays within its range and moves by at most one (R172). -/
theorem moveHead_val (h : Fin Config.nHalf) (delta : Int) :
    ((moveHead h delta).val : Int) = max 0 (min 69 ((h.val : Int) + delta)) := by
  have hh := h.isLt
  simp only [Config.nHalf] at hh
  unfold moveHead
  simp only [Config.nHalf]
  split
  · simp; omega
  · split
    · simp; omega
    · have : ((69 : Fin Config.nHalf).val : Int) = 69 := rfl
      simp only [Config.nHalf] at this
      rw [this]; omega

section image
variable (x : Drive)

/-- No operation on a drive but INSERT and EJECT changes which image is attached (R31). -/
theorem Drive.flush_name : x.flush.1.img.map Disk.name = x.img.map Disk.name := by
  rcases x.flush_cases with h | ⟨_, _, _, hk, _, h⟩ <;> rw [h]
  simp [hk]

theorem Drive.load_name : x.load.1.img.map Disk.name = x.img.map Disk.name := by
  rcases x.load_cases with ⟨_, h⟩ | ⟨_, _, _, h⟩ <;> rw [h]
  exact x.flush_name

theorem Drive.readByte_img : x.readByte.2.img = x.img := by
  cases hk : x.img with
  | none => rw [Drive.readByte_none hk]; exact hk
  | some k => rw [Drive.readByte_some hk]; exact hk

theorem Drive.writeByte_img (w : Bool) (b : Byte) : (x.writeByte w b).img = x.img := by
  cases hk : x.img with
  | none => rw [Drive.writeByte_none hk]; exact hk
  | some k =>
    cases w with
    | false => rw [Drive.writeByte_readMode]; exact hk
    | true =>
      cases hp : x.wp with
      | true => rw [Drive.writeByte_protected hk hp]; exact hk
      | false => rw [Drive.writeByte_stored hk hp]; exact hk

theorem Drive.step_name (m : BitVec 4) : (x.step m).1.img.map Disk.name = x.img.map Disk.name := by
  rcases x.step_cases m with ⟨_, h⟩ | ⟨p, _, ⟨_, h⟩ | ⟨_, h⟩⟩ <;> rw [h]
  exact Drive.flush_name { x with phases := m, last := p, half := moveHead x.half (stepDelta p x.last) }

theorem Drive.enable_name (e : Bool) : (x.enable e).1.img.map Disk.name = x.img.map Disk.name := by
  cases e with
  | true => rfl
  | false => exact x.flush_name

end image

section sound

theorem Drive.ok_powerOn : Drive.powerOn.ok := by
  simp [Drive.ok, Drive.powerOn]

theorem Drive.flush_ok {x : Drive} (hx : x.ok) : x.flush.1.ok := by
  rcases x.flush_cases with h | ⟨tb, k, htb, hk, _, h⟩
  · rw [h]; exact hx
  · rw [h]
    refine ⟨by simp, ?_, ?_⟩
    · rintro _ ⟨⟩
      exact hx.2.1 tb htb
    · rintro _ ⟨⟩
      exact Disk.writeBack_ok (hx.2.2 k hk) tb

theorem Drive.unload_ok {x : Drive} (hx : x.ok) : x.unload.1.ok :=
  ⟨by simp, by simp, (Drive.flush_ok hx).2.2⟩

/-- A drive with a buffer of the track under the head and its image is sound. -/
theorem Drive.withBuffer_ok {x : Drive} {k : Disk} (hx : x.ok) (hk : x.img = some k) (tb : TrackBuffer)
    (ht : tb.track = wholeTrack x.half) : Drive.ok { x with tb := some tb } :=
  ⟨by simp [hk], by rintro _ ⟨⟩; exact ht, hx.2.2⟩

theorem Drive.accessed_track {x : Drive} (hx : x.ok) (k : Disk) : (x.accessed k).track = wholeTrack x.half := by
  unfold Drive.accessed
  cases ht : x.tb with
  | none => rfl
  | some tb => exact hx.2.1 tb ht

theorem Drive.load_ok {x : Drive} (hx : x.ok) : x.load.1.ok := by
  rcases x.load_cases with ⟨_, h⟩ | ⟨k, _, hk, h⟩
  · rw [h]; exact hx
  · rw [h]
    exact Drive.withBuffer_ok (Drive.flush_ok hx) hk _ (by simp [Disk.freshBuffer])

theorem Drive.readByte_ok {x : Drive} (hx : x.ok) : x.readByte.2.ok := by
  cases hk : x.img with
  | none => rw [Drive.readByte_none hk]; exact hx
  | some k => rw [Drive.readByte_some hk]; exact Drive.withBuffer_ok hx hk _ (Drive.accessed_track hx k)

theorem Drive.writeByte_ok {x : Drive} (hx : x.ok) (w : Bool) (b : Byte) : (x.writeByte w b).ok := by
  cases hk : x.img with
  | none => rw [Drive.writeByte_none hk]; exact hx
  | some k =>
    cases w with
    | false => rw [Drive.writeByte_readMode]; exact hx
    | true =>
      cases hp : x.wp with
      | true => rw [Drive.writeByte_protected hk hp]; exact Drive.withBuffer_ok hx hk _ (Drive.accessed_track hx k)
      | false => rw [Drive.writeByte_stored hk hp]; exact Drive.withBuffer_ok hx hk _ (Drive.accessed_track hx k)

theorem Drive.step_ok {x : Drive} (hx : x.ok) (m : BitVec 4) : (x.step m).1.ok := by
  rcases x.step_cases m with ⟨_, h⟩ | ⟨p, _, ⟨hc, h⟩ | ⟨_, h⟩⟩
  · rw [h]; exact hx
  · rw [h]
    refine ⟨hx.1, ?_, hx.2.2⟩
    intro tb ht
    rcases hc with hc | hc
    · exact (hx.2.1 tb ht).trans (congrArg wholeTrack hc.symm)
    · have ht : x.tb = some tb := ht
      simpa [Drive.trackChanged, ht] using hc
  · rw [h]
    refine ⟨by simp, by simp, ?_⟩
    intro k hk
    simp only [Drive.unload_img] at hk
    rcases Drive.flush_cases { x with phases := m, last := p, half := moveHead x.half (stepDelta p x.last) } with
      h' | ⟨tb, k0, _, hk0, _, h'⟩
    · rw [h'] at hk; exact hx.2.2 k hk
    · rw [h'] at hk
      obtain rfl := Option.some.inj hk
      exact Disk.writeBack_ok (hx.2.2 k0 hk0) tb

theorem Drive.enable_ok {x : Drive} (hx : x.ok) (e : Bool) : (x.enable e).1.ok := by
  cases e with
  | true => exact hx
  | false => exact ⟨by simp [Drive.enable_false], by simp [Drive.enable_false], (Drive.unload_ok hx).2.2⟩

end sound

end Sys2Proof.Machine
end

