-- ==== Sys2Proof/Laws/Exec.lean ====
section
/-! SUPPORT. Everything one operation can do, said once: INSERT and EJECT by cases, and `exec` as an effect on the state
followed by a response. Statements over all operations are proved from `exec_effect` instead of unfolding `exec`. -/

namespace Sys2Proof.Machine

/-- The outcomes are told apart by their states. -/
theorem next_inj {s t : State} (h : (Host.Outcome.next s : Host.Outcome State Fault Refusal) = .next t) : s = t := by
  injection h

theorem driveIndex_of_gt {i : Byte} (h : 1 < i.toNat) : driveIndex i = none := by
  unfold driveIndex
  rw [if_neg, if_neg] <;> (rintro rfl; revert h; decide)

theorem failStatus_not_precondition (f : BitVec 16) : (failStatus f).isPrecondition = false := by
  unfold failStatus; split <;> rfl

/-- An image is held when some drive has it attached under that name (R256). -/
theorem State.holds_iff (s : State) (name : Nat) :
    s.holds name = true ↔ ∃ d k, (s.drive d).img = some k ∧ k.name = name := by
  have one : ∀ x : Drive, x.holds name = true ↔ ∃ k, x.img = some k ∧ k.name = name := by
    intro x
    unfold Drive.holds
    cases x.img <;> simp
  rw [State.holds, Bool.or_eq_true, one, one]
  constructor
  · rintro (h | h)
    · exact ⟨.d0, h⟩
    · exact ⟨.d1, h⟩
  · rintro ⟨d, h⟩
    cases d
    · exact Or.inl h
    · exact Or.inr h

/-- Everything INSERT can do (R196, R227). -/
theorem execInsert_cases (i : Byte) (s : State) :
    (∃ c, execInsert i s = .next (s.raise c) ∧ c.isPrecondition = true) ∨
    (∃ d name, driveIndex i = some d ∧ (s.drive d).img = none ∧ s.sideIn = .image name ∧
      s.store[name]? = some none ∧ (∃ e k, (s.drive e).img = some k ∧ k.name = name) ∧
      execInsert i s = .refused .sharedImage) ∨
    ∃ d name h, driveIndex i = some d ∧ (s.drive d).img = none ∧ s.sideIn = .image name ∧
      s.store[name]? = some (some h) ∧ h.len = h.layout.bytes ∧
      execInsert i s = .next ((s.attach d name h).reply 0 0) := by
  unfold execInsert
  cases hd : driveIndex i with
  | none => exact Or.inl ⟨_, rfl, rfl⟩
  | some d =>
    simp only
    split
    · exact Or.inl ⟨_, rfl, rfl⟩
    · next hn =>
      have hn' : (s.drive d).img = none := by simpa using hn
      unfold State.imageOperand
      cases hs : s.sideIn with
      | none => exact Or.inl ⟨_, rfl, rfl⟩
      | bytes b => exact Or.inl ⟨_, rfl, rfl⟩
      | image name =>
        cases hst : s.store[name]? with
        | none => simp only [hst]; exact Or.inl ⟨_, rfl, rfl⟩
        | some o =>
          cases o with
          | none =>
            simp only [hst]
            by_cases hh : s.holds name = true
            · exact Or.inr (Or.inl ⟨d, name, rfl, hn', rfl, hst, (s.holds_iff name).mp hh, by simp [hh]⟩)
            · exact Or.inl ⟨.ppBadImage, by simp [hh], rfl⟩
          | some h =>
            simp only [hst]
            by_cases hl : h.len = h.layout.bytes
            · exact Or.inr (Or.inr ⟨d, name, h, rfl, hn', rfl, hst, hl, by simp [hl]⟩)
            · exact Or.inl ⟨.ppBadImage, by simp [hl], rfl⟩

/-- Everything EJECT can do (R197). -/
theorem execEject_cases (i : Byte) (s : State) :
    execEject i s = .next (s.raise .ppDriveRange) ∨
    (∃ d, driveIndex i = some d ∧ (s.drive d).img = none ∧ execEject i s = .next (s.reply 0 0)) ∨
    ∃ d k, driveIndex i = some d ∧ (s.drive d).img = some k ∧
      execEject i s = .next ((s.detach d).1.reply 0 (s.detach d).2) := by
  unfold execEject
  cases hd : driveIndex i with
  | none => exact Or.inl rfl
  | some d =>
    simp only
    cases hk : (s.drive d).img with
    | none => exact Or.inr (Or.inl ⟨d, rfl, hk, rfl⟩)
    | some k => exact Or.inr (Or.inr ⟨d, k, rfl, hk, rfl⟩)

/-- What an operation can do to one drive and to nothing else but the response: the drive after it. -/
inductive DriveEffect (s : State) : Instr → DriveId → Drive → Prop where
  | load (d : DriveId) : DriveEffect s (.tbload d) d (s.drive d).load.1
  | read (d : DriveId) : DriveEffect s (.tbread d) d (s.drive d).readByte.2
  | readSelected (d : DriveId) : s.ctl.sel = some d → s.ctl.wmode = false →
      DriveEffect s .rwbyte d (s.drive d).readByte.2
  | write (d : DriveId) (b : Byte) : DriveEffect s (.tbwrite d b) d ((s.drive d).writeByte s.ctl.wmode b)
  | flush (d : DriveId) : DriveEffect s (.tbflush d) d (s.drive d).flush.1
  | step (d : DriveId) (m : BitVec 4) : DriveEffect s (.dstep d m) d ((s.drive d).step m).1
  | stepSelected (d : DriveId) (ph : Byte) (m : BitVec 4) : s.ctl.sel = some d → phaseMask ph = some m →
      DriveEffect s (.step ph) d ((s.drive d).step m).1
  | enable (d : DriveId) (e : Bool) : DriveEffect s (.dsel d e) d ((s.drive d).enable e).1
  | override (d : DriveId) (v : Bool) : DriveEffect s (.dsetwpo d v) d { s.drive d with wpo := v }

/-- What an operation can do to the state before it responds. -/
inductive Effect (s : State) : Instr → State → Prop where
  | quiet (i : Instr) : Effect s i s
  | drive (i : Instr) (d : DriveId) (x : Drive) : DriveEffect s i d x → Effect s i (s.setDrive d x)
  | mode (e : Bool) : Effect s (.setwm e) { s with ctl := { s.ctl with wmode := e } }
  | latch (b : Byte) : Effect s (.ldlatch b) { s with ctl := { s.ctl with latch := b } }
  | drawByte : s.ctl.sel = none → Effect s .rwbyte s.draw.2
  | drawSense : s.ctl.sel = none → Effect s .iswp s.draw.2
  | commit (d : DriveId) : s.ctl.sel = some d → s.ctl.wmode = true → Effect s .rwbyte (s.commitLatch d).draw.2
  | reset : Effect s .reset s.deselectAll
  | select (i : Byte) (d : DriveId) : driveIndex i = some d → Effect s (.select i) (s.switchTo d)
  | insert (i : Byte) (d : DriveId) (name : Nat) (h : HostImage) : driveIndex i = some d → (s.drive d).img = none →
      s.sideIn = .image name → s.store[name]? = some (some h) → h.len = h.layout.bytes →
      Effect s (.insert i) (s.attach d name h)
  | eject (i : Byte) (d : DriveId) (k : Disk) : driveIndex i = some d → (s.drive d).img = some k →
      Effect s (.eject i) (s.detach d).1

/-- The commit of RWBYTE, field by field (R194). -/
theorem State.commitLatch_eq (s : State) (d : DriveId) :
    s.commitLatch d =
      { s.setDrive d ((s.drive d).writeByte s.ctl.wmode s.ctl.latch) with
        ctl := { s.ctl with pstat := s.ctl.pstat || ((s.drive d).img.isSome && (s.drive d).wp) } } := by
  cases s with
  | mk ctl a b =>
    cases ctl
    cases d
    · cases hi : a.img.isSome <;> cases hp : a.wp <;>
        simp [State.commitLatch, State.setDrive, State.setProtStatus, State.drive, hi, hp]
    · cases hi : b.img.isSome <;> cases hp : b.wp <;>
        simp [State.commitLatch, State.setDrive, State.setProtStatus, State.drive, hi, hp]

/-- A drive with a dirty buffer over a SECTOR image: the one place a flush can fail in (R222). -/
def State.DirtySector (s : State) (d : DriveId) : Prop :=
  ∃ k tb, (s.drive d).img = some k ∧ k.layout = .sector ∧ (s.drive d).tb = some tb ∧ tb.dirty = true

/-- The answer that goes with an effect: a raise with none (R221); a value and a failure mask, which is 0 unless the
operation flushed a dirty buffer over a SECTOR image (R222); the results of the codec (R120, R121). -/
inductive Answer (s : State) (i : Instr) : State → Response → SideResult → Prop where
  | raised (c : Status) : c.isPrecondition = true → Answer s i s { status := c, value := 0, fail := 0 } .none
  | done (u : State) (v : Byte) (f : BitVec 16) :
      (f ≠ 0 → Instr.canFlush i = true ∧ ∃ d, s.DirtySector d) →
      Answer s i u { status := failStatus f, value := v, fail := f } .none
  | encoded (t : Byte) (out : SideResult) : i = .cenc t → Answer s i s { status := .ok, value := 0, fail := 0 } out
  | decoded (t : Byte) (f : BitVec 16) (out : SideResult) : i = .cdec t →
      Answer s i s { status := failStatus f, value := 0, fail := f } out

/-- A flush fails only in a dirty buffer over a SECTOR image (R222). -/
theorem Drive.flush_fail {x : Drive} (h : x.flush.2 ≠ 0) :
    ∃ k tb, x.img = some k ∧ k.layout = .sector ∧ x.tb = some tb ∧ tb.dirty = true := by
  rcases x.flush_cases with h' | ⟨tb, k, htb, hk, hd, h'⟩
  · simp [h'] at h
  · refine ⟨k, tb, hk, ?_, htb, hd⟩
    cases hl : k.layout with
    | sector => rfl
    | nibble => simp [h', Disk.writeBack_nibble hl] at h

theorem Drive.load_fail {x : Drive} (h : x.load.2 ≠ 0) : x.flush.2 ≠ 0 := by
  rcases x.load_cases with ⟨_, h'⟩ | ⟨_, _, _, h'⟩ <;> simp_all

theorem Drive.step_fail {x : Drive} {m : BitVec 4} (h : (x.step m).2 ≠ 0) :
    ∃ k tb, x.img = some k ∧ k.layout = .sector ∧ x.tb = some tb ∧ tb.dirty = true := by
  rcases x.step_cases m with ⟨_, h'⟩ | ⟨p, _, ⟨_, h'⟩ | ⟨_, h'⟩⟩
  · simp [h'] at h
  · simp [h'] at h
  · rw [h'] at h
    exact Drive.flush_fail (x := { x with phases := m, last := p, half := moveHead x.half (stepDelta p x.last) }) h

theorem Drive.enable_fail {x : Drive} {e : Bool} (h : (x.enable e).2 ≠ 0) : e = false ∧ x.flush.2 ≠ 0 := by
  cases e with
  | true => simp [Drive.enable_true] at h
  | false => exact ⟨rfl, h⟩

/-- A mask made of two is 0 when both are. -/
theorem mask_or_ne_zero {a b : BitVec 16} (h : a ||| b ≠ 0) : a ≠ 0 ∨ b ≠ 0 := by
  by_contra hc
  obtain ⟨rfl, rfl⟩ : a = 0 ∧ b = 0 := by simpa [not_or] using hc
  exact h (by decide)

/-- Every next state of `exec` is an effect followed by its answer. -/
theorem exec_effect {i : Instr} {s t : State} (h : exec i s = .next t) :
    ∃ u r out, Effect s i u ∧ Answer s i u r out ∧ t = u.respond r out := by
  have quiet : ∀ {f : BitVec 16}, f = 0 → f ≠ 0 → Instr.canFlush i = true ∧ ∃ d, s.DirtySector d :=
    fun h0 hn => absurd h0 hn
  cases i
  case insert n =>
    have h : execInsert n s = .next t := h
    rcases execInsert_cases n s with ⟨c, h', hc⟩ | ⟨_, _, _, _, _, _, _, h'⟩ | ⟨d, name, g, h1, h2, h3, h4, h5, h'⟩ <;>
      rw [h'] at h
    · obtain rfl := next_inj h; exact ⟨_, _, _, .quiet _, .raised c hc, rfl⟩
    · cases h
    · obtain rfl := next_inj h; exact ⟨_, _, _, .insert n d name g h1 h2 h3 h4 h5, .done _ _ _ (quiet rfl), rfl⟩
  case eject n =>
    have h : execEject n s = .next t := h
    rcases execEject_cases n s with h' | ⟨_, _, _, h'⟩ | ⟨d, k, h1, h2, h'⟩ <;>
      (rw [h'] at h; obtain rfl := next_inj h)
    · exact ⟨_, _, _, .quiet _, .raised _ rfl, rfl⟩
    · exact ⟨_, _, _, .quiet _, .done _ _ _ (quiet rfl), rfl⟩
    · exact ⟨_, _, _, .eject n d k h1 h2, .done _ _ _ fun hf => ⟨rfl, d, Drive.flush_fail hf⟩, rfl⟩
  case cenc n =>
    simp only [exec, execCenc] at h
    split at h
    · obtain rfl := next_inj h; exact ⟨_, _, _, .quiet _, .raised _ rfl, rfl⟩
    · split at h <;> obtain rfl := next_inj h
      · exact ⟨_, _, _, .quiet _, .raised _ rfl, rfl⟩
      · exact ⟨_, _, _, .quiet _, .encoded n _ rfl, rfl⟩
  case cdec n =>
    simp only [exec, execCdec] at h
    split at h
    · obtain rfl := next_inj h; exact ⟨_, _, _, .quiet _, .raised _ rfl, rfl⟩
    · split at h <;> obtain rfl := next_inj h
      · exact ⟨_, _, _, .quiet _, .raised _ rfl, rfl⟩
      · exact ⟨_, _, _, .quiet _, .decoded n _ _ rfl, rfl⟩
  case select n =>
    simp only [exec, execSelect] at h
    split at h
    · obtain rfl := next_inj h; exact ⟨_, _, _, .quiet _, .raised _ rfl, rfl⟩
    · next d hd =>
      obtain rfl := next_inj h
      refine ⟨_, _, _, .select n d hd, .done _ _ _ fun hf => ⟨rfl, driveOther d, ?_⟩, rfl⟩
      rcases mask_or_ne_zero hf with hf | hf
      · exact Drive.flush_fail (Drive.enable_fail hf).2
      · cases (Drive.enable_fail hf).1
  case step n =>
    simp only [exec, execStep] at h
    split at h
    · obtain rfl := next_inj h; exact ⟨_, _, _, .quiet _, .raised _ rfl, rfl⟩
    · next m hm =>
      split at h
      · obtain rfl := next_inj h; exact ⟨_, _, _, .quiet _, .done _ _ _ (quiet rfl), rfl⟩
      · next d hs =>
        obtain rfl := next_inj h
        exact ⟨_, _, _, .drive _ _ _ (.stepSelected d n m hs hm), .done _ _ _ fun hf => ⟨rfl, d, Drive.step_fail hf⟩,
          rfl⟩
  case rwbyte =>
    simp only [exec, execRwbyte] at h
    split at h
    · next hs => obtain rfl := next_inj h; exact ⟨_, _, _, .drawByte hs, .done _ _ _ (quiet rfl), rfl⟩
    · next d hs =>
      split at h
      · next hw => obtain rfl := next_inj h; exact ⟨_, _, _, .commit d hs hw, .done _ _ _ (quiet rfl), rfl⟩
      · next hw =>
        obtain rfl := next_inj h
        exact ⟨_, _, _, .drive _ _ _ (.readSelected d hs (by simpa using hw)), .done _ _ _ (quiet rfl), rfl⟩
  case iswp =>
    simp only [exec, execIswp] at h
    split at h
    · next hs => obtain rfl := next_inj h; exact ⟨_, _, _, .drawSense hs, .done _ _ _ (quiet rfl), rfl⟩
    · obtain rfl := next_inj h; exact ⟨_, _, _, .quiet _, .done _ _ _ (quiet rfl), rfl⟩
  case reset =>
    obtain rfl := next_inj h
    refine ⟨_, _, _, .reset, .done _ _ _ fun hf => ⟨rfl, ?_⟩, rfl⟩
    rcases mask_or_ne_zero hf with hf | hf
    · exact ⟨.d0, Drive.flush_fail hf⟩
    · exact ⟨.d1, Drive.flush_fail hf⟩
  case dsel d e =>
    obtain rfl := next_inj h
    refine ⟨_, _, _, .drive _ _ _ (.enable d e), .done _ _ _ fun hf => ?_, rfl⟩
    obtain ⟨rfl, hf⟩ := Drive.enable_fail hf
    exact ⟨rfl, d, Drive.flush_fail hf⟩
  case tbload d =>
    obtain rfl := next_inj h
    exact ⟨_, _, _, .drive _ _ _ (.load d), .done _ _ _ fun hf => ⟨rfl, d, Drive.flush_fail (Drive.load_fail hf)⟩, rfl⟩
  case tbflush d =>
    obtain rfl := next_inj h
    exact ⟨_, _, _, .drive _ _ _ (.flush d), .done _ _ _ fun hf => ⟨rfl, d, Drive.flush_fail hf⟩, rfl⟩
  case dstep d m =>
    obtain rfl := next_inj h
    exact ⟨_, _, _, .drive _ _ _ (.step d m), .done _ _ _ fun hf => ⟨rfl, d, Drive.step_fail hf⟩, rfl⟩
  case diswp d => obtain rfl := next_inj h; exact ⟨_, _, _, .quiet _, .done _ _ _ (quiet rfl), rfl⟩
  case rdstat => obtain rfl := next_inj h; exact ⟨_, _, _, .quiet _, .done _ _ _ (quiet rfl), rfl⟩
  case setwm e => obtain rfl := next_inj h; exact ⟨_, _, _, .mode e, .done _ _ _ (quiet rfl), rfl⟩
  case ldlatch b => obtain rfl := next_inj h; exact ⟨_, _, _, .latch b, .done _ _ _ (quiet rfl), rfl⟩
  case tbread d => obtain rfl := next_inj h; exact ⟨_, _, _, .drive _ _ _ (.read d), .done _ _ _ (quiet rfl), rfl⟩
  case tbwrite d b => obtain rfl := next_inj h; exact ⟨_, _, _, .drive _ _ _ (.write d b), .done _ _ _ (quiet rfl), rfl⟩
  case dsetwpo d v =>
    obtain rfl := next_inj h; exact ⟨_, _, _, .drive _ _ _ (.override d v), .done _ _ _ (quiet rfl), rfl⟩

/-- A property of both drives, from the one an operation names and the other. -/
theorem forall_drive {P : DriveId → Prop} (d : DriveId) (h : P d) (h' : P (driveOther d)) : ∀ e, P e := by
  intro e
  by_cases he : e = d
  · exact he ▸ h
  · exact eq_driveOther_of_ne he ▸ h'

/-- Every effect on one drive keeps it sound. -/
theorem DriveEffect.ok {s : State} {i : Instr} {d : DriveId} {x : Drive} (h : DriveEffect s i d x)
    (hs : (s.drive d).ok) : x.ok := by
  cases h with
  | load => exact Drive.load_ok hs
  | read => exact Drive.readByte_ok hs
  | readSelected _ _ => exact Drive.readByte_ok hs
  | write => exact Drive.writeByte_ok hs _ _
  | flush => exact Drive.flush_ok hs
  | step => exact Drive.step_ok hs _
  | stepSelected _ _ => exact Drive.step_ok hs _
  | enable => exact Drive.enable_ok hs _
  | override => exact hs

/-- Every effect on one drive keeps its image attached. -/
theorem DriveEffect.name {s : State} {i : Instr} {d : DriveId} {x : Drive} (h : DriveEffect s i d x) :
    x.img.map Disk.name = (s.drive d).img.map Disk.name := by
  cases h with
  | load => exact Drive.load_name _
  | read => rw [Drive.readByte_img]
  | readSelected _ _ => rw [Drive.readByte_img]
  | write => rw [Drive.writeByte_img]
  | flush => exact Drive.flush_name _
  | step => exact Drive.step_name _ _
  | stepSelected _ _ => exact Drive.step_name _ _
  | enable => exact Drive.enable_name _ _
  | override => rfl

/-- One place for every image, carried to a state with the same images attached and in the host's hands. -/
theorem State.imagesApart_congr {s t : State} (h : s.imagesApart) (hs : t.store = s.store)
    (hn : ∀ d, (t.drive d).img.map Disk.name = (s.drive d).img.map Disk.name) : t.imagesApart := by
  have key : ∀ d k, (t.drive d).img = some k → ∃ k', (s.drive d).img = some k' ∧ k'.name = k.name := by
    intro d k hk
    have := hn d
    rw [hk] at this
    cases hx : (s.drive d).img with
    | none => simp [hx] at this
    | some k' =>
      simp [hx] at this
      exact ⟨k', rfl, this.symm⟩
  refine ⟨fun d k hk => ?_, fun k0 k1 h0 h1 => ?_⟩
  · obtain ⟨k', hk', he⟩ := key d k hk
    rw [hs, ← he]
    exact h.1 d k' hk'
  · obtain ⟨a, ha, ea⟩ := key .d0 k0 h0
    obtain ⟨b, hb, eb⟩ := key .d1 k1 h1
    rw [← ea, ← eb]
    exact h.2 a b ha hb

/-- The same of the empty places: all of them those of attached images (R265). -/
theorem State.placesHeld_congr {s t : State} (h : s.placesHeld) (hs : t.store = s.store)
    (hn : ∀ d, (t.drive d).img.map Disk.name = (s.drive d).img.map Disk.name) : t.placesHeld := by
  intro name hst
  obtain ⟨d, k, hk, he⟩ := h name (hs ▸ hst)
  have hd := hn d
  rw [hk] at hd
  obtain ⟨k', h1, h2⟩ := Option.map_eq_some_iff.mp hd
  exact ⟨d, k', h1, h2.trans he⟩

/-- The commit of RWBYTE changes the drives as the byte write does. -/
theorem State.commitLatch_draw_drive (s : State) (d e : DriveId) :
    (s.commitLatch d).draw.2.drive e =
      (s.setDrive d ((s.drive d).writeByte s.ctl.wmode s.ctl.latch)).drive e := by
  rw [State.commitLatch_eq]
  cases e <;> rfl

/-- An operation answers a next state, or it is the INSERT of an image that a drive holds already (R256). -/
theorem exec_next_or_shared (i : Instr) (s : State) :
    (∃ t, exec i s = .next t) ∨
    ∃ n d name, i = .insert n ∧ driveIndex n = some d ∧ (s.drive d).img = none ∧ s.sideIn = .image name ∧
      s.store[name]? = some none ∧ (∃ e k, (s.drive e).img = some k ∧ k.name = name) ∧
      exec i s = .refused .sharedImage := by
  cases i
  case insert n =>
    rcases execInsert_cases n s with ⟨c, h, _⟩ | ⟨d, name, h1, h2, h3, h4, h5, h⟩ | ⟨_, _, _, _, _, _, _, _, h⟩
    · exact Or.inl ⟨_, h⟩
    · exact Or.inr ⟨n, d, name, rfl, h1, h2, h3, h4, h5, h⟩
    · exact Or.inl ⟨_, h⟩
  case eject n => rcases execEject_cases n s with h | ⟨_, _, _, h⟩ | ⟨_, _, _, _, h⟩ <;> exact Or.inl ⟨_, h⟩
  case cenc t => left; simp only [exec, execCenc]; split; exact ⟨_, rfl⟩; split <;> exact ⟨_, rfl⟩
  case cdec t => left; simp only [exec, execCdec]; split; exact ⟨_, rfl⟩; split <;> exact ⟨_, rfl⟩
  case select t => left; simp only [exec, execSelect]; split <;> exact ⟨_, rfl⟩
  case rwbyte => left; simp only [exec, execRwbyte]; split <;> exact ⟨_, rfl⟩
  case iswp => left; simp only [exec, execIswp]; split <;> exact ⟨_, rfl⟩
  case step t => left; simp only [exec, execStep]; split; exact ⟨_, rfl⟩; split <;> exact ⟨_, rfl⟩
  all_goals exact Or.inl ⟨_, rfl⟩

end Sys2Proof.Machine
end

