-- ==== Sys2Proof/Laws/Format.lean ====
section
/-! SUPPORT. The small laws of the codes (`30_encoding.md` Part B): each inverse, the chain undone, the byte 0xD5 in no
code's output, every byte of a track in its frame, the circular index. -/

namespace Sys2Proof.Machine

theorem rev2_rev2 (x : BitVec 2) : rev2 (rev2 x) = x := by revert x; decide

theorem unnib62_nib62 (x : Six) : unnib62 (nib62 x) = some x := by revert x; decide

theorem nib62_ne_D5 (x : Six) : nib62 x ≠ 0xD5 := by revert x; decide

theorem or_AA_ne_D5 (x : Byte) : x ||| 0xAA ≠ 0xD5 := by revert x; decide

theorem enc44_ne_D5 (v : Byte) : ∀ b ∈ enc44 v, b ≠ 0xD5 := by
  intro b hb
  rcases List.mem_cons.mp hb with rfl | hb
  · exact or_AA_ne_D5 _
  · rcases List.mem_cons.mp hb with rfl | hb
    · exact or_AA_ne_D5 _
    · cases hb

/-- The chain is undone (R99). -/
theorem unchain_chain (prev : Six) (vs : List Six) : unchain prev (chain prev vs) = some vs := by
  induction vs generalizing prev with
  | nil => simp [chain, unchain, unnib62_nib62]
  | cons v vs ih =>
    have hx : v ^^^ prev ^^^ prev = v := by rw [BitVec.xor_assoc, BitVec.xor_self, BitVec.xor_zero]
    have hne : chain v vs ≠ [] := by cases vs <;> simp [chain]
    obtain ⟨c, cs, hc⟩ := List.exists_cons_of_ne_nil hne
    have := ih v
    rw [hc] at this
    simp [chain, hc, unchain, unnib62_nib62, hx, this]

/-- A body of alphabet bytes whose checksum holds is undone to its running exclusive ors (R99). -/
theorem unchain_map_nib62 (xs : List Six) (hne : xs ≠ []) (p : Six) (h0 : xs.foldl (· ^^^ ·) p = 0) :
    ∃ vs, unchain p (xs.map nib62) = some vs ∧ vs.length + 1 = xs.length ∧
      ∀ i, i < vs.length → vs[i]? = some ((xs.take (i + 1)).foldl (· ^^^ ·) p) := by
  induction xs generalizing p with
  | nil => exact absurd rfl hne
  | cons x xs ih =>
    cases xs with
    | nil =>
      have h0 : p ^^^ x = 0 := h0
      have hx : x = p := by revert h0; revert x p; decide
      exact ⟨[], by simp [unchain, unnib62_nib62, hx], rfl, fun i hi => absurd hi (by simp)⟩
    | cons y ys =>
      have hf : (y :: ys).foldl (· ^^^ ·) (x ^^^ p) = 0 := by rw [BitVec.xor_comm]; exact h0
      obtain ⟨vs, hv, hl, hg⟩ := ih (by simp) (x ^^^ p) hf
      refine ⟨(x ^^^ p) :: vs, ?_, by simpa using hl, ?_⟩
      · simp only [List.map_cons, unchain, unnib62_nib62] at hv ⊢
        rw [hv]
        rfl
      · intro i hi
        cases i with
        | zero => simp [BitVec.xor_comm]
        | succ i =>
          rw [List.getElem?_cons_succ, hg i (by simpa using hi)]
          simp [BitVec.xor_comm]

theorem chain_ne_D5 (prev : Six) (vs : List Six) : ∀ b ∈ chain prev vs, b ≠ 0xD5 := by
  induction vs generalizing prev with
  | nil => simpa [chain] using nib62_ne_D5 prev
  | cons v vs ih =>
    intro b hb
    rcases List.mem_cons.mp hb with rfl | hb
    · exact nib62_ne_D5 _
    · exact ih v b hb

theorem enc62_length (data : Sector) : (enc62 data).length = 343 := by
  simp [enc62, chain_length, expand_length]

theorem addrField_length (t : Fin Config.nTracks) (p : Fin Config.nSectors) : (addrField t p).length = 14 := by
  simp [addrField, addrPro, epilogue, enc44]

theorem dataField_length (data : Sector) : (dataField data).length = 349 := by
  simp [dataField, dataPro, epilogue, enc62_length]

/-- Element `416 p + o` of the sixteen frames is element `o` of frame `p`. -/
theorem flatMap_getElem?_of_length {α : Type} (f : α → List Byte) (n : Nat) (l : List α)
    (hf : ∀ a, (f a).length = n) (p o : Nat) (ho : o < n) :
    (l.flatMap f)[n * p + o]? = (l[p]?).bind fun a => (f a)[o]? := by
  induction l generalizing p with
  | nil => simp
  | cons a l ih =>
    rw [List.flatMap_cons]
    cases p with
    | zero =>
      have h : n * 0 + o = o := by omega
      rw [h, List.getElem?_append_left (by rw [hf]; exact ho)]
      simp
    | succ p =>
      have h : n * (p + 1) + o = n * p + o + n := by rw [Nat.mul_succ]; omega
      rw [h, List.getElem?_append_right (by rw [hf]; omega), hf, Nat.add_sub_cancel, ih p]
      simp

/-- A byte of an encoded track (R103). -/
theorem trackOf_getElem? (t : Fin Config.nTracks) (trk : Vector Byte Config.trackBytes) (p : Fin Config.nSectors)
    (o : Nat) (ho : o < 416) :
    (trackOf t trk).toList[416 * p.val + o]? = (frameOf t p (sectorOf trk interleave[p]))[o]? := by
  have h := flatMap_getElem?_of_length (fun p => frameOf t p (sectorOf trk interleave[p])) 416
    (List.finRange Config.nSectors) (fun p => frameOf_length t p _) p.val o ho
  have hp : (List.finRange Config.nSectors)[p.val]? = some p := by
    rw [List.getElem?_eq_getElem (by simp)]
    simp
  rw [hp] at h
  simpa [trackOf, trackFrames] using h

/-- A circular index (R121) in range is the index itself. -/
theorem circular_of_lt (buf : Array Byte) (i : Nat) (h : i < buf.size) : circular buf i = buf[i] := by
  have hi : i % buf.size = i := Nat.mod_eq_of_lt h
  simp [circular, hi, Array.getD, h]

theorem circular_add_size (buf : Array Byte) (i : Nat) : circular buf (i + buf.size) = circular buf i := by
  simp [circular]

/-- The scan depends on the stream only through its circular indexing and its length. -/
theorem scan_getElem (buf : Array Byte) (t : Fin Config.nTracks) (l : Fin Config.nSectors) :
    (scan buf t)[l] = ((List.range buf.size).filterMap (pairAt (circular buf) t)).lookup l := by
  simp [scan]

/-- A sector decodes when some start position has its pair and every earlier pair is of another sector. -/
theorem failMask_getLsb (res : Vector (Option Sector) Config.nSectors) (l : Fin Config.nSectors) :
    (failMask res).getLsbD l.val = res[l].isNone := by
  have hl := l.isLt
  simp only [Config.nSectors] at hl
  simp [failMask, hl]

/-- The mask is 0 exactly when every sector decoded. -/
theorem failMask_eq_zero (res : Vector (Option Sector) Config.nSectors) :
    failMask res = 0 ↔ ∀ l : Fin Config.nSectors, res[l].isSome = true := by
  constructor
  · intro h l
    have := failMask_getLsb res l
    rw [h] at this
    cases hr : res[l] <;> simp_all
  · intro h
    apply BitVec.eq_of_getLsbD_eq
    intro i hi
    have := failMask_getLsb res ⟨i, hi⟩
    have h' := h ⟨i, hi⟩
    cases hr : res[(⟨i, hi⟩ : Fin Config.nSectors)] <;> simp_all

/-- The first 86 values are the low pairs (R97). -/
theorem expand_low (data : Sector) (k : Nat) (hk : k < 86) : (expand data)[k]? = some (lowSix data k) := by
  rw [expand, List.getElem?_append_left (by simpa using hk), List.getElem?_map, List.getElem?_range hk]
  rfl

/-- The other 256 values are the high six bits (R97). -/
theorem expand_high (data : Sector) (i : Nat) (hi : i < 256) :
    (expand data)[86 + i]? = some ((data[i] >>> 2).setWidth 6) := by
  rw [expand, List.getElem?_append_right (by simp)]
  simp [hi, Config.sectorBytes]

/-- The three pairs of a six-bit value. -/
theorem lowSix_pair (a b c : BitVec 2) :
    let v : Six := a.setWidth 6 ||| (b.setWidth 6 <<< 2) ||| (c.setWidth 6 <<< 4)
    (v >>> 0).setWidth 2 = a ∧ (v >>> 2).setWidth 2 = b ∧ (v >>> 4).setWidth 2 = c := by
  revert a b c; decide

/-- A byte put together from its high six bits and its exchanged low pair (R99). -/
theorem join_pair (b : Byte) :
    ((((b >>> 2).setWidth 6 : Six).setWidth 8 : Byte) <<< 2) ||| (rev2 (rev2 (b.setWidth 2))).setWidth 8 = b := by
  revert b; decide

/-- The parts of a frame (R102). -/
theorem frameOf_parts (t : Fin Config.nTracks) (p : Fin Config.nSectors) (data : Sector) (o : Nat) :
    (frameOf t p data)[o]? =
      if o < 47 then some 0xFF
      else if o < 61 then (addrField t p)[o - 47]?
      else if o < 67 then some 0xFF
      else (dataField data)[o - 67]? := by
  unfold frameOf
  have h1 : (List.replicate gapA syncByte ++ addrField t p).length = 61 := by simp [gapA, addrField_length]
  have h2 : (List.replicate gapA syncByte ++ addrField t p ++ List.replicate gapB syncByte).length = 67 := by
    simp [gapA, gapB, addrField_length]
  split
  · next h =>
    rw [List.getElem?_append_left (by omega), List.getElem?_append_left (by omega),
      List.getElem?_append_left (by simpa [gapA] using h), List.getElem?_replicate, if_pos h]
    rfl
  · split
    · rw [List.getElem?_append_left (by omega), List.getElem?_append_left (by omega),
        List.getElem?_append_right (by simp [gapA]; omega)]
      simp [gapA]
    · split
      · rw [List.getElem?_append_left (by omega), List.getElem?_append_right (by omega), h1,
          List.getElem?_replicate, if_pos (by simp only [gapB]; omega)]
        rfl
      · rw [List.getElem?_append_right (by omega), h2]

/-- The parts of a data field (R101). -/
theorem dataField_getElem? (data : Sector) (o : Nat) :
    (dataField data)[o]? =
      if o < 3 then dataPro[o]? else if o < 346 then (enc62 data)[o - 3]? else epilogue[o - 346]? := by
  unfold dataField
  have h1 : (dataPro ++ enc62 data).length = 346 := by simp [dataPro, enc62_length]
  split
  · rw [List.getElem?_append_left (by omega), List.getElem?_append_left (by simpa [dataPro])]
  · split
    · rw [List.getElem?_append_left (by omega), List.getElem?_append_right (by simp [dataPro]; omega)]
      simp [dataPro]
    · rw [List.getElem?_append_right (by omega), h1]

theorem addrField_D5 (t : Fin Config.nTracks) (p : Fin Config.nSectors) (o : Nat)
    (h : (addrField t p)[o]? = some 0xD5) : o = 0 := by
  have e := fun v => enc44_ne_D5 v
  simp only [addrField, addrPro, epilogue, enc44, List.cons_append, List.nil_append] at h
  simp only [enc44, List.mem_cons, List.not_mem_nil, or_false, forall_eq_or_imp, forall_eq] at e
  rcases o with _ | _ | _ | _ | _ | _ | _ | _ | _ | _ | _ | _ | _ | _ | o <;>
    simp only [List.getElem?_cons_zero, List.getElem?_cons_succ, List.getElem?_nil, Option.some.injEq,
      reduceCtorEq] at h
  · rfl
  · revert h; decide
  · revert h; decide
  · exact absurd h (e _).1
  · exact absurd h (e _).2
  · exact absurd h (e _).1
  · exact absurd h (e _).2
  · exact absurd h (e _).1
  · exact absurd h (e _).2
  · exact absurd h (e _).1
  · exact absurd h (e _).2
  · revert h; decide
  · revert h; decide
  · revert h; decide

/-- The byte 0xD5 stands in a frame only at the head of its two prologues (R105). -/
theorem frameOf_D5 (t : Fin Config.nTracks) (p : Fin Config.nSectors) (data : Sector) (o : Nat)
    (h : (frameOf t p data)[o]? = some 0xD5) : o = 47 ∨ o = 67 := by
  have ff : (some 0xFF : Option Byte) ≠ some 0xD5 := by decide
  rw [frameOf_parts] at h
  split at h
  · exact absurd h ff
  · split at h
    · have := addrField_D5 t p _ h; omega
    · split at h
      · exact absurd h ff
      · rw [dataField_getElem?] at h
        split at h
        · next h3 =>
          have : o - 67 = 0 ∨ o - 67 = 1 ∨ o - 67 = 2 := by omega
          rcases this with h' | h' | h' <;> rw [h'] at h
          · omega
          · exact absurd h (by decide)
          · exact absurd h (by decide)
        · split at h
          · obtain ⟨_, h⟩ := List.getElem?_eq_some_iff.mp h
            exact absurd h (chain_ne_D5 0 (expand data) _ (List.getElem_mem _))
          · next h4 =>
            have hm := List.mem_of_getElem? h
            exact absurd hm (by decide)

theorem trackOf_size (t : Fin Config.nTracks) (trk : Vector Byte Config.trackBytes) :
    (trackOf t trk).toArray.size = 6656 := by
  simp [trackOf, trackFrames_length, Config.trackNibLen]

/-- The byte at frame offset `o` of frame `p` of an encoded track, the next frame after 416 (R103, R121). -/
theorem circular_trackOf (t : Fin Config.nTracks) (trk : Vector Byte Config.trackBytes) (p : Fin Config.nSectors)
    (o : Nat) (ho : o < 416) :
    some (circular (trackOf t trk).toArray (416 * p.val + o)) =
      (frameOf t p (sectorOf trk interleave[p]))[o]? := by
  have hp := p.isLt
  simp only [Config.nSectors] at hp
  have hs := trackOf_size t trk
  rw [← trackOf_getElem? t trk p o ho, circular_of_lt _ _ (by omega)]
  rw [List.getElem?_eq_getElem (by simp [Config.trackNibLen]; omega)]
  simp

/-- An address prologue in an encoded track stands at frame offset 47 (R105). -/
theorem trackOf_prologue (t : Fin Config.nTracks) (trk : Vector Byte Config.trackBytes) (p : Fin Config.nSectors)
    (o : Nat) (ho : o < 416) (h0 : circular (trackOf t trk).toArray (416 * p.val + o) = 0xD5)
    (h2 : circular (trackOf t trk).toArray (416 * p.val + o + 2) = 0x96) : o = 47 := by
  have e := circular_trackOf t trk p o ho
  rw [h0] at e
  rcases frameOf_D5 t p _ o e.symm with rfl | rfl
  · rfl
  · have e2 := circular_trackOf t trk p 69 (by omega)
    rw [show 416 * p.val + 67 + 2 = 416 * p.val + 69 by omega] at h2
    rw [h2, frameOf_parts, if_neg (by omega), if_neg (by omega), if_neg (by omega), dataField_getElem?,
      if_pos (by omega)] at e2
    exact absurd e2 (by decide)

/-- DEC44 undoes ENC44 (R92). -/
theorem dec44_enc44 (v : Byte) : dec44 ((v >>> 1) ||| 0xAA) (v ||| 0xAA) = v := by revert v; decide

/-- A pair of fields from its three parts (R125). -/
theorem pairAt_of {g : Nat → Byte} {t : Fin Config.nTracks} {i j : Nat} {sec : Fin Config.nSectors} {data : Sector}
    (hA : addressFieldAt g t i = some sec) (hP : dataPrologueAfter g i = some j) (hD : dataFieldAt g j = some data) :
    pairAt g t i = some (interleave[sec], data) := by
  simp only [pairAt, hA, hP, hD, Option.map_some]

/-- The interleave table is onto (R104). -/
theorem interleave_onto : ∀ l : Fin Config.nSectors, ∃ p : Fin Config.nSectors, interleave[p] = l := by decide

/-- A valid pair starts with an address prologue (R122). -/
theorem pairAt_prologue {g : Nat → Byte} {t : Fin Config.nTracks} {i : Nat} {r : Fin Config.nSectors × Sector}
    (h : pairAt g t i = some r) : g i = 0xD5 ∧ g (i + 2) = 0x96 := by
  cases ha : addressFieldAt g t i with
  | none => simp [pairAt, ha] at h
  | some sec =>
    unfold addressFieldAt at ha
    split at ha
    · next hp => exact ⟨hp.1, hp.2.2⟩
    · cases ha

/-- A valid pair names the logical sector of its address field (R125). -/
theorem pairAt_sector {g : Nat → Byte} {t : Fin Config.nTracks} {i : Nat} {sec l : Fin Config.nSectors}
    {data : Sector} (hA : addressFieldAt g t i = some sec) (h : pairAt g t i = some (l, data)) :
    interleave[sec] = l := by
  unfold pairAt at h
  rw [hA] at h
  simp only at h
  split at h
  · cases h
  · obtain ⟨_, _, h⟩ := Option.map_eq_some_iff.mp h
    exact (Prod.mk.injEq .. ▸ h).1

/-- The address field of frame `p` of an encoded track (R122). -/
theorem addressFieldAt_trackOf (t : Fin Config.nTracks) (trk : Vector Byte Config.trackBytes)
    (p : Fin Config.nSectors) :
    addressFieldAt (circular (trackOf t trk).toArray) t (416 * p.val + 47) = some p := by
  have g : ∀ o, o < 416 → some (circular (trackOf t trk).toArray (416 * p.val + o)) =
      (frameOf t p (sectorOf trk interleave[p]))[o]? := circular_trackOf t trk p
  generalize circular (trackOf t trk).toArray = c at g
  have a : ∀ k b, k < 14 → (addrField t p)[k]? = some b → c (416 * p.val + 47 + k) = b := by
    intro k b h1 h2
    have := g (47 + k) (by omega)
    rw [frameOf_parts, if_neg (by omega), if_pos (by omega), show 47 + k - 47 = k by omega, h2] at this
    rw [show 416 * p.val + 47 + k = 416 * p.val + (47 + k) by omega]
    exact Option.some.inj this
  have hp : (BitVec.ofNat 8 p.val : Byte).toNat = p.val := by
    have := p.isLt; simp only [Config.nSectors] at this; simp; omega
  unfold addressFieldAt
  rw [show c (416 * p.val + 47) = 0xD5 from a 0 _ (by omega) rfl, a 1 _ (by omega) rfl, a 2 _ (by omega) rfl,
    a 3 _ (by omega) rfl, a 4 _ (by omega) rfl, a 5 _ (by omega) rfl, a 6 _ (by omega) rfl, a 7 _ (by omega) rfl,
    a 8 _ (by omega) rfl, a 9 _ (by omega) rfl, a 10 _ (by omega) rfl, a 11 _ (by omega) rfl, a 12 _ (by omega) rfl]
  simp only [dec44_enc44, hp]
  rw [if_pos (by decide), if_pos (by decide), dif_pos p.isLt]

/-- The valid pair of fields of frame `p` of an encoded track, when its body decodes (R122 to R125). -/
theorem pairAt_trackOf (t : Fin Config.nTracks) (trk : Vector Byte Config.trackBytes) (p : Fin Config.nSectors)
    (hdec : dec62 (enc62 (sectorOf trk interleave[p])) = some (sectorOf trk interleave[p])) :
    pairAt (circular (trackOf t trk).toArray) t (416 * p.val + 47) =
      some (interleave[p], sectorOf trk interleave[p]) := by
  have g : ∀ o, o < 416 → some (circular (trackOf t trk).toArray (416 * p.val + o)) =
      (frameOf t p (sectorOf trk interleave[p]))[o]? := circular_trackOf t trk p
  have hA := addressFieldAt_trackOf t trk p
  generalize circular (trackOf t trk).toArray = c at g hA
  generalize sectorOf trk interleave[p] = data at g hdec
  have body : ∀ o b, 67 ≤ o → o < 416 → (dataField data)[o - 67]? = some b → c (416 * p.val + o) = b := by
    intro o b h1 h2 hb
    have := g o h2
    rw [frameOf_parts, if_neg (by omega), if_neg (by omega), if_neg (by omega), hb] at this
    exact Option.some.inj this
  have gap : ∀ o, 61 ≤ o → o < 67 → c (416 * p.val + o) = 0xFF := by
    intro o h1 h2
    have := g o (by omega)
    rw [frameOf_parts, if_neg (by omega), if_neg (by omega), if_pos (by omega)] at this
    exact Option.some.inj this
  have hP : dataPrologueAfter c (416 * p.val + 47) = some (416 * p.val + 67) := by
    have cand : (List.range (dataSearch + 1)).map (416 * p.val + 47 + 14 + ·) =
        (List.range 6).map (416 * p.val + 61 + ·) ++ (List.range 27).map (416 * p.val + 67 + ·) := by
      rw [show dataSearch + 1 = 6 + 27 from rfl, List.range_add]
      simp only [List.map_append, List.map_map]
      congr 1
    unfold dataPrologueAfter
    rw [cand, List.find?_append, List.find?_eq_none.mpr]
    · have d0 : c (416 * p.val + 67) = 0xD5 := body 67 _ (by omega) (by omega) (by rw [dataField_getElem?]; rfl)
      have d1 : c (416 * p.val + 68) = 0xAA := body 68 _ (by omega) (by omega) (by rw [dataField_getElem?]; rfl)
      have d2 : c (416 * p.val + 69) = 0xAD := body 69 _ (by omega) (by omega) (by rw [dataField_getElem?]; rfl)
      rw [List.range_succ_eq_map, List.map_cons, List.find?_cons_of_pos]
      · rfl
      · simp [d0, d1, d2]
    · intro k hk
      obtain ⟨x, hx, rfl⟩ := List.mem_map.mp hk
      have hx := List.mem_range.mp hx
      rw [show 416 * p.val + 61 + x = 416 * p.val + (61 + x) by omega, gap _ (by omega) (by omega)]
      simp
  have hD : dataFieldAt c (416 * p.val + 67) = some data := by
    have e0 : c (416 * p.val + 67 + 346) = 0xDE := by
      rw [show 416 * p.val + 67 + 346 = 416 * p.val + 413 by omega]
      exact body 413 _ (by omega) (by omega) (by rw [dataField_getElem?]; rfl)
    have e1 : c (416 * p.val + 67 + 347) = 0xAA := by
      rw [show 416 * p.val + 67 + 347 = 416 * p.val + 414 by omega]
      exact body 414 _ (by omega) (by omega) (by rw [dataField_getElem?]; rfl)
    have hb : ((List.range 343).map fun m => c (416 * p.val + 67 + 3 + m)) = enc62 data := by
      apply List.ext_getElem?
      intro m
      by_cases hm : m < 343
      · rw [List.getElem?_map, List.getElem?_range hm]
        have hlt : m < (enc62 data).length := by rw [enc62_length]; exact hm
        have := body (70 + m) (enc62 data)[m] (by omega) (by omega) (by
          rw [dataField_getElem?, if_neg (by omega), if_pos (by omega), show 70 + m - 67 - 3 = m by omega]
          exact List.getElem?_eq_getElem hlt)
        rw [List.getElem?_eq_getElem hlt, ← this]
        simp only [Option.map_some]
        congr 2
        omega
      · rw [List.getElem?_eq_none (by simp; omega), List.getElem?_eq_none (by rw [enc62_length]; omega)]
    unfold dataFieldAt
    rw [if_pos ⟨e0, e1⟩, hb]
    exact hdec
  exact pairAt_of hA hP hD

/-- A lookup in what a scan found: the one value every find of the key agrees on. -/
theorem lookup_filterMap {α β : Type} [DecidableEq α] (f : Nat → Option (α × β)) (L : List Nat) (l : α)
    (v : β) (h1 : ∃ i ∈ L, f i = some (l, v)) (h2 : ∀ i ∈ L, ∀ v', f i = some (l, v') → v' = v) :
    (L.filterMap f).lookup l = some v := by
  induction L with
  | nil => simp at h1
  | cons a L ih =>
    have tail : ∀ i ∈ L, ∀ v', f i = some (l, v') → v' = v := fun i hi => h2 i (List.mem_cons_of_mem _ hi)
    cases ha : f a with
    | none =>
      rw [List.filterMap_cons_none ha]
      refine ih ?_ tail
      obtain ⟨i, hi, hf⟩ := h1
      rcases List.mem_cons.mp hi with rfl | hi
      · rw [ha] at hf; cases hf
      · exact ⟨i, hi, hf⟩
    | some kv =>
      obtain ⟨k, v'⟩ := kv
      rw [List.filterMap_cons_some ha]
      by_cases hk : l = k
      · subst hk
        have := h2 a (by simp) v' ha
        subst this
        simp
      · rw [List.lookup_cons, show (l == k) = false by simpa using hk]
        refine ih ?_ tail
        obtain ⟨i, hi, hf⟩ := h1
        rcases List.mem_cons.mp hi with rfl | hi
        · rw [ha] at hf
          simp only [Option.some.injEq, Prod.mk.injEq] at hf
          exact absurd hf.1.symm hk
        · exact ⟨i, hi, hf⟩

end Sys2Proof.Machine
end

