-- ==== Sys2Proof/Laws/PerInstr.lean ====
section
/-! SUPPORT. Statements about every instruction as syntax, one lemma per constructor: its fields are well formed (R84) and
stand in its word where R80 puts them. -/

namespace Sys2Proof.Laws.LegalFields

/-- The fields of an instruction are those of a legal word (R84), and its word splits into them (R80). -/
def Statement (i : Instr) : Prop :=
  i.fields.wellFormed = true ∧ split (encode i) = i.fields

theorem cenc (t : Byte) : Statement (.cenc t) := by unfold Statement; revert t; decide
theorem cdec (t : Byte) : Statement (.cdec t) := by unfold Statement; revert t; decide
theorem tbload (d : DriveId) : Statement (.tbload d) := by cases d <;> (unfold Statement; decide)
theorem tbread (d : DriveId) : Statement (.tbread d) := by cases d <;> (unfold Statement; decide)
theorem tbwrite (d : DriveId) (b : Byte) : Statement (.tbwrite d b) := by
  cases d <;> (unfold Statement; revert b; decide)
theorem tbflush (d : DriveId) : Statement (.tbflush d) := by cases d <;> (unfold Statement; decide)
theorem dstep (d : DriveId) (m : BitVec 4) : Statement (.dstep d m) := by
  cases d <;> (unfold Statement; revert m; decide)
theorem dsel (d : DriveId) (e : Bool) : Statement (.dsel d e) := by cases d <;> cases e <;> (unfold Statement; decide)
theorem diswp (d : DriveId) : Statement (.diswp d) := by cases d <;> (unfold Statement; decide)
theorem dsetwpo (d : DriveId) (v : Bool) : Statement (.dsetwpo d v) := by
  cases d <;> cases v <;> (unfold Statement; decide)
theorem reset : Statement .reset := by unfold Statement; decide
theorem select (i : Byte) : Statement (.select i) := by unfold Statement; revert i; decide
theorem setwm (e : Bool) : Statement (.setwm e) := by cases e <;> (unfold Statement; decide)
theorem ldlatch (b : Byte) : Statement (.ldlatch b) := by unfold Statement; revert b; decide
theorem rwbyte : Statement .rwbyte := by unfold Statement; decide
theorem step (ph : Byte) : Statement (.step ph) := by unfold Statement; revert ph; decide
theorem insert (i : Byte) : Statement (.insert i) := by unfold Statement; revert i; decide
theorem eject (i : Byte) : Statement (.eject i) := by unfold Statement; revert i; decide
theorem iswp : Statement .iswp := by unfold Statement; decide
theorem rdstat : Statement .rdstat := by unfold Statement; decide

end Sys2Proof.Laws.LegalFields
end

