-- ==== Sys2Proof/Tests/Slice0.lean ====
section
/-! SUPPORT. Tests of one step or one operand form, their expected results from `95_test_vectors.md` and the examples in
the rules; the decoder on words written out from R80 and R82; ill-formed fields refused by `Fields.wellFormed`; and for
every obligation with hypotheses a concrete state and operands that meet them (`witness_…`). -/

namespace Sys2Proof.Tests

open Sys2Proof Sys2Proof.Machine

/-! ## Well-formedness (R80, R84) -/

/-- An unassigned operation code. -/
theorem test_wf_unassigned : Fields.wellFormed { op := 0x03, rsv := 0, d := 0, imm8 := 0 } = false := by decide
/-- A reserved bit. -/
theorem test_wf_reserved : Fields.wellFormed { op := 0x11, rsv := 1, d := 0, imm8 := 1 } = false := by decide
/-- A drive bit without a drive operand. -/
theorem test_wf_drive_bit : Fields.wellFormed { op := 0x10, rsv := 0, d := 1, imm8 := 0 } = false := by decide
/-- DSTEP with `imm8[7:4] ≠ 0`. -/
theorem test_wf_phase_mask : Fields.wellFormed { op := 0x08, rsv := 0, d := 0, imm8 := 0x10 } = false := by decide
/-- SETWM with `imm8[7:1] ≠ 0`. -/
theorem test_wf_boolean : Fields.wellFormed { op := 0x12, rsv := 0, d := 0, imm8 := 0x02 } = false := by decide
/-- RESET with `imm8 ≠ 0`. -/
theorem test_wf_no_operand : Fields.wellFormed { op := 0x10, rsv := 0, d := 0, imm8 := 0x01 } = false := by decide
/-- And a legal one. -/
theorem test_wf_legal : Fields.wellFormed { op := 0x08, rsv := 0, d := 1, imm8 := 0x0F } = true := by decide

/-! ## Decoding: op, rsv, d, imm8 written out (R80, R82) -/

theorem test_decode_cenc : decode (0b00001#5 ++ 0b00#2 ++ 0b0#1 ++ 0b00010001#8) = .ok (.cenc 17) := by decide
theorem test_decode_cdec : decode (0b00010#5 ++ 0b00#2 ++ 0b0#1 ++ 0b11111111#8) = .ok (.cdec 255) := by decide
theorem test_decode_tbload : decode (0b00100#5 ++ 0b00#2 ++ 0b1#1 ++ 0b00000000#8) = .ok (.tbload .d1) := by decide
theorem test_decode_tbread : decode (0b00101#5 ++ 0b00#2 ++ 0b0#1 ++ 0b00000000#8) = .ok (.tbread .d0) := by decide
theorem test_decode_tbwrite : decode (0b00110#5 ++ 0b00#2 ++ 0b1#1 ++ 0b11010101#8) = .ok (.tbwrite .d1 0xD5) := by
  decide
theorem test_decode_tbflush : decode (0b00111#5 ++ 0b00#2 ++ 0b0#1 ++ 0b00000000#8) = .ok (.tbflush .d0) := by decide
theorem test_decode_dstep : decode (0b01000#5 ++ 0b00#2 ++ 0b1#1 ++ 0b00000010#8) = .ok (.dstep .d1 0b0010) := by decide
theorem test_decode_dsel : decode (0b01001#5 ++ 0b00#2 ++ 0b0#1 ++ 0b00000001#8) = .ok (.dsel .d0 true) := by decide
theorem test_decode_diswp : decode (0b01010#5 ++ 0b00#2 ++ 0b1#1 ++ 0b00000000#8) = .ok (.diswp .d1) := by decide
theorem test_decode_dsetwpo : decode (0b01011#5 ++ 0b00#2 ++ 0b1#1 ++ 0b00000000#8) = .ok (.dsetwpo .d1 false) := by
  decide
theorem test_decode_reset : decode (0b10000#5 ++ 0b00#2 ++ 0b0#1 ++ 0b00000000#8) = .ok .reset := by decide
theorem test_decode_select : decode (0b10001#5 ++ 0b00#2 ++ 0b0#1 ++ 0b00000010#8) = .ok (.select 2) := by decide
theorem test_decode_setwm : decode (0b10010#5 ++ 0b00#2 ++ 0b0#1 ++ 0b00000001#8) = .ok (.setwm true) := by decide
theorem test_decode_ldlatch : decode (0b10011#5 ++ 0b00#2 ++ 0b0#1 ++ 0b10000000#8) = .ok (.ldlatch 0x80) := by decide
theorem test_decode_rwbyte : decode (0b10100#5 ++ 0b00#2 ++ 0b0#1 ++ 0b00000000#8) = .ok .rwbyte := by decide
theorem test_decode_step : decode (0b10101#5 ++ 0b00#2 ++ 0b0#1 ++ 0b00000100#8) = .ok (.step 4) := by decide
theorem test_decode_insert : decode (0b10110#5 ++ 0b00#2 ++ 0b0#1 ++ 0b00000001#8) = .ok (.insert 1) := by decide
theorem test_decode_eject : decode (0b10111#5 ++ 0b00#2 ++ 0b0#1 ++ 0b00000001#8) = .ok (.eject 1) := by decide
theorem test_decode_iswp : decode (0b11000#5 ++ 0b00#2 ++ 0b0#1 ++ 0b00000000#8) = .ok .iswp := by decide
theorem test_decode_rdstat : decode (0b11001#5 ++ 0b00#2 ++ 0b0#1 ++ 0b00000000#8) = .ok .rdstat := by decide
/-- R84: an unassigned code is reported before a reserved bit. -/
theorem test_decode_unassigned : decode (0b11111#5 ++ 0b11#2 ++ 0b1#1 ++ 0b11111111#8) = .error .badCommand := by decide
theorem test_decode_reserved : decode (0b10001#5 ++ 0b10#2 ++ 0b0#1 ++ 0b00000001#8) = .error .badOperand := by decide

/-! ## The assembler (R87, R88) -/

/-- R87: `DSTEP d1, 0b0010` with a comment. -/
theorem test_asm_dstep :
    asmLine 0 "DSTEP d1, 0b0010 ; seek".toList = some [(.dstep .d1 0b0010, none)] := by decide
/-- R87: `INSERT 0, <imgA>`. -/
theorem test_asm_insert : asmLine 0 "INSERT 0, <imgA>".toList = some [(.insert 0, some "imgA".toList)] := by decide
/-- R88: `WRBYTE b`. -/
theorem test_asm_wrbyte : asmLine 0 "WRBYTE 0xD5".toList = some [(.ldlatch 0xD5, none), (.rwbyte, none)] := by decide
/-- R88: `SEEKUP k` from last phase 2. -/
theorem test_asm_seekup :
    asmLine 2 "SEEKUP 3".toList = some [(.step 3, none), (.step 0, none), (.step 1, none)] := by decide

/-! ## Codes (R91 to R104) -/

/-- V-E1. -/
theorem test_enc44 : enc44 0xEF = [0xFF, 0xEF] ∧ enc44 0x02 = [0xAB, 0xAA] ∧ enc44 0xFB = [0xFF, 0xFB] := by decide
/-- V-E2: bytes ENC44 never produces. -/
theorem test_dec44 : dec44 0x00 0xFF = 0x01 ∧ dec44 0x55 0x55 = 0x01 ∧ dec44 0xD5 0xAA = 0xAA := by decide
/-- V-E3: ADDR(17, 3) and ADDR(34, 15). -/
theorem test_addr_17_3 : addrField 17 3 =
    [0xD5, 0xAA, 0x96, 0xFF, 0xFE, 0xAA, 0xBB, 0xAB, 0xAB, 0xFE, 0xEE, 0xDE, 0xAA, 0xEB] := by decide
theorem test_addr_34_15 : addrField 34 15 =
    [0xD5, 0xAA, 0x96, 0xFF, 0xFE, 0xBB, 0xAA, 0xAF, 0xAF, 0xEB, 0xFB, 0xDE, 0xAA, 0xEB] := by decide
/-- V-E4. -/
theorem test_rev2 : rev2 0 = 0 ∧ rev2 1 = 2 ∧ rev2 2 = 1 ∧ rev2 3 = 3 := by decide
/-- R94: the corners of the table and one entry of each code page. -/
theorem test_nib62 : nib62 0 = 0x96 ∧ nib62 31 = 0xD3 ∧ nib62 32 = 0xD6 ∧ nib62 63 = 0xFF ∧
    unnib62 0xD5 = none := by decide
/-- V-E8: the only non-zero byte is `data[255] = 0x02`; its pair is in bits 5:4 of `v[83]`. -/
theorem test_low_pair : lowSix (Vector.ofFn fun i : Fin 256 => if i = 255 then 0x02 else 0x00) 83 = 16 := by
  simp only [lowSix, lowPair, Config.sectorBytes, Vector.getElem_ofFn]
  decide
/-- V-E7: `v[1]` of `data[i] = i` is 46. -/
theorem test_low_six : lowSix (Vector.ofFn fun i : Fin 256 => BitVec.ofNat 8 i.val) 1 = 46 := by
  simp only [lowSix, lowPair, Config.sectorBytes, Vector.getElem_ofFn]
  decide
/-- R98: three values chained, with the trailing checksum. -/
theorem test_chain : chain 0 [4, 46, 17] = [nib62 4, nib62 42, nib62 63, nib62 17] := by decide
/-- R99: a wrong checksum does not decode. -/
theorem test_unchain_checksum : unchain 0 [0x9D, 0x96] = none ∧ unchain 0 [0x9D, 0x9D] = some [4] := by decide
/-- R104: entries 1, 8 and 15. -/
theorem test_interleave : interleave[1] = 7 ∧ interleave[8] = 11 ∧ interleave[15] = 15 := by decide

/-! ## One step -/

/-- An empty SECTOR image, all bytes zero (imgZ of `95_test_vectors.md`). -/
def imgZ : HostImage := { layout := .sector, ro := false, len := 143360, mem := [] }

/-- The same, attached. -/
def diskZ : Disk := imgZ.attached 0

/-- A NIBBLE image, attached. -/
def diskN : Disk := { name := 0, layout := .nibble, ro := false, mem := [] }

/-- A buffer of sync bytes with its cursor at the last index. -/
def syncBuffer (dirty : Bool) : TrackBuffer :=
  { buf := Vector.replicate 6656 0xFF, cur := 6655, dirty := dirty, track := 0 }

/-- Drive 0 as given and selected, write mode as given, one free image 1 in the host's hands. -/
def withDrive (x : Drive) (wmode : Bool) : State :=
  { State.reset with
    ctl := { sel := some .d0, wmode := wmode, latch := 0xD5, pstat := false }
    drive0 := x
    store := [none, some imgZ] }

/-- A drive at power-on that runs, with an image and a buffer. -/
def running (img : Option Disk) (tb : Option TrackBuffer) : Drive :=
  { Drive.powerOn with motor := true, light := true, img := img, tb := tb }

/-- Drive 0 with imgZ and a buffer, dirty or not, in read or write mode. -/
abbrev loaded (dirty wmode : Bool) : State :=
  withDrive (running (some diskZ) (some (syncBuffer dirty))) wmode

/-- A state that presents a side-band operand. -/
def presenting (b : SideBand) : State := { State.reset with store := [some imgZ], sideIn := b }

/-- V-C2. -/
theorem test_cenc_range : exec (.cenc 35) State.reset = .next (State.reset.raise .ppTrackRange) := by rfl
/-- V-C1: the address field of frame 1 of an all-zero track 0. -/
theorem test_cenc_zero : ((frameOf 0 1 (Vector.ofFn fun _ => 0x00)).drop 47).take 14 =
    [0xD5, 0xAA, 0x96, 0xFF, 0xFE, 0xAA, 0xAA, 0xAA, 0xAB, 0xFF, 0xFF, 0xDE, 0xAA, 0xEB] := by decide
/-- V-C5: a stream of length 1. -/
theorem test_cdec_short : ∃ t, exec (.cdec 0) (presenting (.bytes [0xFF])) = .next t ∧
    responseWord t.resp = 0x2000FFFF := ⟨_, rfl, by decide⟩
/-- V-C2. -/
theorem test_cdec_empty : exec (.cdec 0) State.reset = .next (State.reset.raise .ppBadOperand) := by rfl
/-- R150: at half-track 35 the track is 17, the cursor 0, the buffer clean. -/
theorem test_tbload : ∃ t,
    exec (.tbload .d0) (withDrive { running (some diskZ) none with half := 35 } false) = .next t ∧
    t.drive0.tb.map (fun b => (b.track, b.cur, b.dirty)) = some (17, 0, false) := ⟨_, rfl, by decide⟩
/-- R151: the cursor wraps from N − 1 to 0. -/
theorem test_tbread_wraps : ∃ t,
    exec (.tbread .d0) (loaded false false) = .next t ∧
    t.drive0.tb.map (fun b => (b.cur, b.dirty)) = some (0, false) := ⟨_, rfl, by decide⟩
/-- R151: no image gives the sentinel. -/
theorem test_tbread_no_image :
    exec (.tbread .d0) (withDrive (running none none) false) =
      .next ((withDrive (running none none) false).reply 0xFF 0) := by rfl
/-- R152: nothing in read mode. -/
theorem test_tbwrite_read_mode :
    exec (.tbwrite .d0 0xD5) (withDrive (running (some diskZ) none) false) =
      .next ((withDrive (running (some diskZ) none) false).reply 0 0) := by rfl
/-- R152: a protected write moves the cursor and does not dirty the buffer. -/
theorem test_tbwrite_protected : ∃ t,
    exec (.tbwrite .d0 0xD5)
      (withDrive { running (some diskZ) (some (syncBuffer false)) with wpo := true } true) = .next t ∧
    t.drive0.tb.map (fun b => (b.cur, b.dirty)) = some (0, false) := ⟨_, rfl, by decide⟩
/-- R153: a NIBBLE image gets the buffer verbatim, at `t × N + i`. -/
theorem test_tbflush_nibble : (diskN.writeBack { syncBuffer true with track := 1 }).1.mem.read 6656 = 0xFF ∧
    (diskN.writeBack { syncBuffer true with track := 1 }).1.mem.read 6655 = 0x00 := by
  constructor <;> rw [Disk.writeBack_nibble rfl, Memory.read_writeBlock] <;> simp [syncBuffer, Memory.unlisted, diskN]
/-- R170: half 10, last 2, phases 0100, `DSTEP d0, 0b1000`. -/
theorem test_dstep : ((({ Drive.powerOn with half := 10, last := 2, phases := 0b0100 } : Drive).step 0b1000).1) =
    { Drive.powerOn with half := 11, last := 3, phases := 0b1000 } := by decide
/-- R170: two new lines at once move nothing and leave `last`. -/
theorem test_dstep_two_lines :
    ((({ Drive.powerOn with half := 10, last := 2, phases := 0b0100 } : Drive).step 0b1110).1) =
    { Drive.powerOn with half := 10, last := 2, phases := 0b1110 } := by decide
/-- R172: clamped at 0, `last` and `phases` still written. -/
theorem test_dstep_clamp : ((Drive.powerOn.step 0b1000).1) = { Drive.powerOn with last := 3, phases := 0b1000 } := by
  decide
/-- R174: motor and light off, the buffer dropped. -/
theorem test_dsel_off : ∃ t,
    exec (.dsel .d0 false) (loaded false true) =
    .next t ∧ t.drive0 = { Drive.powerOn with img := some diskZ } := ⟨_, rfl, rfl⟩
/-- R175: the example. -/
theorem test_diswp : ∃ t,
    exec (.diswp .d0) (withDrive (running (some { diskZ with ro := true }) none) false) = .next t ∧
    t.resp.value = 1 := ⟨_, rfl, rfl⟩
/-- R176, R30: cleared on a read-only image the drive stays protected. -/
theorem test_dsetwpo : ∃ t, exec (.dsetwpo .d0 false)
    (withDrive { running (some { diskZ with ro := true }) none with wpo := true } false) = .next t ∧
    t.drive0.wpo = false ∧ t.drive0.wp = true := ⟨_, rfl, rfl, rfl⟩
/-- R250: the registers after RESET, the latch kept. -/
theorem test_reset : ∃ t,
    exec .reset (withDrive { running (some diskZ) none with half := 34, last := 2 } true) = .next t ∧
    t.ctl = { sel := none, wmode := false, latch := 0xD5, pstat := false } ∧
    t.drive0 = { Drive.powerOn with half := 34, last := 2, img := some diskZ } := ⟨_, rfl, rfl, rfl⟩
/-- R191: index 2 is out of range; index 1 turns drive 0 off and drive 1 on. -/
theorem test_select_range : exec (.select 2) State.reset = .next (State.reset.raise .ppDriveRange) := by rfl
theorem test_select : ∃ t, exec (.select 1) (withDrive (running (some diskZ) none) true) = .next t ∧
    t.ctl.sel = some .d1 ∧ t.drive0.motor = false ∧ t.drive1.motor = true := ⟨_, rfl, rfl, rfl, rfl⟩
/-- R192, R193: the examples. -/
theorem test_setwm : ∃ t, exec (.setwm true) State.reset = .next t ∧ t.ctl.wmode = true := ⟨_, rfl, rfl⟩
theorem test_ldlatch : ∃ t, exec (.ldlatch 0xFF) State.reset = .next t ∧ t.ctl.latch = 0xFF := ⟨_, rfl, rfl⟩
/-- R194: a protected write sets the protection status bit and moves the cursor. -/
theorem test_rwbyte_protected : ∃ t,
    exec .rwbyte (withDrive (running (some { diskZ with ro := true }) (some (syncBuffer false))) true) = .next t ∧
    t.ctl.pstat = true ∧ t.drive0.tb.map (fun b => (b.cur, b.dirty)) = some (0, false) := ⟨_, rfl, rfl, by decide⟩
/-- R200: with no drive selected no state but the count of draws changes. -/
theorem test_rwbyte_none : ∃ t, exec .rwbyte State.reset = .next t ∧ t.draws = 1 ∧ t.drive0 = Drive.powerOn :=
  ⟨_, rfl, rfl, rfl⟩
/-- R195: the example, and a phase out of range. -/
theorem test_step : ∃ t, exec (.step 1) (withDrive { running none none with phases := 0b0001 } false) = .next t ∧
    t.drive0 = { running none none with half := 1, last := 1, phases := 0b0010 } := ⟨_, rfl, by decide⟩
theorem test_step_range : exec (.step 4) State.reset = .next (State.reset.raise .ppPhaseRange) := by rfl
/-- R196: the example: attached, and the second INSERT refused. -/
theorem test_insert : ∃ t, exec (.insert 0) (presenting (.image 0)) = .next t ∧ t.drive0.img = some diskZ ∧
    t.resp.status = .ok ∧ ∃ u, exec (.insert 0) t = .next u ∧ responseWord u.resp = 0x13000000 :=
  ⟨_, rfl, by decide, by decide, _, rfl, by decide⟩
/-- R196: a wrong length. -/
theorem test_insert_length : ∃ t,
    exec (.insert 0) { presenting (.image 0) with store := [some { imgZ with len := 143361 }] } = .next t ∧
    responseWord t.resp = 0x14000000 := ⟨_, rfl, by decide⟩
/-- Log entry 6: an empty place that no drive's image left holds no image for the host to hand over. -/
theorem test_insert_empty_place : ∃ t,
    exec (.insert 1) { withDrive (running none none) false with sideIn := .image 0 } = .next t ∧
    responseWord t.resp = 0x14000000 := ⟨_, rfl, by decide⟩
/-- R197: ejecting an empty drive is a no-op with status OK. -/
theorem test_eject_empty : exec (.eject 1) State.reset = .next (State.reset.reply 0 0) := by rfl
theorem test_eject : ∃ t,
    exec (.eject 0) (loaded false true) = .next t ∧
    t.drive0.img = none ∧ t.drive0.tb = none ∧ t.store[0]? = some (some imgZ) := ⟨_, rfl, rfl, rfl, rfl⟩
/-- R198: a read-only image in the selected drive. -/
theorem test_iswp : ∃ t, exec .iswp (withDrive (running (some { diskZ with ro := true }) none) false) = .next t ∧
    t.resp.value = 1 := ⟨_, rfl, rfl⟩
/-- R199: with the default parameter the bit stays set. -/
theorem test_rdstat : ∃ t, exec .rdstat (State.reset.setProtStatus true) = .next t ∧ t.resp.value = 1 ∧
    t.ctl.pstat = true := ⟨_, rfl, rfl, rfl⟩
/-- `withFetchWord` sets the word the next step performs. -/
theorem test_withFetchWord : ∃ t, step (State.reset.withFetchWord 16 0x9001) = .next t ∧ t.ctl.wmode = true ∧
    t.queue = [] := ⟨_, rfl, rfl, rfl⟩

/-! ## Witnesses: for every obligation with hypotheses, a state and operands that meet them -/

/-- A state whose host issues one command. -/
def issuing (w : CmdWord) (b : SideBand) : State := { State.reset with queue := [{ word := w, side := b }] }

theorem diskZ_ok : diskZ.ok := ⟨Memory.wf_nil, by intro c hc; cases hc⟩
theorem diskN_ok : diskN.ok := ⟨Memory.wf_nil, by intro c hc; cases hc⟩
theorem imgZ_ok : imgZ.ok := ⟨Memory.wf_nil, by intro c hc; cases hc⟩

/-- A state of `withDrive` is sound when its drive is and holds no other image than image 0. -/
theorem withDrive_inv {x : Drive} {w : Bool} (hx : x.ok) (hn : ∀ k, x.img = some k → k.name = 0) :
    (withDrive x w).Inv := by
  refine ⟨fun d => by cases d; exacts [hx, Drive.ok_powerOn], fun h hh => ?_, fun d k hk => ?_,
    fun k0 k1 _ h1 => ?_⟩
  · have : h = imgZ := by simpa [withDrive] using hh
    exact this ▸ imgZ_ok
  · cases d
    · rw [hn k hk]; rfl
    · cases hk
  · cases h1

theorem running_ok {k : Disk} {tb : TrackBuffer} (hk : k.ok) (ht : tb.track = 0) : (running (some k) (some tb)).ok :=
  ⟨fun _ => rfl, by rintro _ ⟨⟩; rw [ht]; exact (by decide : (0 : Fin Config.nTracks) = wholeTrack 0),
    by rintro _ ⟨⟩; exact hk⟩

/-- A sound state with an attached image and a loaded buffer. -/
theorem loaded_inv (dirty w : Bool) : (loaded dirty w).Inv :=
  withDrive_inv (running_ok diskZ_ok rfl) (by rintro _ ⟨⟩; rfl)

/-- Its one empty place is that of image 0, which drive 0 holds. -/
theorem loaded_placesHeld (dirty w : Bool) : (loaded dirty w).placesHeld := by
  intro name hst
  match name with
  | 0 => exact ⟨.d0, diskZ, rfl, rfl⟩
  | 1 => cases hst
  | _ + 2 => cases hst

theorem loaded_ctlInv (img : Option Disk) (tb : Option TrackBuffer) (w : Bool) :
    (withDrive (running img tb) w).CtlInv := by
  intro d
  cases d
  · exact ⟨rfl, rfl, fun _ => rfl⟩
  · exact ⟨rfl, rfl, fun h => by cases h⟩

theorem witness_OpcodeMapDecides :
    (∃ r ∈ opcodeMap, (0x8000 : CmdWord) &&& r.mask = r.value) ∧
    ∀ r ∈ opcodeMap, (0x8100 : CmdWord) &&& r.mask ≠ r.value := by decide

/-- Unassigned codes at both ends of their ranges, a bad operand of each kind, and a legal word at each bound. -/
theorem witness_IllegalWordsReported :
    (issuing 0xFFFF .none).queue = [{ word := 0xFFFF, side := .none }] ∧
    (0x1FFF : CmdWord).toNat / 2048 = 0x03 ∧ (0x6000 : CmdWord).toNat / 2048 = 0x0C ∧
    (0x7FFF : CmdWord).toNat / 2048 = 0x0F ∧ (0xD000 : CmdWord).toNat / 2048 = 0x1A ∧
    (0xFFFF : CmdWord).toNat / 2048 = 0x1F ∧ (0x8A00 : CmdWord).toNat / 512 % 4 ≠ 0 ∧
    (0x8900 : CmdWord).toNat / 256 % 2 = 1 ∧ (0x8001 : CmdWord).toNat % 256 ≠ 0 ∧
    16 ≤ (0x4010 : CmdWord).toNat % 256 ∧ 2 ≤ (0x9002 : CmdWord).toNat % 256 ∧
    (0x400F : CmdWord).toNat % 256 < 16 :=
  ⟨rfl, rfl, rfl, rfl, rfl, rfl, by decide, rfl, by decide, by decide, by decide, by decide⟩

theorem witness_StepRunsDecoded :
    (issuing 0xA000 .none).queue = [{ word := 0xA000, side := .none }] ∧ decode 0xA000 = .ok .rwbyte ∧
    State.reset.queue = [] := ⟨rfl, by decide, rfl⟩

theorem witness_StepKeepsInvariant :
    ∃ s t : State, s.Inv ∧ s.placesHeld ∧ step s = .next t ∧ t.ctl.sel = none ∧ s.ctl.sel = some .d0 :=
  ⟨{ loaded false true with queue := [{ word := 0x8000, side := .none }] },
    _, loaded_inv false true, loaded_placesHeld false true, rfl, rfl, rfl⟩

theorem witness_ControllerOperationsKeepSelection :
    Instr.controllerLevel .rwbyte = true ∧ (loaded false true).CtlInv ∧
    ∃ t, exec .rwbyte (loaded false true) = .next t :=
  ⟨rfl, loaded_ctlInv _ _ _, _, rfl⟩

/-- The move R256 denies the host: image 0 is in drive 0, and the host inserts it into drive 1. -/
theorem witness_NothingIsFatal :
    let s := { withDrive (running (some diskZ) none) false with queue := [{ word := 0xB001, side := .image 0 }] }
    step s = .refused .sharedImage ∧ (s.drive .d0).img = some diskZ ∧ diskZ.name = 0 := ⟨rfl, rfl, rfl⟩

theorem witness_PreconditionViolationChangesNothing :
    ∃ t, step (issuing 0xA804 .none) = .next t ∧ t.resp.status.isPrecondition = true := ⟨_, rfl, by decide⟩

theorem witness_DecodeIntegrityReported :
    ∃ t, exec (.cdec 0) (presenting (.bytes [0xFF])) = .next t ∧ t.resp.status = .decodeIntegrity ∧
      t.resp.fail ≠ 0 := ⟨_, rfl, by decide, by decide⟩

/-- Each of the four registers does change. -/
theorem witness_ControllerRegisterWriters :
    (∃ t, exec (.select 0) State.reset = .next t ∧ t.ctl.sel ≠ State.reset.ctl.sel) ∧
    (∃ t, exec (.setwm true) State.reset = .next t ∧ t.ctl.wmode ≠ State.reset.ctl.wmode) ∧
    (∃ t, exec (.ldlatch 1) State.reset = .next t ∧ t.ctl.latch ≠ State.reset.ctl.latch) ∧
    ∃ t, exec .reset (State.reset.setProtStatus true) = .next t ∧ t.ctl.pstat ≠ true :=
  ⟨⟨_, rfl, by decide⟩, ⟨_, rfl, by decide⟩, ⟨_, rfl, by decide⟩, _, rfl, by decide⟩

/-- The head moves, the motor runs, the override is set, an image comes and goes, a buffer comes. -/
theorem witness_DriveRegisterWriters :
    (∃ t, exec (.dstep .d0 0b0010) State.reset = .next t ∧ (t.drive .d0).half ≠ (State.reset.drive .d0).half) ∧
    (∃ t, exec (.dsel .d0 true) State.reset = .next t ∧ (t.drive .d0).motor ≠ (State.reset.drive .d0).motor) ∧
    (∃ t, exec (.dsetwpo .d0 true) State.reset = .next t ∧ (t.drive .d0).wpo ≠ (State.reset.drive .d0).wpo) ∧
    (∃ t, exec (.insert 0) (presenting (.image 0)) = .next t ∧ ((presenting (.image 0)).drive .d0).img = none ∧
      (t.drive .d0).img ≠ none) ∧
    (∃ t, exec (.eject 0) (withDrive (running (some diskZ) none) false) = .next t ∧
      ((withDrive (running (some diskZ) none) false).drive .d0).img ≠ none ∧ (t.drive .d0).img = none) ∧
    ∃ t, exec .rwbyte (withDrive (running (some diskZ) none) false) = .next t ∧
      ((withDrive (running (some diskZ) none) false).drive .d0).tb = none ∧ (t.drive .d0).tb ≠ none :=
  ⟨⟨_, rfl, by decide⟩, ⟨_, rfl, by decide⟩, ⟨_, rfl, by decide⟩, ⟨_, rfl, rfl, by decide⟩,
    ⟨_, rfl, by decide, rfl⟩, _, rfl, rfl, fun h => by cases h⟩

/-- A dirty buffer over a NIBBLE image, and the byte the flush changes in the image. -/
theorem witness_ImageChangesOnlyAtFlushPoints :
    ∃ t k', exec (.tbflush .d0) (withDrive (running (some diskN) (some (syncBuffer true))) true) = .next t ∧
      (t.drive .d0).img = some k' ∧ k'.mem ≠ diskN.mem := by
  refine ⟨_, (diskN.writeBack (syncBuffer true)).1, rfl, rfl, fun h => ?_⟩
  have hr := congrArg (fun m => Memory.read m 0) h
  rw [Disk.writeBack_nibble rfl] at hr
  simp only [Memory.read_writeBlock] at hr
  revert hr
  simp [syncBuffer, diskN, Memory.unlisted]

theorem witness_DirtyBufferNeverDropped :
    ∃ t, exec (.eject 0) (withDrive (running (some diskN) (some (syncBuffer true))) true) = .next t ∧
      (syncBuffer true).dirty = true ∧ (t.drive .d0).tb = none := ⟨_, rfl, rfl, rfl⟩

theorem witness_UnitOperationsStayInTheirDrive :
    Instr.unitDrive (.tbread .d0) = some .d0 ∧
    ∃ t, exec (.tbread .d0) (loaded false false) = .next t :=
  ⟨rfl, _, rfl⟩

theorem witness_HostSideFrame :
    (∃ t, exec (.insert 0) (presenting (.image 0)) = .next t ∧ t.store ≠ (presenting (.image 0)).store) ∧
    (∃ t, exec (.cdec 0) (presenting (.bytes [0xFF])) = .next t ∧ t.sideOut ≠ .none) ∧
    ∃ t, exec .iswp State.reset = .next t ∧ t.draws ≠ State.reset.draws :=
  ⟨⟨_, rfl, by decide⟩, ⟨_, rfl, fun h => by cases h⟩, _, rfl, by decide⟩

theorem witness_OddBitPairCode : (0xBB : Byte) ∈ enc44 0x11 := by decide
theorem witness_DenseAlphabet : (0 : Six).toNat < (63 : Six).toNat := by decide
theorem witness_DenseDecode :
    (0x00 : Byte) ∈ [(0x96 : Byte), 0x00] ∧ unnib62 0x00 = none ∧ [(4 : Six)] ≠ [] := by decide

/-- Two bodies with checksum 0 that differ in bits 5:4 of value 84 and in nothing else. -/
theorem witness_DenseDecode_ignoredBits :
    let xs : List Six := List.replicate 343 0
    let ys : List Six := List.replicate 84 0 ++ [0b110000, 0b110000] ++ List.replicate 257 0
    let v : List Six → Nat → Six := fun xs i => (xs.take (i + 1)).foldl (· ^^^ ·) 0
    xs.length = 343 ∧ ys.length = 343 ∧ xs.foldl (· ^^^ ·) 0 = 0 ∧ ys.foldl (· ^^^ ·) 0 = 0 ∧ v xs 84 ≠ v ys 84 ∧
      (v xs 84).setWidth 4 = (v ys 84).setWidth 4 ∧ v xs 85 = v ys 85 ∧
      ∀ i, i < 342 → i ≠ 84 → v xs i = v ys i := by
  have zeros : ∀ n, (List.replicate n (0 : Six)).foldl (· ^^^ ·) 0 = 0 := by
    intro n
    induction n with
    | zero => rfl
    | succ n ih => rw [List.replicate_succ, List.foldl_cons]; exact ih
  refine ⟨List.length_replicate, by simp only [List.length_append, List.length_replicate]; rfl, zeros _,
    ?_, ?_, ?_, ?_, ?_⟩
  · simp only [List.foldl_append, zeros]
    exact zeros _
  · decide
  · decide
  · decide
  · intro i hi hne
    simp only [List.take_append, List.take_replicate, List.foldl_append, List.length_append, List.length_replicate,
      zeros]
    rcases Nat.lt_or_ge i 84 with h | h
    · rw [show i + 1 - 84 = 0 by omega, List.take_zero]
      exact (zeros _).symm
    · rw [List.take_of_length_le (by simp; omega)]
      exact (zeros _).symm

/-- Length and track at their bounds. -/
theorem witness_CencEncodesTrack :
    34 < (35 : Byte).toNat ∧ (34 : Byte).toNat ≤ 34 ∧ (sideBytes (.bytes [])).length ≠ 4096 ∧
    (sideBytes (.bytes (List.replicate 4096 0x00))).length = 4096 := by
  refine ⟨by decide, by decide, by decide, ?_⟩
  rw [sideBytes, List.length_replicate]

theorem witness_CdecDecodesTrack :
    34 < (35 : Byte).toNat ∧ (34 : Byte).toNat ≤ 34 ∧ sideBytes (.bytes []) = [] ∧
    sideBytes (.bytes [0xFF]) ≠ [] := by
  decide

theorem interleave_injective : ∀ p q : Fin Config.nSectors, interleave[p] = interleave[q] → p = q := by decide

/-- In every encoded track no logical sector has two valid pairs. -/
theorem witness_ScanIgnoresRotation (t : Fin Config.nTracks) (trk : Vector Byte Config.trackBytes) :
    3000 ≤ (trackFrames t trk).length ∧
    ∀ i j l data data', i < (trackFrames t trk).length → j < (trackFrames t trk).length →
      pairAt (circular (trackFrames t trk).toArray) t i = some (l, data) →
      pairAt (circular (trackFrames t trk).toArray) t j = some (l, data') → i = j := by
  have hl : (trackFrames t trk).length = 6656 := trackFrames_length t trk
  have ha : (trackFrames t trk).toArray = (trackOf t trk).toArray := rfl
  rw [hl, ha]
  refine ⟨by omega, ?_⟩
  have key : ∀ i l data, i < 6656 → pairAt (circular (trackOf t trk).toArray) t i = some (l, data) →
      ∃ p : Fin Config.nSectors, i = 416 * p.val + 47 ∧ interleave[p] = l := by
    intro i l data hi h
    obtain ⟨h0, h2⟩ := pairAt_prologue h
    have hpi : i / 416 < Config.nSectors := by simp only [Config.nSectors]; omega
    obtain ⟨p, o, ho, rfl⟩ : ∃ (p : Fin Config.nSectors) (o : Nat), o < 416 ∧ i = 416 * p.val + o :=
      ⟨⟨i / 416, hpi⟩, i % 416, by omega, by simp only; omega⟩
    obtain rfl := trackOf_prologue t trk p o ho h0 h2
    exact ⟨p, rfl, pairAt_sector (addressFieldAt_trackOf t trk p) h⟩
  intro i j l data data' hi hj h1 h2
  obtain ⟨p, rfl, hp⟩ := key i l data hi h1
  obtain ⟨q, rfl, hq⟩ := key j l data' hj h2
  rw [interleave_injective p q (hp.trans hq.symm)]

/-- No image; a SECTOR image and a NIBBLE image; no buffer, a clean one and a dirty one. -/
theorem witness_TbloadLoadsTrackUnderHead :
    (State.reset.drive .d0).img = none ∧
    ((loaded true true).drive .d0).img = some diskZ ∧
    diskZ.layout = .sector ∧ ((withDrive (running (some diskN) none) true).drive .d0).img = some diskN ∧
    diskN.layout = .nibble := ⟨rfl, rfl, rfl, rfl, rfl⟩

/-- With and without a buffer, at the last index. -/
theorem witness_TbreadReadsAtCursor :
    ((loaded false false).drive .d0).img = some diskZ ∧
    (syncBuffer false).cur.val = 6655 ∧ ((withDrive (running (some diskZ) none) false).drive .d0).tb = none :=
  ⟨rfl, rfl, rfl⟩

theorem witness_TbwriteWritesAtCursor :
    (withDrive (running (some diskZ) none) false).ctl.wmode = false ∧
    (withDrive (running (some diskZ) none) true).ctl.wmode = true ∧
    ((withDrive (running (some diskZ) none) true).drive .d0).wpo = false ∧ diskZ.ro = false ∧
    ((withDrive { running (some diskZ) none with wpo := true } true).drive .d0).wpo = true ∧
    ({ diskZ with ro := true } : Disk).ro = true := ⟨rfl, rfl, rfl, rfl, rfl, rfl⟩

theorem witness_TbflushWritesBack :
    (∀ tb, (State.reset.drive .d0).tb = some tb → tb.dirty = false) ∧
    (∀ tb, ((loaded false true).drive .d0).tb = some tb →
      tb.dirty = false) ∧
    ((loaded true true).drive .d0).tb = some (syncBuffer true) ∧
    ((loaded true true).drive .d0).img = some diskZ ∧
    ((withDrive (running (some diskN) (some (syncBuffer true))) true).drive .d0).img = some diskN ∧
    (syncBuffer true).dirty = true ∧ diskZ.layout = .sector ∧ diskN.layout = .nibble :=
  ⟨(fun _ h => nomatch h), (by rintro _ ⟨⟩; rfl), rfl, rfl, rfl, rfl, rfl, rfl⟩

theorem witness_CircularCursor :
    ((loaded false true).drive .d0).img = some diskZ ∧
    ((loaded false true).drive .d0).tb = some (syncBuffer false) :=
  ⟨rfl, rfl⟩

/-- A writable image under the override with a clean buffer, and a protected write over it. -/
theorem witness_ReadOnlyImageNeverWritten_override :
    let s := withDrive { running (some diskZ) (some (syncBuffer false)) with wpo := true } true
    (∃ t, exec (.tbwrite .d0 0x00) s = .next t) ∧ (s.drive .d0).img = some diskZ ∧ diskZ.ro = false ∧
      (s.drive .d0).wpo = true ∧ ∀ tb, (s.drive .d0).tb = some tb → tb.dirty = false :=
  ⟨⟨_, rfl⟩, rfl, rfl, rfl, by rintro _ ⟨⟩; rfl⟩

/-- A read-only image with a clean buffer, and a protected write over it. -/
theorem witness_ReadOnlyImageNeverWritten :
    let s := withDrive (running (some { diskZ with ro := true }) (some (syncBuffer false))) true
    s.Inv ∧ s.ReadOnlyClean ∧ (∃ t, exec (.tbwrite .d0 0x00) s = .next t) ∧
      (s.drive .d0).img = some { diskZ with ro := true } := by
  refine ⟨withDrive_inv (running_ok diskZ_ok rfl) (by rintro _ ⟨⟩; rfl), ?_, ⟨_, rfl⟩, rfl⟩
  intro d k tb _ _ h
  cases d
  · obtain rfl := Option.some.inj h; rfl
  · cases h

theorem witness_RewriteOfLoadedTrackChangesNothing :
    diskZ.layout = .sector ∧
    ((withDrive (running (some diskZ) (some { diskZ.freshBuffer 0 with cur := 6655, dirty := true })) true).drive
        .d0).tb =
      some { diskZ.freshBuffer 0 with cur := 6655, dirty := true } := ⟨rfl, rfl⟩

/-- No new line; one new line that moves within a track, that changes the track, and that is clamped at either end. -/
theorem witness_DstepMovesHead :
    (∀ p : Fin Config.nPhases, (0b0000 : BitVec 4) &&& ~~~(0b0001 : BitVec 4) ≠ 1#4 <<< p.val) ∧
    (0b0010 : BitVec 4) &&& ~~~(0b0001 : BitVec 4) = 1#4 <<< (1 : Fin Config.nPhases).val ∧
    moveHead 10 1 = 11 ∧ moveHead 11 1 = 12 ∧ moveHead 0 (-1) = 0 ∧ moveHead 69 1 = 69 ∧
    (syncBuffer true).track.val ≠ (moveHead 1 1).val / 2 ∧
    (syncBuffer true).track.val = (moveHead 0 1).val / 2 := by
  decide

/-- The line of the last phase on, each of the four phases next. -/
theorem witness_StepperLaws :
    let s := withDrive { running none none with phases := 0b0001, half := 69 } false
    s.ctl.sel = some .d0 ∧ (3 : Byte).toNat < 4 ∧ (s.drive .d0).phases = 1#4 <<< (s.drive .d0).last.val ∧
    ∀ ph : Fin 4, ∃ t, exec (.step (BitVec.ofNat 8 ph.val)) s = .next t := by
  refine ⟨rfl, by decide, by decide, ?_⟩
  intro ph
  match ph with
  | 0 => exact ⟨_, rfl⟩
  | 1 => exact ⟨_, rfl⟩
  | 2 => exact ⟨_, rfl⟩
  | 3 => exact ⟨_, rfl⟩

theorem witness_DiswpSensesProtection :
    ((withDrive { running none none with wpo := true } true).drive .d0).wpo = true ∧
    (∃ k, ((withDrive (running (some { diskZ with ro := true }) none) true).drive .d0).img = some k ∧
      k.ro = true) ∧
    ¬ ((State.reset.drive .d0).wpo = true ∨ ∃ k, (State.reset.drive .d0).img = some k ∧ k.ro = true) := by
  refine ⟨rfl, ⟨_, rfl, rfl⟩, ?_⟩
  rintro (h | ⟨_, h, _⟩) <;> cases h

theorem witness_ResetTwiceIsReset :
    ∃ t u, exec .reset (loaded false true) = .next t ∧
      exec .reset t = .next u := ⟨_, _, rfl, rfl⟩

theorem witness_SelectChoosesDrive :
    1 < (2 : Byte).toNat ∧ (0 : Byte) = (if DriveId.d0 = DriveId.d0 then 0 else 1) ∧
    (1 : Byte) = (if DriveId.d1 = DriveId.d0 then 0 else 1) := by decide

theorem witness_SelectSelectedChangesNothing :
    (loaded true true).CtlInv ∧
    (loaded true true).ctl.sel = some .d0 ∧ driveIndex 0 = some .d0 :=
  ⟨loaded_ctlInv _ _ _, rfl, rfl⟩

theorem witness_RwbyteTransfersByte :
    State.reset.ctl.sel = none ∧ (withDrive (running none none) false).ctl.sel = some .d0 ∧
    (withDrive (running none none) false).ctl.wmode = false ∧
    (withDrive (running none none) true).ctl.wmode = true := ⟨rfl, rfl, rfl, rfl⟩

/-- STEP with its line on already and with its line off, at the last phase index. -/
theorem witness_NoMediaInSelectedDrive :
    let s := fun phases => withDrive { running none none with phases := phases } true
    ∀ phases, (s phases).ctl.sel = some .d0 ∧ ((s phases).drive .d0).img = none ∧ ((s phases).drive .d0).tb = none ∧
      (3 : Byte).toNat = (3 : Fin Config.nPhases).val ∧
      ((s 0b1000).drive .d0).phases.getLsbD 3 = true ∧ ((s 0b0001).drive .d0).phases.getLsbD 3 = false :=
  fun _ => ⟨rfl, rfl, rfl, by decide, by decide, by decide⟩

theorem witness_StepForwardsPhase :
    3 < (4 : Byte).toNat ∧ (3 : Byte).toNat ≤ 3 ∧ State.reset.ctl.sel = none ∧
    (withDrive (running none none) true).ctl.sel = some .d0 := ⟨by decide, by decide, rfl, rfl⟩

/-- A drive out of range, an occupied drive, an image one byte too long, an image of the right length. -/
theorem witness_InsertAttachesImage :
    1 < (2 : Byte).toNat ∧ ((withDrive (running (some diskZ) none) true).drive .d0).img ≠ none ∧
    ((presenting (.image 0)).drive .d0).img = none ∧ (presenting (.image 0)).sideIn = .image 0 ∧
    (presenting (.image 0)).store[0]? = some (some imgZ) ∧
    imgZ.len = (if imgZ.layout = .sector then 143360 else 232960) ∧
    ({ imgZ with len := 143361 } : HostImage).len ≠ (if imgZ.layout = .sector then 143360 else 232960) := by
  refine ⟨by decide, (by decide : (some diskZ : Option Disk) ≠ none), rfl, rfl, rfl, by decide, by decide⟩

/-- An empty place whose image drive 0 holds, one that no drive's image left, no place and no image at all. -/
theorem witness_InsertAttachesImage_absent :
    (withDrive (running (some diskZ) none) true).store[0]? = some none ∧
    ((withDrive (running (some diskZ) none) true).drive .d0).img = some diskZ ∧ diskZ.name = 0 ∧
    ((withDrive (running (some diskZ) none) true).drive .d1).img = none ∧
    (∀ e k, ((withDrive (running none none) true).drive e).img = some k → k.name ≠ 0) ∧
    (presenting (.image 1)).store[1]? = none ∧ State.reset.sideIn = .none :=
  ⟨rfl, rfl, rfl, rfl, fun e k hk => (by cases e <;> cases hk), rfl, rfl⟩

theorem witness_EjectDetachesImage :
    (State.reset.drive .d0).img = none ∧
    ((loaded true true).drive .d0).img = some diskZ := ⟨rfl, rfl⟩

theorem witness_EjectUndoesInsert :
    (presenting (.image 0)).Inv ∧ driveIndex 0 = some .d0 ∧ ((presenting (.image 0)).drive .d0).img = none ∧
    ∃ t, exec (.insert 0) (presenting (.image 0)) = .next t ∧ t.resp.status = .ok ∧
      ∃ u, exec (.eject 0) t = .next u := by
  refine ⟨⟨fun d => by cases d <;> exact Drive.ok_powerOn, fun h hh => ?_, fun d k hk => ?_, fun k0 k1 h0 _ => ?_⟩,
    rfl, rfl, _, rfl, by decide, _, rfl⟩
  · have : h = imgZ := by simpa [presenting] using hh
    exact this ▸ imgZ_ok
  · cases d <;> cases hk
  · cases h0

theorem witness_IswpSensesSelected :
    State.reset.ctl.sel = none ∧ (withDrive (running none none) true).ctl.sel = some .d0 := ⟨rfl, rfl⟩

theorem witness_PseudoInstructionsExpand : 0 < 1 ∧ (0 : Fin Config.nPhases).val = 0 := by decide

/-- The bounds of the index clauses of R97, R98 and R102. -/
theorem witness_FormatIndices :
    85 < 86 ∧ 255 < 256 ∧ 0 < 341 ∧ 341 < 342 ∧ 46 < 47 ∧ 61 ≤ 61 ∧ 66 < 67 := by decide

/-- The data prologue at the first and at the last candidate position, and one place past it. -/
theorem witness_DataPrologueIsFirstInWindow :
    let g := fun n k : Nat =>
      if k = n then (0xD5 : Byte) else if k = n + 1 then 0xAA else if k = n + 2 then 0xAD else 0xFF
    dataPrologueAfter (g 14) 0 = some 14 ∧ dataPrologueAfter (g 46) 0 = some 46 ∧
    dataPrologueAfter (g 47) 0 = none := by decide

/-- An address field stands where the encoder put it, in every track and frame. -/
theorem witness_AddressFieldAccepted (t : Fin Config.nTracks) (trk : Vector Byte Config.trackBytes)
    (p : Fin Config.nSectors) :
    addressFieldAt (circular (trackOf t trk).toArray) t (416 * p.val + 47) = some p :=
  addressFieldAt_trackOf t trk p

theorem witness_CodecRoundTrip : (34 : Byte).toNat ≤ 34 ∧ (0 : Byte).toNat ≤ 34 := by decide

end Sys2Proof.Tests
end

