-- ==== Sys2Proof/Proofs/Step.lean ====
section
/-! The cases of one step (R15, R84, R265): one equation for each branch of `step`, and the statement that a step performs
what the next command word decodes to. -/

namespace Sys2Proof.Machine

section step
variable {s : State} {c : Command} {rest : List Command}

theorem step_of_queue_nil (hq : s.queue = []) : step s = .next s := by
  unfold step
  rw [hq]

theorem step_of_decode_ok {i : Instr} (hq : s.queue = c :: rest) (hd : decode c.word = .ok i) :
    step s = exec i (s.issue c rest) := by
  simp only [step, hq, hd]

theorem step_of_decode_error {e : DecodeError} (hq : s.queue = c :: rest) (hd : decode c.word = .error e) :
    step s = .next ((s.issue c rest).raise (decodeStatus e)) := by
  simp only [step, hq, hd]

end step

/-- Settles O5: the decoded command is performed on the state that issued it (`State.issue`), and the empty list leaves the
machine idle. -/
theorem stepRunsDecoded : Obligations.StepRunsDecoded :=
  ⟨fun _ _ _ _ hq hd => step_of_decode_ok hq hd, fun _ hq => step_of_queue_nil hq⟩

end Sys2Proof.Machine
end

