-- ==== Sys2Proof/Proofs/Images.lean ====
section
/-! The invariant of the machine (R39 items 1, 2, 4 and 5, R256, R265). An operation keeps every image where it is, or
takes one from the host (INSERT), or gives one back (EJECT): `Effect.images_cases`. The invariant, and that every empty
place of the host's store is that of an attached image, are proved for each of the three. -/

namespace Sys2Proof.Machine

/-- Every image is in `t` where it was in `s`, and each sound drive is still sound. -/
def State.KeepsImages (s t : State) : Prop :=
  t.store = s.store ∧ (∀ d, (t.drive d).img.map Disk.name = (s.drive d).img.map Disk.name) ∧
    ∀ d, (s.drive d).ok → (t.drive d).ok

section keepsImages
variable {s t : State}

theorem State.keepsImages_of_eq (hd : ∀ d, t.drive d = s.drive d) (hs : t.store = s.store) : s.KeepsImages t :=
  ⟨hs, fun d => by rw [hd], fun d h => by rwa [hd]⟩

theorem State.keepsImages_issue (s : State) (c : Command) (rest : List Command) : s.KeepsImages (s.issue c rest) :=
  State.keepsImages_of_eq (fun _ => by simp) rfl

theorem State.keepsImages_respond (s : State) (r : Response) (out : SideResult) : s.KeepsImages (s.respond r out) :=
  State.keepsImages_of_eq (fun _ => by simp) rfl

theorem State.keepsImages_setDrive {d : DriveId} {x : Drive}
    (hn : x.img.map Disk.name = (s.drive d).img.map Disk.name) (ho : (s.drive d).ok → x.ok) :
    s.KeepsImages (s.setDrive d x) :=
  ⟨by simp, forall_drive d (by simpa using hn) (by simp), forall_drive d (by simpa using ho) (by simp)⟩

theorem State.KeepsImages.inv (h : s.KeepsImages t) (hi : s.Inv) : t.Inv := by
  obtain ⟨hs, hn, ho⟩ := h
  obtain ⟨hd, hh, ha⟩ := hi
  exact ⟨fun d => ho d (hd d), hs ▸ hh, State.imagesApart_congr ha hs hn⟩

theorem State.KeepsImages.placesHeld (h : s.KeepsImages t) (hp : s.placesHeld) : t.placesHeld :=
  State.placesHeld_congr hp h.1 h.2.1

end keepsImages

/-- Everything an operation can do to the images: keep them, attach one of the host's, or give one back. -/
theorem Effect.images_cases {s u : State} {i : Instr} (he : Effect s i u) :
    s.KeepsImages u ∨
    (∃ d name h, (s.drive d).img = none ∧ s.store[name]? = some (some h) ∧ h.len = h.layout.bytes ∧
      u = s.attach d name h) ∨
    ∃ d k, (s.drive d).img = some k ∧ u = (s.detach d).1 := by
  cases he with
  | insert _ d name h _ hn _ hst hl => exact .inr (.inl ⟨d, name, h, hn, hst, hl, rfl⟩)
  | eject _ d k _ hk => exact .inr (.inr ⟨d, k, hk, rfl⟩)
  | drive _ d x hx => exact .inl (State.keepsImages_setDrive hx.name hx.ok)
  | commit d =>
    obtain ⟨hs, hn, ho⟩ := State.keepsImages_setDrive (s := s) (d := d)
      (x := (s.drive d).writeByte s.ctl.wmode s.ctl.latch) (by rw [Drive.writeByte_img])
      (Drive.writeByte_ok · _ _)
    refine .inl ⟨?_, fun e => ?_, fun e => ?_⟩
    · rw [State.commitLatch_eq]; exact hs
    · rw [State.commitLatch_draw_drive]; exact hn e
    · rw [State.commitLatch_draw_drive]; exact ho e
  | reset =>
    exact .inl ⟨rfl, fun d => by simpa using Drive.enable_name _ false,
      fun d h => by simpa using Drive.enable_ok h false⟩
  | select _ d =>
    exact .inl ⟨by simp,
      forall_drive d (by simpa using Drive.enable_name _ true) (by simpa using Drive.enable_name _ false),
      forall_drive d (fun h => by simpa using Drive.enable_ok h true) (fun h => by simpa using Drive.enable_ok h false)⟩
  | quiet | mode | latch | drawByte | drawSense =>
    exact .inl (State.keepsImages_of_eq (fun d => by cases d <;> rfl) rfl)

/-- The second clause of `State.imagesApart`, seen from either drive. -/
theorem State.imagesApart_iff (s : State) (d : DriveId) :
    s.imagesApart ↔ (∀ e k, (s.drive e).img = some k → s.store[k.name]? = some none) ∧
      ∀ k k', (s.drive d).img = some k → (s.drive (driveOther d)).img = some k' → k.name ≠ k'.name := by
  cases d with
  | d0 => exact Iff.rfl
  | d1 =>
    exact and_congr_right fun _ =>
      ⟨fun h k k' hk hk' => (h k' k hk' hk).symm, fun h k k' hk hk' => (h k' k hk' hk).symm⟩

section attach
variable {s : State} {d : DriveId} {name : Nat} {h : HostImage}

theorem HostImage.attached_ok (ho : h.ok) (hl : h.len = h.layout.bytes) (name : Nat) : (h.attached name).ok :=
  ⟨ho.1, hl ▸ ho.2⟩

theorem Drive.attached_ok {x : Drive} (hx : x.ok) {k : Disk} (hk : k.ok) : Drive.ok { x with img := some k } :=
  ⟨fun _ => rfl, hx.2.1, by rintro _ ⟨⟩; exact hk⟩

theorem State.attach_imagesApart (hst : s.store[name]? = some (some h)) (ha : s.imagesApart) :
    (s.attach d name h).imagesApart := by
  obtain ⟨hlt, -⟩ := List.getElem?_eq_some_iff.mp hst
  have apart : ∀ e k, (s.drive e).img = some k → k.name ≠ name := by
    rintro e k hk rfl
    simp [ha.1 e k hk] at hst
  refine ((s.attach d name h).imagesApart_iff d).mpr ⟨forall_drive d ?_ ?_, ?_⟩
  · intro k hk
    obtain rfl : h.attached name = k := by simpa using hk
    simp [HostImage.attached, hlt]
  · intro k hk
    have hk : (s.drive (driveOther d)).img = some k := by simpa using hk
    simp [List.getElem?_set_ne (apart _ k hk).symm, ha.1 _ k hk]
  · intro k k' hk hk'
    obtain rfl : h.attached name = k := by simpa using hk
    exact (apart _ k' (by simpa using hk')).symm

/-- INSERT keeps the invariant: the host's image is sound and of its layout's length, and its place is emptied. -/
theorem State.attach_inv (hst : s.store[name]? = some (some h)) (hl : h.len = h.layout.bytes) (hi : s.Inv) :
    (s.attach d name h).Inv := by
  obtain ⟨hd, hh, ha⟩ := hi
  have ho : h.ok := hh h (List.mem_of_getElem? hst)
  refine ⟨forall_drive d ?_ ?_, fun g hg => ?_, State.attach_imagesApart hst ha⟩
  · simpa using Drive.attached_ok (hd d) (HostImage.attached_ok ho hl name)
  · simpa using hd (driveOther d)
  · rw [State.attach_store] at hg
    exact hh g ((List.mem_or_eq_of_mem_set hg).resolve_right (by simp))

theorem State.attach_placesHeld (hn : (s.drive d).img = none) (hp : s.placesHeld) :
    (s.attach d name h).placesHeld := by
  intro m hm
  rw [State.attach_store] at hm
  by_cases hmn : name = m
  · exact ⟨d, h.attached name, by simp, hmn⟩
  · rw [List.getElem?_set_ne hmn] at hm
    obtain ⟨e, k, hk, hkm⟩ := hp m hm
    have hed : e ≠ d := by rintro rfl; simp [hn] at hk
    obtain rfl := eq_driveOther_of_ne hed
    exact ⟨driveOther d, k, by simpa using hk, hkm⟩

end attach

section detach
variable {s : State} {d : DriveId} {k : Disk}

theorem Disk.returned_ok (hk : k.ok) : k.returned.ok := hk

/-- What EJECT gives back to the host (R197): the image as the flush leaves it. -/
theorem State.detach_store (hf : (s.drive d).flush.1.img = some k) :
    (s.detach d).1.store = s.store.set k.name (some k.returned) := by
  simp [State.detach, hf]

theorem State.detach_imagesApart (hk : (s.drive d).img = some k) (ha : s.imagesApart) :
    (s.detach d).1.imagesApart := by
  obtain ⟨k0, hf, hname, -⟩ := (s.drive d).flush_img hk
  refine ((s.detach d).1.imagesApart_iff d).mpr ⟨forall_drive d (by simp) fun k' hk' => ?_, by simp⟩
  have hk' : (s.drive (driveOther d)).img = some k' := by simpa using hk'
  have hne : k0.name ≠ k'.name := hname ▸ ((s.imagesApart_iff d).mp ha).2 k k' hk hk'
  rw [State.detach_store hf, List.getElem?_set_ne hne]
  exact ha.1 _ k' hk'

/-- EJECT keeps the invariant: the image goes back sound, into its own place. -/
theorem State.detach_inv (hk : (s.drive d).img = some k) (hi : s.Inv) : (s.detach d).1.Inv := by
  obtain ⟨hd, hh, ha⟩ := hi
  obtain ⟨k', hf, -, -, -, hok⟩ := (s.drive d).flush_img hk
  refine ⟨forall_drive d ?_ ?_, fun g hg => ?_, State.detach_imagesApart hk ha⟩
  · simp [Drive.ok]
  · simpa using hd (driveOther d)
  · rw [State.detach_store hf] at hg
    rcases List.mem_or_eq_of_mem_set hg with hg | hg
    · exact hh g hg
    · obtain rfl := Option.some.inj hg
      exact Disk.returned_ok (hok ((hd d).2.2 k hk))

theorem State.detach_placesHeld (hk : (s.drive d).img = some k) (hp : s.placesHeld) : (s.detach d).1.placesHeld := by
  intro m hm
  obtain ⟨k', hf, hname, -⟩ := (s.drive d).flush_img hk
  rw [State.detach_store hf] at hm
  have hne : k'.name ≠ m := by
    rintro rfl
    simp [List.getElem?_set_self'] at hm
  rw [List.getElem?_set_ne hne] at hm
  obtain ⟨e, k0, hk0, rfl⟩ := hp m hm
  have hed : e ≠ d := by
    rintro rfl
    obtain rfl : k = k0 := by simpa [hk] using hk0
    exact hne hname
  obtain rfl := eq_driveOther_of_ne hed
  exact ⟨driveOther d, k0, by simpa using hk0, rfl⟩

end detach

section keep
variable {s t : State} {i : Instr}

theorem exec_keeps_inv (h : exec i s = .next t) (hi : s.Inv) : t.Inv := by
  obtain ⟨u, r, out, he, -, rfl⟩ := exec_effect h
  refine (u.keepsImages_respond r out).inv ?_
  rcases he.images_cases with hk | ⟨d, name, g, -, hst, hl, rfl⟩ | ⟨d, k, hk, rfl⟩
  · exact hk.inv hi
  · exact State.attach_inv hst hl hi
  · exact State.detach_inv hk hi

theorem exec_keeps_placesHeld (h : exec i s = .next t) (hp : s.placesHeld) : t.placesHeld := by
  obtain ⟨u, r, out, he, -, rfl⟩ := exec_effect h
  refine (u.keepsImages_respond r out).placesHeld ?_
  rcases he.images_cases with hk | ⟨d, name, g, hn, -, -, rfl⟩ | ⟨d, k, hk, rfl⟩
  · exact hk.placesHeld hp
  · exact State.attach_placesHeld hn hp
  · exact State.detach_placesHeld hk hp

/-- Everything a step can do (R15, R84, R265): nothing, a legal word's operation, or the report of an illegal one. -/
theorem step_cases (h : step s = .next t) :
    t = s ∨ (∃ c rest i, exec i (s.issue c rest) = .next t) ∨ ∃ c rest code, t = (s.issue c rest).raise code := by
  cases hq : s.queue with
  | nil => exact .inl (next_inj (step_of_queue_nil hq ▸ h)).symm
  | cons c rest =>
    cases hd : decode c.word with
    | ok i => exact .inr (.inl ⟨c, rest, i, step_of_decode_ok hq hd ▸ h⟩)
    | error e => exact .inr (.inr ⟨c, rest, _, (next_inj (step_of_decode_error hq hd ▸ h)).symm⟩)

end keep

/-- Settles O10: issuing a command and answering it move no image; what the operation between them does is
`exec_keeps_inv` and `exec_keeps_placesHeld`. -/
theorem stepKeepsInvariant : Obligations.StepKeepsInvariant := by
  intro s t h
  rcases step_cases h with rfl | ⟨c, rest, i, h⟩ | ⟨c, rest, code, rfl⟩
  · exact ⟨id, id⟩
  · have issued := s.keepsImages_issue c rest
    exact ⟨fun hi => exec_keeps_inv h (issued.inv hi), fun hp => exec_keeps_placesHeld h (issued.placesHeld hp)⟩
  · have raised : s.KeepsImages ((s.issue c rest).raise code) := State.keepsImages_of_eq (fun _ => by simp) rfl
    exact ⟨raised.inv, raised.placesHeld⟩

theorem State.reset_drive (d : DriveId) : State.reset.drive d = Drive.powerOn := by cases d <;> rfl

/-- Settles O9: at power-on each drive is `Drive.powerOn` and the host's store is empty. -/
theorem powerOnStateSound : Obligations.PowerOnStateSound := by
  have img : ∀ d, (State.reset.drive d).img = none := fun d => by rw [State.reset_drive]; rfl
  refine ⟨⟨fun d => ?_, ?_, ?_, ?_⟩, fun d => ?_, ?_, ?_⟩
  · rw [State.reset_drive]; exact Drive.ok_powerOn
  · intro h hh; cases hh
  · intro d k hk; simp [img] at hk
  · intro k0 _ hk0; cases hk0
  · rw [State.reset_drive]; exact ⟨rfl, rfl, fun h => by cases h⟩
  · intro d k _ hk; simp [img] at hk
  · intro name hn; cases hn

end Sys2Proof.Machine
end

