-- ==== Sys2Proof/Proofs/Frames.lean ====
section
/-! Which registers of a drive each shared operation leaves alone (R25 to R32), and `exec_driveChange`: everything an
operation can do to one drive, said once from that drive's side. -/

namespace Sys2Proof.Machine

section frames
variable (x : Drive)

theorem Drive.flush_frame : ∃ img tb, x.flush.1 = { x with img := img, tb := tb } := by
  rcases x.flush_cases with h | ⟨tb, k, _, _, _, h⟩
  · exact ⟨x.img, x.tb, congrArg Prod.fst h⟩
  · exact ⟨_, _, congrArg Prod.fst h⟩

theorem Drive.load_frame : ∃ img tb, x.load.1 = { x with img := img, tb := tb } := by
  rcases x.load_cases with ⟨_, h⟩ | ⟨k, _, _, h⟩
  · exact ⟨x.img, x.tb, congrArg Prod.fst h⟩
  · obtain ⟨img, tb, hf⟩ := x.flush_frame
    exact ⟨img, _, by rw [h, hf]⟩

theorem Drive.readByte_frame : ∃ tb, x.readByte.2 = { x with tb := tb } := by
  rcases x.img.eq_none_or_eq_some with hk | ⟨k, hk⟩
  · exact ⟨x.tb, congrArg Prod.snd (Drive.readByte_none hk)⟩
  · exact ⟨_, congrArg Prod.snd (Drive.readByte_some hk)⟩

/-- A byte write does nothing, or gives the drive a buffer. -/
theorem Drive.writeByte_cases (w : Bool) (b : Byte) :
    x.writeByte w b = x ∨ ∃ tb, x.writeByte w b = { x with tb := some tb } := by
  rcases x.img.eq_none_or_eq_some with hk | ⟨k, hk⟩
  · exact .inl (Drive.writeByte_none hk w b)
  · cases w with
    | false => exact .inl (x.writeByte_readMode b)
    | true =>
      cases hp : x.wp with
      | true => exact .inr ⟨_, Drive.writeByte_protected hk hp b⟩
      | false => exact .inr ⟨_, Drive.writeByte_stored hk hp b⟩

theorem Drive.writeByte_frame (w : Bool) (b : Byte) : ∃ tb, x.writeByte w b = { x with tb := tb } := by
  rcases x.writeByte_cases w b with h | ⟨tb, h⟩
  · exact ⟨x.tb, h⟩
  · exact ⟨some tb, h⟩

theorem Drive.flush_tb_none {x : Drive} (hx : x.tb = none) : x.flush.1.tb = none := by
  rw [Drive.flush_clean (by simp [hx])]
  exact hx

/-- A drive without a buffer has none after a step: a step loads nothing. -/
theorem Drive.step_tb_none {x : Drive} (hx : x.tb = none) (m : BitVec 4) : (x.step m).1.tb = none := by
  rcases x.step_cases m with ⟨_, h⟩ | ⟨_, _, ⟨_, h⟩ | ⟨_, h⟩⟩ <;> simp [h, hx]

theorem Drive.enable_tb_none {x : Drive} (hx : x.tb = none) (e : Bool) : (x.enable e).1.tb = none := by
  cases e with
  | true => exact hx
  | false => rfl

theorem Drive.enable_position (e : Bool) :
    (x.enable e).1.half = x.half ∧ (x.enable e).1.phases = x.phases ∧ (x.enable e).1.last = x.last := by
  cases e with
  | true => exact ⟨rfl, rfl, rfl⟩
  | false => simp [Drive.enable_false]

theorem Drive.enable_wpo (e : Bool) : (x.enable e).1.wpo = x.wpo := by
  cases e with
  | true => rfl
  | false => exact x.unload_wpo

end frames

/-- What an operation can do to drive `d`, from that drive's side. -/
inductive DriveChange (s : State) (i : Instr) (d : DriveId) : Drive → Prop where
  /-- The operation leaves the drive alone. -/
  | same : DriveChange s i d (s.drive d)
  /-- It is an operation on this drive. -/
  | own (x : Drive) : DriveEffect s i d x → DriveChange s i d x
  /-- RWBYTE commits the latch to the selected drive (R194). -/
  | committed : i = .rwbyte → s.ctl.sel = some d →
      DriveChange s i d ((s.drive d).writeByte s.ctl.wmode s.ctl.latch)
  /-- SELECT or RESET turns it on or off (R191, R250). -/
  | powered (e : Bool) : (∃ n, i = .select n) ∨ i = .reset → DriveChange s i d ((s.drive d).enable e).1
  /-- INSERT (R196). -/
  | attached (n : Byte) (k : Disk) : i = .insert n → driveIndex n = some d → (s.drive d).img = none →
      DriveChange s i d { s.drive d with img := some k }
  /-- EJECT (R197). -/
  | detached (n : Byte) : i = .eject n → driveIndex n = some d →
      DriveChange s i d { (s.drive d).unload.1 with img := none }

/-- A drive that was written has changed, every other is as it was. -/
theorem DriveChange.of_setDrive {s : State} {i : Instr} {d : DriveId} {x : Drive} (h : DriveChange s i d x)
    (e : DriveId) : DriveChange s i e ((s.setDrive d x).drive e) := by
  rw [State.setDrive_drive]
  split
  · next he => exact he ▸ h
  · exact .same

theorem Effect.driveChange {s u : State} {i : Instr} (he : Effect s i u) : ∀ d, DriveChange s i d (u.drive d) := by
  cases he with
  | quiet | mode | latch | drawByte | drawSense => exact fun d => by cases d <;> exact .same
  | drive _ d x hx => exact (DriveChange.own x hx).of_setDrive
  | commit d hs => exact fun e => State.commitLatch_draw_drive s d e ▸ (DriveChange.committed rfl hs).of_setDrive e
  | reset => exact fun d => s.deselectAll_drive d ▸ .powered false (.inr rfl)
  | select n d =>
    exact forall_drive d (s.switchTo_drive_same d ▸ .powered true (.inl ⟨n, rfl⟩))
      (s.switchTo_drive_other d ▸ .powered false (.inl ⟨n, rfl⟩))
  | insert n d name h hd hn =>
    exact forall_drive d (s.attach_drive_same d name h ▸ .attached n _ rfl hd hn)
      (s.attach_drive_other d name h ▸ .same)
  | eject n d k hd =>
    exact forall_drive d (s.detach_drive_same d ▸ .detached n rfl hd) (s.detach_drive_other d ▸ .same)

theorem exec_driveChange {i : Instr} {s t : State} (h : exec i s = .next t) (d : DriveId) :
    DriveChange s i d (t.drive d) := by
  obtain ⟨u, r, out, he, -, rfl⟩ := exec_effect h
  simpa using he.driveChange d

end Sys2Proof.Machine
end

