-- ==== Sys2Proof/Proofs/Selection.lean ====
section
/-! The selection invariant (R39 item 7). `Drive.poweredAs` says of one drive what `State.CtlInv` says of both; the
motor operation brings it about, and the byte and step operations of the selected drive keep it. -/

namespace Sys2Proof.Machine

/-- Motor and light both stand at `on`, and a drive that is off holds no buffer. -/
def Drive.poweredAs (x : Drive) (on : Bool) : Prop :=
  x.motor = on ∧ x.light = on ∧ (x.tb.isSome = true → on = true)

theorem State.ctlInv_iff (s : State) : s.CtlInv ↔ ∀ d, (s.drive d).poweredAs (decide (s.ctl.sel = some d)) := by
  simp only [State.CtlInv, Drive.poweredAs, decide_eq_true_eq]

section drive
variable {x : Drive}

theorem Drive.enable_poweredAs (x : Drive) (e : Bool) : (x.enable e).1.poweredAs e := by
  cases e with
  | true => simp [Drive.enable_true, Drive.poweredAs]
  | false => simp [Drive.enable_false, Drive.poweredAs]

theorem Drive.readByte_poweredAs (hx : x.poweredAs true) : x.readByte.2.poweredAs true := by
  obtain ⟨tb, h⟩ := x.readByte_frame
  exact h ▸ ⟨hx.1, hx.2.1, fun _ => rfl⟩

theorem Drive.writeByte_poweredAs (hx : x.poweredAs true) (w : Bool) (b : Byte) :
    (x.writeByte w b).poweredAs true := by
  obtain ⟨tb, h⟩ := x.writeByte_frame w b
  exact h ▸ ⟨hx.1, hx.2.1, fun _ => rfl⟩

theorem Drive.step_poweredAs (hx : x.poweredAs true) (m : BitVec 4) : (x.step m).1.poweredAs true :=
  ⟨by simpa using hx.1, by simpa using hx.2.1, fun _ => rfl⟩

end drive

section state
variable {s u : State}

theorem State.CtlInv.congr (hs : s.CtlInv) (hd : ∀ d, u.drive d = s.drive d) (hc : u.ctl.sel = s.ctl.sel) :
    u.CtlInv := by
  simpa only [State.CtlInv, hd, hc] using hs

/-- The selected drive is on. -/
theorem State.CtlInv.selected {d : DriveId} (hs : s.CtlInv) (hd : s.ctl.sel = some d) : (s.drive d).poweredAs true := by
  simpa [hd] using s.ctlInv_iff.mp hs d

theorem State.CtlInv.setDrive_selected {d : DriveId} {x : Drive} (hs : s.CtlInv) (hd : s.ctl.sel = some d)
    (hx : x.poweredAs true) : (s.setDrive d x).CtlInv :=
  (State.ctlInv_iff _).mpr (forall_drive d (by simpa [hd] using hx) (by simpa using s.ctlInv_iff.mp hs (driveOther d)))

theorem State.deselectAll_ctlInv (s : State) : s.deselectAll.CtlInv :=
  (State.ctlInv_iff _).mpr fun d => by simpa using (s.drive d).enable_poweredAs false

theorem State.switchTo_ctlInv (s : State) (d : DriveId) : (s.switchTo d).CtlInv :=
  (State.ctlInv_iff _).mpr
    (forall_drive d (by simpa using (s.drive d).enable_poweredAs true)
      (by simpa using (s.drive (driveOther d)).enable_poweredAs false))

theorem State.CtlInv.attach (hs : s.CtlInv) (d : DriveId) (name : Nat) (h : HostImage) :
    (s.attach d name h).CtlInv := by
  have hp := s.ctlInv_iff.mp hs
  exact (State.ctlInv_iff _).mpr
    (forall_drive d (by simpa [Drive.poweredAs] using hp d) (by simpa using hp (driveOther d)))

theorem State.CtlInv.detach (hs : s.CtlInv) (d : DriveId) : (s.detach d).1.CtlInv := by
  have hp := s.ctlInv_iff.mp hs
  refine (State.ctlInv_iff _).mpr (forall_drive d ?_ (by simpa using hp (driveOther d)))
  obtain ⟨hm, hl, -⟩ := hp d
  exact ⟨by simpa using hm, by simpa using hl, fun h => by simp at h⟩

end state

/-- Of the operations on one drive, only the two of the selected drive are controller-level. -/
theorem DriveEffect.keeps_ctlInv {s : State} {i : Instr} {d : DriveId} {x : Drive} (hx : DriveEffect s i d x)
    (hi : Instr.controllerLevel i = true) (hs : s.CtlInv) : (s.setDrive d x).CtlInv := by
  cases hx with
  | readSelected _ hd => exact hs.setDrive_selected hd (Drive.readByte_poweredAs (hs.selected hd))
  | stepSelected _ _ m hd => exact hs.setDrive_selected hd (Drive.step_poweredAs (hs.selected hd) m)
  | load | read | write | flush | step | enable | override => cases hi

theorem Effect.keeps_ctlInv {s u : State} {i : Instr} (he : Effect s i u) (hi : Instr.controllerLevel i = true)
    (hs : s.CtlInv) : u.CtlInv := by
  cases he with
  | quiet | mode | latch | drawByte | drawSense => exact hs.congr (fun d => by cases d <;> rfl) rfl
  | drive _ _ _ hx => exact hx.keeps_ctlInv hi hs
  | commit d hd =>
    have written := hs.setDrive_selected hd (Drive.writeByte_poweredAs (hs.selected hd) s.ctl.wmode s.ctl.latch)
    exact written.congr (s.commitLatch_draw_drive d) (by simp [State.commitLatch_eq])
  | reset => exact s.deselectAll_ctlInv
  | select _ d => exact s.switchTo_ctlInv d
  | insert _ d name h => exact hs.attach d name h
  | eject _ d => exact hs.detach d

/-- Settles O11: the response that ends an operation touches neither a drive nor the selection. -/
theorem controllerOperationsKeepSelection : Obligations.ControllerOperationsKeepSelection := by
  intro i s t hi hs h
  obtain ⟨u, r, out, he, -, rfl⟩ := exec_effect h
  exact (he.keeps_ctlInv hi hs).congr (fun _ => by simp) rfl

end Sys2Proof.Machine
end

