-- ==== Sys2Proof/Proofs/Registers.lean ====
section
/-! What writes each register of the controller (R21 to R24) and of a drive (R25 to R32). -/

namespace Sys2Proof.Machine

/-- Everything an operation can do to the controller registers: each writer with the record after it. -/
theorem Effect.ctl_cases {s u : State} {i : Instr} (he : Effect s i u) :
    u.ctl = s.ctl ∨
    (∃ e, i = .setwm e ∧ u.ctl = { s.ctl with wmode := e }) ∨
    (∃ b, i = .ldlatch b ∧ u.ctl = { s.ctl with latch := b }) ∨
    (∃ n d, i = .select n ∧ u.ctl = { s.ctl with sel := some d }) ∨
    (∃ v, i = .rwbyte ∧ u.ctl = { s.ctl with pstat := s.ctl.pstat || v }) ∨
    (i = .reset ∧ u.ctl = { s.ctl with sel := none, wmode := false, pstat := false }) := by
  cases he with
  | quiet | drawByte | drawSense => exact .inl rfl
  | drive => exact .inl (by simp)
  | insert => exact .inl (by simp)
  | eject => exact .inl (by simp)
  | mode e => exact .inr (.inl ⟨e, rfl, rfl⟩)
  | latch b => exact .inr (.inr (.inl ⟨b, rfl, rfl⟩))
  | select n d => exact .inr (.inr (.inr (.inl ⟨n, d, rfl, rfl⟩)))
  | commit d => exact .inr (.inr (.inr (.inr (.inl ⟨_, rfl, congrArg State.ctl (s.commitLatch_eq d)⟩))))
  | reset => exact .inr (.inr (.inr (.inr (.inr ⟨rfl, rfl⟩))))

/-- Settles O15: each writer of `Effect.ctl_cases` changes only the registers it names. -/
theorem controllerRegisterWriters : Obligations.ControllerRegisterWriters := by
  intro i s t h
  obtain ⟨u, r, out, he, -, rfl⟩ := exec_effect h
  rw [State.respond_ctl]
  rcases he.ctl_cases with hc | ⟨e, rfl, hc⟩ | ⟨b, rfl, hc⟩ | ⟨n, d, rfl, hc⟩ | ⟨v, rfl, hc⟩ | ⟨rfl, hc⟩ <;> rw [hc]
  · simp
  · simp
  · simp
  · simp
  · cases hp : s.ctl.pstat <;> simp
  · simp

/-- R25 to R30: apart from its image and buffer, a drive is as it was, or the operation is one of the stepper, of the
motor or of the override. -/
theorem DriveChange.registers {s : State} {i : Instr} {d : DriveId} {y : Drive} (h : DriveChange s i d y) :
    (∃ img tb, y = { s.drive d with img := img, tb := tb }) ∨
    (((∃ m, i = .dstep d m) ∨ ∃ ph, i = .step ph ∧ s.ctl.sel = some d) ∧
      ∃ m, y = ((s.drive d).step m).1) ∨
    (((∃ e, i = .dsel d e) ∨ (∃ n, i = .select n) ∨ i = .reset) ∧ ∃ e, y = ((s.drive d).enable e).1) ∨
    ∃ v, i = .dsetwpo d v ∧ y = { s.drive d with wpo := v } := by
  cases h with
  | same => exact .inl ⟨_, _, rfl⟩
  | committed => exact .inl ⟨_, (s.drive d).writeByte_frame _ _⟩
  | powered e hi => exact .inr (.inr (.inl ⟨.inr hi, e, rfl⟩))
  | attached => exact .inl ⟨_, _, rfl⟩
  | detached =>
    obtain ⟨img, tb, hf⟩ := (s.drive d).flush_frame
    exact .inl ⟨none, none, by simp only [Drive.unload, hf]⟩
  | own x hx =>
    cases hx with
    | load => exact .inl (s.drive d).load_frame
    | read => exact .inl ⟨_, (s.drive d).readByte_frame⟩
    | readSelected => exact .inl ⟨_, (s.drive d).readByte_frame⟩
    | write => exact .inl ⟨_, (s.drive d).writeByte_frame _ _⟩
    | flush => exact .inl (s.drive d).flush_frame
    | step _ m => exact .inr (.inl ⟨.inl ⟨m, rfl⟩, m, rfl⟩)
    | stepSelected _ ph m hs => exact .inr (.inl ⟨.inr ⟨ph, rfl, hs⟩, m, rfl⟩)
    | enable _ e => exact .inr (.inr (.inl ⟨.inl ⟨e, rfl⟩, e, rfl⟩))
    | override _ v => exact .inr (.inr (.inr ⟨v, rfl, rfl⟩))

/-- R31: a drive has an image exactly if it had one, or the operation is its INSERT or its EJECT. -/
theorem DriveChange.image {s : State} {i : Instr} {d : DriveId} {y : Drive} (h : DriveChange s i d y) :
    (y.img = none ↔ (s.drive d).img = none) ∨
    (∃ n, i = .insert n ∧ driveIndex n = some d ∧ (s.drive d).img = none) ∨
    ∃ n, i = .eject n ∧ driveIndex n = some d ∧ y.img = none := by
  have stays : ∀ {x : Drive}, x.img.map Disk.name = (s.drive d).img.map Disk.name →
      (x.img = none ↔ (s.drive d).img = none) := fun {x} hx => by
    rw [← Option.map_eq_none_iff, hx, Option.map_eq_none_iff]
  cases h with
  | same => exact .inl Iff.rfl
  | own x hx => exact .inl (stays hx.name)
  | committed => exact .inl (by rw [Drive.writeByte_img])
  | powered e => exact .inl (stays (Drive.enable_name _ e))
  | attached n k hi hd hn => exact .inr (.inl ⟨n, hi, hd, hn⟩)
  | detached n hi hd => exact .inr (.inr ⟨n, hi, hd, rfl⟩)

/-- R32: a drive without a buffer has none after the operation, unless the operation loads one. -/
theorem DriveChange.buffer {s : State} {i : Instr} {d : DriveId} {y : Drive} (h : DriveChange s i d y)
    (hn : (s.drive d).tb = none) :
    y.tb = none ∨ i = .tbload d ∨ i = .tbread d ∨ (∃ b, i = .tbwrite d b) ∨ (i = .rwbyte ∧ s.ctl.sel = some d) := by
  cases h with
  | same => exact .inl hn
  | committed hi hs => exact .inr (.inr (.inr (.inr ⟨hi, hs⟩)))
  | powered e => exact .inl (Drive.enable_tb_none hn e)
  | attached => exact .inl hn
  | detached => exact .inl rfl
  | own x hx =>
    cases hx with
    | load => exact .inr (.inl rfl)
    | read => exact .inr (.inr (.inl rfl))
    | readSelected _ hs => exact .inr (.inr (.inr (.inr ⟨rfl, hs⟩)))
    | write _ b => exact .inr (.inr (.inr (.inl ⟨b, rfl⟩)))
    | flush => exact .inl (Drive.flush_tb_none hn)
    | step _ m => exact .inl (Drive.step_tb_none hn m)
    | stepSelected _ _ m => exact .inl (Drive.step_tb_none hn m)
    | enable _ e => exact .inl (Drive.enable_tb_none hn e)
    | override => exact .inl hn

section writers
variable {s : State} {i : Instr} {d : DriveId} {y : Drive}

theorem DriveChange.position (h : DriveChange s i d y)
    (hne : y.half ≠ (s.drive d).half ∨ y.phases ≠ (s.drive d).phases ∨ y.last ≠ (s.drive d).last) :
    (∃ m, i = .dstep d m) ∨ ∃ ph, i = .step ph ∧ s.ctl.sel = some d := by
  rcases h.registers with ⟨_, _, rfl⟩ | ⟨hi, _⟩ | ⟨_, e, rfl⟩ | ⟨_, _, rfl⟩
  · simp at hne
  · exact hi
  · simp [Drive.enable_position] at hne
  · simp at hne

theorem DriveChange.power (h : DriveChange s i d y)
    (hne : y.motor ≠ (s.drive d).motor ∨ y.light ≠ (s.drive d).light) :
    (∃ e, i = .dsel d e) ∨ (∃ n, i = .select n) ∨ i = .reset := by
  rcases h.registers with ⟨_, _, rfl⟩ | ⟨_, m, rfl⟩ | ⟨hi, _⟩ | ⟨_, _, rfl⟩
  · simp at hne
  · simp at hne
  · exact hi
  · simp at hne

theorem DriveChange.override (h : DriveChange s i d y) (hne : y.wpo ≠ (s.drive d).wpo) : ∃ v, i = .dsetwpo d v := by
  rcases h.registers with ⟨_, _, rfl⟩ | ⟨_, m, rfl⟩ | ⟨_, e, rfl⟩ | ⟨v, hi, _⟩
  · simp at hne
  · simp at hne
  · simp [Drive.enable_wpo] at hne
  · exact ⟨v, hi⟩

theorem DriveChange.attaches (h : DriveChange s i d y) (hn : (s.drive d).img = none) (hy : y.img ≠ none) :
    ∃ n, i = .insert n ∧ driveIndex n = some d := by
  rcases h.image with hk | ⟨n, hi, hd, _⟩ | ⟨_, _, _, hk⟩
  · exact absurd (hk.mpr hn) hy
  · exact ⟨n, hi, hd⟩
  · exact absurd hk hy

theorem DriveChange.detaches (h : DriveChange s i d y) (hn : (s.drive d).img ≠ none) (hy : y.img = none) :
    ∃ n, i = .eject n ∧ driveIndex n = some d := by
  rcases h.image with hk | ⟨_, _, _, hk⟩ | ⟨n, hi, hd, _⟩
  · exact absurd (hk.mp hy) hn
  · exact absurd hk hn
  · exact ⟨n, hi, hd⟩

end writers

/-- Settles O16, one lemma of `DriveChange` for each group of registers. -/
theorem driveRegisterWriters : Obligations.DriveRegisterWriters := by
  intro i s t d h
  have change := exec_driveChange h d
  exact ⟨change.position, change.power, change.override, change.attaches, change.detaches,
    fun hn hy => (change.buffer hn).resolve_left hy⟩

end Sys2Proof.Machine
end

