-- ==== Sys2Proof/Proofs/WriteBack.lean ====
section
/-! A dirty buffer leaves a drive only through its write-back (R39 item 3, R154): every way to lose it is an unload. -/

namespace Sys2Proof.Machine

section dirty
variable {x : Drive} {tb : TrackBuffer} {k : Disk}

theorem Drive.flush_dirty (ht : x.tb = some tb) (hd : tb.dirty = true) (hk : x.img = some k) :
    x.flush = ({ x with img := some (k.writeBack tb).1, tb := some { tb with dirty := false } },
      (k.writeBack tb).2) := by
  simp [Drive.flush, ht, hk, hd]

theorem Drive.flush_dirty_img (ht : x.tb = some tb) (hd : tb.dirty = true) (hk : x.img = some k) :
    x.flush.1.img = some (k.writeBack tb).1 := by
  rw [Drive.flush_dirty ht hd hk]

/-- A step that drops the buffer has written it back. -/
theorem Drive.step_drops (ht : x.tb = some tb) (hd : tb.dirty = true) (hk : x.img = some k) {m : BitVec 4}
    (hn : (x.step m).1.tb = none) : (x.step m).1.img = some (k.writeBack tb).1 := by
  rcases x.step_cases m with ⟨_, h⟩ | ⟨p, _, ⟨_, h⟩ | ⟨_, h⟩⟩
  · simp [h, ht] at hn
  · simp [h, ht] at hn
  · rw [h]
    exact Drive.flush_dirty_img (x := { x with phases := m, last := p, half := moveHead x.half (stepDelta p x.last) })
      ht hd hk

/-- So has the motor operation. -/
theorem Drive.enable_drops (ht : x.tb = some tb) (hd : tb.dirty = true) (hk : x.img = some k) {e : Bool}
    (hn : (x.enable e).1.tb = none) : (x.enable e).1.img = some (k.writeBack tb).1 := by
  cases e with
  | true => simp [Drive.enable_true, ht] at hn
  | false => exact Drive.flush_dirty_img ht hd hk

theorem Drive.load_tb_isSome (hk : x.img = some k) : x.load.1.tb.isSome = true := by
  rcases x.load_cases with ⟨hn, _⟩ | ⟨_, _, _, h⟩
  · simp [hk] at hn
  · simp [h]

theorem Drive.readByte_tb_isSome (hk : x.img = some k) : x.readByte.2.tb.isSome = true := by
  simp [Drive.readByte_some hk]

theorem Drive.writeByte_tb_isSome (ht : x.tb = some tb) (w : Bool) (b : Byte) :
    (x.writeByte w b).tb.isSome = true := by
  rcases x.writeByte_cases w b with h | ⟨_, h⟩ <;> simp [h, ht]

end dirty

/-- A dirty buffer that is gone was written back to the image in the drive, or the image was ejected. -/
theorem DriveChange.dirty_cases {s : State} {i : Instr} {d : DriveId} {y : Drive} {tb : TrackBuffer} {k : Disk}
    (h : DriveChange s i d y) (ht : (s.drive d).tb = some tb) (hd : tb.dirty = true)
    (hk : (s.drive d).img = some k) (hn : y.tb = none) :
    y.img = some (k.writeBack tb).1 ∨ (y.img = none ∧ ∃ n, i = .eject n ∧ driveIndex n = some d) := by
  have kept : ∀ {x : Drive}, x.tb.isSome = true → x.tb = none → x.img = some (k.writeBack tb).1 :=
    fun hs hn => by simp [hn] at hs
  cases h with
  | same => simp [ht] at hn
  | committed => exact .inl (kept (Drive.writeByte_tb_isSome ht _ _) hn)
  | powered => exact .inl (Drive.enable_drops ht hd hk hn)
  | attached _ _ _ _ hi => simp [hk] at hi
  | detached n hi hd => exact .inr ⟨rfl, n, hi, hd⟩
  | own x hx =>
    left
    cases hx with
    | load => exact kept (Drive.load_tb_isSome hk) hn
    | read => exact kept (Drive.readByte_tb_isSome hk) hn
    | readSelected => exact kept (Drive.readByte_tb_isSome hk) hn
    | write => exact kept (Drive.writeByte_tb_isSome ht _ _) hn
    | flush => exact kept (by simp [ht]) hn
    | step => exact Drive.step_drops ht hd hk hn
    | stepSelected => exact Drive.step_drops ht hd hk hn
    | enable => exact Drive.enable_drops ht hd hk hn
    | override => exact kept (by simp [ht]) hn

/-- EJECT of a drive with an image (R197). -/
theorem execEject_some {n : Byte} {s : State} {d : DriveId} {k : Disk} (hd : driveIndex n = some d)
    (hk : (s.drive d).img = some k) : execEject n s = .next ((s.detach d).1.reply 0 (s.detach d).2) := by
  simp [execEject, hd, hk]

/-- Settles O18: `DriveChange.dirty_cases`, and what EJECT puts back into the host's store. -/
theorem dirtyBufferNeverDropped : Obligations.DirtyBufferNeverDropped := by
  intro i s t d tb k h ht hd hk hn
  rcases (exec_driveChange h d).dirty_cases ht hd hk hn with hw | ⟨hi, n, rfl, hnd⟩
  · exact .inl ⟨_, hw, rfl⟩
  · have h : execEject n s = .next t := h
    obtain rfl := next_inj (execEject_some hnd hk ▸ h)
    have hs := State.detach_store (Drive.flush_dirty_img ht hd hk)
    exact .inr ⟨hi, by simpa using hs⟩

end Sys2Proof.Machine
end

