-- ==== Sys2Proof/Proofs/FlushPoints.lean ====
section
/-! The image of a drive changes only at a flush point (R63): a flush keeps the image or writes a dirty buffer back to it
(`Drive.FlushedImage`), and an operation that is no flush point of the drive keeps, attaches or detaches it
(`ImageChange`). -/

namespace Sys2Proof.Machine

/-- What a flush can leave as the image of a drive (R153). -/
inductive Drive.FlushedImage (x : Drive) : Option Disk → Prop where
  | kept : x.FlushedImage x.img
  | written (tb : TrackBuffer) (k : Disk) : x.tb = some tb → tb.dirty = true → x.img = some k →
      x.FlushedImage (some (k.writeBack tb).1)

/-- A flush reads only the image and the buffer of its drive. -/
theorem Drive.FlushedImage.congr {x y : Drive} {img : Option Disk} (h : y.FlushedImage img) (ht : y.tb = x.tb)
    (hk : y.img = x.img) : x.FlushedImage img := by
  cases h with
  | kept => exact hk ▸ .kept
  | written tb k ht' hd hk' => exact .written tb k (ht ▸ ht') hd (hk ▸ hk')

section flushed
variable (x : Drive)

theorem Drive.flush_flushedImage : x.FlushedImage x.flush.1.img := by
  rcases x.flush_cases with h | ⟨tb, k, ht, hk, hd, h⟩
  · rw [h]; exact .kept
  · rw [h]; exact .written tb k ht hd hk

theorem Drive.load_flushedImage : x.FlushedImage x.load.1.img := by
  rcases x.load_cases with ⟨_, h⟩ | ⟨_, _, _, h⟩
  · rw [h]; exact .kept
  · rw [h]; exact x.flush_flushedImage

/-- The drive that a step unloads has the image and the buffer of the drive before the step. -/
theorem Drive.step_flushedImage (m : BitVec 4) : x.FlushedImage (x.step m).1.img := by
  rcases x.step_cases m with ⟨_, h⟩ | ⟨p, _, ⟨_, h⟩ | ⟨_, h⟩⟩
  · rw [h]; exact .kept
  · rw [h]; exact .kept
  · rw [h]
    exact (Drive.flush_flushedImage _).congr rfl rfl

end flushed

/-- The operations that flush the buffer of drive `d` and leave its image attached (R63). -/
def State.FlushPoint (s : State) (d : DriveId) (i : Instr) : Prop :=
  i = .tbflush d ∨ (∃ m, i = .dstep d m) ∨ (∃ ph, i = .step ph ∧ s.ctl.sel = some d) ∨ i = .dsel d false ∨
    (∃ n o, i = .select n ∧ driveIndex n = some o ∧ o ≠ d) ∨ i = .reset ∨ i = .tbload d

/-- What an operation can leave as the image of drive `d`. -/
inductive ImageChange (s : State) (i : Instr) (d : DriveId) : Option Disk → Prop where
  | kept : ImageChange s i d (s.drive d).img
  | flushed (img : Option Disk) : s.FlushPoint d i → (s.drive d).FlushedImage img → ImageChange s i d img
  /-- INSERT, into an empty drive (R196). -/
  | attached (k : Disk) : (s.drive d).img = none → ImageChange s i d (some k)
  /-- EJECT (R197). -/
  | detached : ImageChange s i d none

section changes
variable {s u : State} {i : Instr} {d : DriveId}

theorem DriveEffect.imageChange {x : Drive} (hx : DriveEffect s i d x) : ImageChange s i d x.img := by
  cases hx with
  | load => exact .flushed _ (by simp [State.FlushPoint]) (s.drive d).load_flushedImage
  | read => rw [Drive.readByte_img]; exact .kept
  | readSelected => rw [Drive.readByte_img]; exact .kept
  | write => rw [Drive.writeByte_img]; exact .kept
  | flush => exact .flushed _ (by simp [State.FlushPoint]) (s.drive d).flush_flushedImage
  | step _ m => exact .flushed _ (by simp [State.FlushPoint]) ((s.drive d).step_flushedImage m)
  | stepSelected _ _ m hs => exact .flushed _ (by simp [State.FlushPoint, hs]) ((s.drive d).step_flushedImage m)
  | enable _ e =>
    cases e with
    | true => exact .kept
    | false => exact .flushed _ (by simp [State.FlushPoint]) (s.drive d).flush_flushedImage
  | override => exact .kept

/-- An operation that writes one drive leaves the image of the other. -/
theorem ImageChange.of_setDrive {x : Drive} (hx : ImageChange s i d x.img) :
    ∀ e, ImageChange s i e ((s.setDrive d x).drive e).img :=
  forall_drive d (by simpa using hx) (by rw [State.setDrive_drive_other]; exact .kept)

/-- SELECT flushes the drive it does not choose (R191), RESET flushes both (R250). -/
theorem Effect.imageChange (he : Effect s i u) : ∀ d, ImageChange s i d (u.drive d).img := by
  cases he with
  | quiet | mode | latch | drawByte | drawSense => exact fun d => by cases d <;> exact .kept
  | drive _ d x hx => exact hx.imageChange.of_setDrive
  | commit d =>
    intro e
    rw [State.commitLatch_draw_drive]
    refine ImageChange.of_setDrive ?_ e
    rw [Drive.writeByte_img]
    exact .kept
  | reset =>
    intro d
    rw [State.deselectAll_drive]
    exact .flushed _ (by simp [State.FlushPoint]) (s.drive d).flush_flushedImage
  | select _ d hd =>
    refine forall_drive d ?_ ?_
    · rw [State.switchTo_drive_same]
      exact .kept
    · rw [State.switchTo_drive_other]
      exact .flushed _ (by simp [State.FlushPoint, hd])
        (s.drive (driveOther d)).flush_flushedImage
  | insert _ d _ _ _ hn =>
    refine forall_drive d ?_ ?_
    · rw [State.attach_drive_same]
      exact .attached _ hn
    · rw [State.attach_drive_other]
      exact .kept
  | eject _ d =>
    refine forall_drive d ?_ ?_
    · rw [State.detach_drive_same]
      exact .detached
    · rw [State.detach_drive_other]
      exact .kept

theorem exec_imageChange {t : State} (h : exec i s = .next t) (d : DriveId) : ImageChange s i d (t.drive d).img := by
  obtain ⟨u, r, out, he, -, rfl⟩ := exec_effect h
  rw [State.respond_drive]
  exact he.imageChange d

/-- An image attached before and after is the same, or has a dirty buffer written back to it at a flush point. -/
theorem ImageChange.attached_cases {img : Option Disk} {k k' : Disk} (h : ImageChange s i d img)
    (hk : (s.drive d).img = some k) (hk' : img = some k') :
    k' = k ∨ s.FlushPoint d i ∧ ∃ tb, (s.drive d).tb = some tb ∧ tb.dirty = true ∧ k' = (k.writeBack tb).1 := by
  have same : (s.drive d).img = some k' → k' = k := fun h' => Option.some.inj (h'.symm.trans hk)
  cases h with
  | kept => exact .inl (same hk')
  | attached _ hn => simp [hk] at hn
  | detached => cases hk'
  | flushed _ hf himg =>
    cases himg with
    | kept => exact .inl (same hk')
    | written tb k₀ ht hd hk₀ =>
      obtain rfl : k₀ = k := Option.some.inj (hk₀.symm.trans hk)
      exact .inr ⟨hf, tb, ht, hd, (Option.some.inj hk').symm⟩

end changes

/-- Settles O17: a write-back keeps the name, the layout and the read-only attribute. -/
theorem imageChangesOnlyAtFlushPoints : Obligations.ImageChangesOnlyAtFlushPoints := by
  intro i s t d k k' h hk hk'
  rcases (exec_imageChange h d).attached_cases hk hk' with rfl | ⟨hf, tb, ht, hd, rfl⟩
  · exact ⟨rfl, rfl, rfl, fun hne => absurd rfl hne⟩
  · exact ⟨by simp, by simp, by simp, fun _ => ⟨⟨tb, ht, hd⟩, hf⟩⟩

end Sys2Proof.Machine
end

