-- ==== Sys2Proof/Proofs/CommandWords.lean ====
section
/-! The command words (R80 to R84). An instruction's fields are those it is built from with every bit cleared that its
operation does not use (`fields_of_build`), so decoding and encoding undo each other (`decode_eq_ok_iff`). A word matches a
row of the opcode map when it has the row's operation code and no bit set that must be 0 (`masked_eq_value_iff`). -/

namespace Sys2Proof

section operands
variable {m : Byte}

@[simp] theorem DriveId.ofBit_bit (d : DriveId) : DriveId.ofBit d.bit = d := by cases d <;> rfl

@[simp] theorem DriveId.bit_ofBit (b : BitVec 1) : (DriveId.ofBit b).bit = b := by revert b; decide

@[simp] theorem boolOperand_boolImm (e : Bool) : boolOperand (boolImm e) = e := by cases e <;> rfl

@[simp] theorem boolImm_boolOperand : boolImm (boolOperand m) = m &&& 0x01 := by revert m; decide

@[simp] theorem extractLsb'_setWidth_mask (k : BitVec 4) : (k.setWidth 8).extractLsb' 0 4 = k := by revert k; decide

@[simp] theorem setWidth_extractLsb'_mask : (m.extractLsb' 0 4).setWidth 8 = m &&& 0x0F := by revert m; decide

@[simp] theorem and_FF : m &&& 255#8 = m := BitVec.and_allOnes

/-- Nothing stands outside the low bits exactly when the operand is at most the number they write. -/
theorem outside_lowBits_eq_zero_iff :
    ∀ b ∈ ([0x00, 0x01, 0x0F, 0xFF] : List Byte), ∀ m : Byte, m &&& ~~~b = 0 ↔ m.toNat ≤ b.toNat := by
  decide

theorem and_not_eq_zero_iff {w : Nat} {a b : BitVec w} : a &&& ~~~b = 0#w ↔ a &&& b = a := by
  simp only [BitVec.eq_of_getLsbD_eq_iff, BitVec.getLsbD_and, BitVec.getLsbD_not]
  grind

theorem eq_ofNat_of_toNat_eq {w n : Nat} {x : BitVec w} (h : x.toNat = n) : x = BitVec.ofNat w n := by
  rw [← h, BitVec.ofNat_toNat, BitVec.setWidth_eq]

end operands

section fields
variable {f : Fields} {i : Instr}

/-- A word is made of its four fields (R80). -/
theorem pack_split (w : CmdWord) : pack (split w) = w := by
  have join (a m n : Nat) : w.extractLsb' (a + n) m ++ w.extractLsb' a n = w.extractLsb' a (m + n) :=
    BitVec.extractLsb'_append_extractLsb'_eq_extractLsb' rfl
  calc
    pack (split w) = w.extractLsb' 11 5 ++ w.extractLsb' 9 2 ++ w.extractLsb' 8 1 ++ w.extractLsb' 0 8 := rfl
    _ = w.extractLsb' 0 16 := by rw [join 9 5 2, join 8 7 1, join 0 8 8]
    _ = w := BitVec.extractLsb'_eq_self

theorem split_injective : Function.Injective split :=
  Function.LeftInverse.injective pack_split

/-- Every instruction has the fields of a legal word, and its word splits into them (R80, R84). -/
theorem legalFields : ∀ i : Instr, Laws.LegalFields.Statement i
  | .cenc t => Laws.LegalFields.cenc t
  | .cdec t => Laws.LegalFields.cdec t
  | .tbload d => Laws.LegalFields.tbload d
  | .tbread d => Laws.LegalFields.tbread d
  | .tbwrite d b => Laws.LegalFields.tbwrite d b
  | .tbflush d => Laws.LegalFields.tbflush d
  | .dstep d k => Laws.LegalFields.dstep d k
  | .dsel d e => Laws.LegalFields.dsel d e
  | .diswp d => Laws.LegalFields.diswp d
  | .dsetwpo d v => Laws.LegalFields.dsetwpo d v
  | .reset => Laws.LegalFields.reset
  | .select n => Laws.LegalFields.select n
  | .setwm e => Laws.LegalFields.setwm e
  | .ldlatch b => Laws.LegalFields.ldlatch b
  | .rwbyte => Laws.LegalFields.rwbyte
  | .step ph => Laws.LegalFields.step ph
  | .insert n => Laws.LegalFields.insert n
  | .eject n => Laws.LegalFields.eject n
  | .iswp => Laws.LegalFields.iswp
  | .rdstat => Laws.LegalFields.rdstat

theorem split_encode (i : Instr) : split (encode i) = i.fields := (legalFields i).2

theorem assigned_fields (i : Instr) : i.fields.assigned = true := (Bool.and_eq_true_iff.mp (legalFields i).1).1

theorem operandsOk_fields (i : Instr) : i.fields.operandsOk = true := (Bool.and_eq_true_iff.mp (legalFields i).1).2

/-- An instruction is built from its own fields (R82). -/
theorem build_fields (i : Instr) : build i.fields = some i := by
  cases i <;> simp [build, Instr.fields]

/-- The fields with every bit cleared that the operation does not use. -/
def Fields.usedBits (f : Fields) : Fields :=
  { op := f.op, rsv := 0, d := bif f.takesDrive then f.d else 0, imm8 := f.imm8 &&& f.operandBits }

theorem Fields.operandsOk_iff :
    f.operandsOk = true ↔ f.rsv = 0 ∧ (f.takesDrive = true ∨ f.d = 0) ∧ f.imm8 &&& ~~~f.operandBits = 0 := by
  simp [Fields.operandsOk, and_assoc]

/-- The bits that must be 0 are those that are not used (R84). -/
theorem Fields.usedBits_of_operandsOk (ho : f.operandsOk = true) : f.usedBits = f := by
  obtain ⟨hr, hd, hm⟩ := Fields.operandsOk_iff.mp ho
  have hd : (bif f.takesDrive then f.d else 0) = f.d := by
    rcases hd with h | h <;> simp [h]
  rw [Fields.usedBits, hd, and_not_eq_zero_iff.mp hm, ← hr]

/-- What is built has the fields it was built from, as far as its operation uses them (R81, R82). -/
theorem fields_of_build (hb : build f = some i) : i.fields = f.usedBits := by
  obtain ⟨op, rsv, d, imm⟩ := f
  unfold build at hb
  split at hb <;> cases hb
  all_goals
    next hop =>
      obtain rfl := eq_ofNat_of_toNat_eq hop
      simp [Instr.fields, Fields.usedBits, Fields.takesDrive, Fields.operandBits]

theorem assigned_of_build (hb : build f = some i) : f.assigned = true := by
  have h := assigned_fields i
  rwa [fields_of_build hb] at h

end fields

section decode
variable {w : CmdWord} {i : Instr}

theorem decode_of_build (hb : build (split w) = some i) (ho : (split w).operandsOk = true) : decode w = .ok i := by
  simp only [decode, hb, ho, if_true]

theorem decode_of_not_operandsOk (hb : build (split w) = some i) (ho : (split w).operandsOk = false) :
    decode w = .error .badOperand := by
  simp [decode, hb, ho]

theorem decode_of_not_assigned (ha : (split w).assigned = false) : decode w = .error .badCommand := by
  cases hb : build (split w) with
  | none => simp only [decode, hb]
  | some i => simp [assigned_of_build hb] at ha

theorem decode_encode (i : Instr) : decode (encode i) = .ok i :=
  decode_of_build (split_encode i ▸ build_fields i) (split_encode i ▸ operandsOk_fields i)

theorem build_of_decode (h : decode w = .ok i) : build (split w) = some i ∧ (split w).operandsOk = true := by
  unfold decode at h
  split at h
  · cases h
  · next hb =>
    split at h
    · next ho => cases h; exact ⟨hb, ho⟩
    · cases h

/-- The words of R82 are those of the encoder: decoding and encoding undo each other. -/
theorem decode_eq_ok_iff : decode w = .ok i ↔ encode i = w := by
  constructor
  · intro h
    obtain ⟨hb, ho⟩ := build_of_decode h
    rw [encode, fields_of_build hb, Fields.usedBits_of_operandsOk ho, pack_split]
  · rintro rfl
    exact decode_encode i

end decode

section opcodeMap
variable {r : OpcodeRow} {f : Fields} {w : CmdWord}

/-- The operation code of a row. -/
def OpcodeRow.op (r : OpcodeRow) : BitVec 5 := (split r.value).op

/-- Every row of R82 asks for its operation code and for 0 in the bits that must be 0. -/
theorem split_row : ∀ r ∈ opcodeMap,
    split r.value = { op := r.op, rsv := 0, d := 0, imm8 := 0 } ∧
    split r.mask =
      { op := BitVec.allOnes 5, rsv := BitVec.allOnes 2, d := bif (split r.value).takesDrive then 0 else 1,
        imm8 := ~~~(split r.value).operandBits } := by
  decide

theorem split_and (v w : CmdWord) : split (v &&& w) =
    { op := (split v).op &&& (split w).op, rsv := (split v).rsv &&& (split w).rsv, d := (split v).d &&& (split w).d,
      imm8 := (split v).imm8 &&& (split w).imm8 } := by
  simp only [split, BitVec.extractLsb'_and]

theorem takesDrive_congr {g : Fields} (h : f.op = g.op) : f.takesDrive = g.takesDrive := by
  simp only [Fields.takesDrive, h]

theorem operandBits_congr {g : Fields} (h : f.op = g.op) : f.operandBits = g.operandBits := by
  simp only [Fields.operandBits, h]

theorem driveBit_masked_iff (d : BitVec 1) (t : Bool) : (d &&& bif t then 0 else 1) = 0 ↔ t = true ∨ d = 0 := by
  revert d t; decide

/-- Which words match a row of the opcode map (R82). -/
theorem masked_eq_value_iff (hr : r ∈ opcodeMap) :
    w &&& r.mask = r.value ↔ (split w).op = r.op ∧ (split w).operandsOk = true := by
  obtain ⟨hv, hm⟩ := split_row r hr
  rw [← split_injective.eq_iff, hv, split_and, hm, Fields.operandsOk_iff]
  simp only [Fields.mk.injEq, BitVec.and_allOnes, driveBit_masked_iff]
  exact and_congr_right fun h => by rw [takesDrive_congr h, operandBits_congr h]

theorem exists_row_of_assigned : f.assigned = true → ∃ r ∈ opcodeMap, r.op = f.op := by
  simp only [Fields.assigned]
  generalize f.op = op
  revert op
  decide

theorem exists_build_of_row (hr : r ∈ opcodeMap) (ho : f.op = r.op) :
    ∃ i, build f = some i ∧ i.mnemonic = r.mnemonic := by
  obtain ⟨op, rsv, d, imm⟩ := f
  obtain rfl : op = r.op := ho
  fin_cases hr <;> exact ⟨_, rfl, rfl⟩

theorem exists_build_of_assigned (ha : f.assigned = true) : ∃ i, build f = some i := by
  obtain ⟨r, hr, ho⟩ := exists_row_of_assigned ha
  obtain ⟨i, hb, -⟩ := exists_build_of_row hr ho.symm
  exact ⟨i, hb⟩

/-- What a word that matches a row decodes to (R82). -/
theorem exists_decode_of_row (hr : r ∈ opcodeMap) (hw : w &&& r.mask = r.value) :
    ∃ i, decode w = .ok i ∧ i.mnemonic = r.mnemonic := by
  obtain ⟨hop, ho⟩ := (masked_eq_value_iff hr).mp hw
  obtain ⟨i, hb, hn⟩ := exists_build_of_row hr hop
  exact ⟨i, decode_of_build hb ho, hn⟩

/-- A word that decodes matches a row (R82). -/
theorem exists_row_of_decode {i : Instr} (h : decode w = .ok i) : ∃ r ∈ opcodeMap, w &&& r.mask = r.value := by
  obtain ⟨hb, ho⟩ := build_of_decode h
  obtain ⟨r, hr, hop⟩ := exists_row_of_assigned (assigned_of_build hb)
  exact ⟨r, hr, (masked_eq_value_iff hr).mpr ⟨hop.symm, ho⟩⟩

end opcodeMap

section illegal
variable {f : Fields}

/-- The fields of a word by arithmetic on it (R80). -/
theorem split_toNat (w : CmdWord) :
    (split w).op.toNat = w.toNat / 2048 ∧ (split w).rsv.toNat = w.toNat / 512 % 4 ∧
      (split w).d.toNat = w.toNat / 256 % 2 ∧ (split w).imm8.toNat = w.toNat % 256 := by
  have hw := w.isLt
  simp only [split, BitVec.extractLsb'_toNat, Nat.shiftRight_eq_div_pow, Nat.reducePow, true_and]
  omega

theorem not_assigned_iff (f : Fields) : f.assigned = false ↔
    f.op.toNat ∈ [0x00, 0x03, 0x0C, 0x0D, 0x0E, 0x0F, 0x1A, 0x1B, 0x1C, 0x1D, 0x1E, 0x1F] := by
  simp only [Fields.assigned]
  generalize f.op = op
  revert op
  decide

theorem takesDrive_iff (f : Fields) : f.takesDrive = true ↔ 0x04 ≤ f.op.toNat ∧ f.op.toNat ≤ 0x0B := by
  simp only [Fields.takesDrive]
  generalize f.op = op
  revert op
  decide

/-- The operand bits of each kind of operation (R81): none, a phase mask, a Boolean, all eight. -/
theorem operandBits_cases (ha : f.assigned = true) :
    (f.op.toNat ∈ [0x04, 0x05, 0x07, 0x0A, 0x10, 0x14, 0x18, 0x19] ∧ f.operandBits = 0x00) ∨
    (f.op.toNat = 0x08 ∧ f.operandBits = 0x0F) ∨
    (f.op.toNat ∈ [0x09, 0x0B, 0x12] ∧ f.operandBits = 0x01) ∨
    (f.op.toNat ∈ [0x01, 0x02, 0x06, 0x11, 0x13, 0x15, 0x16, 0x17] ∧ f.operandBits = 0xFF) := by
  simp only [Fields.assigned, Fields.operandBits] at ha ⊢
  generalize f.op = op at *
  revert op
  decide

/-- Which operands of an assigned code have a bit set that must be 0 (R84); the four kinds of operation exclude each
other. -/
theorem operand_outside_iff (ha : f.assigned = true) :
    ¬ f.imm8 &&& ~~~f.operandBits = 0 ↔
      (f.op.toNat ∈ [0x04, 0x05, 0x07, 0x0A, 0x10, 0x14, 0x18, 0x19] ∧ f.imm8.toNat ≠ 0) ∨
      (f.op.toNat = 0x08 ∧ 16 ≤ f.imm8.toNat) ∨ (f.op.toNat ∈ [0x09, 0x0B, 0x12] ∧ 2 ≤ f.imm8.toNat) := by
  have hm := f.imm8.isLt
  rcases operandBits_cases ha with ⟨h, hb⟩ | ⟨h, hb⟩ | ⟨h, hb⟩ | ⟨h, hb⟩ <;>
    rw [hb, outside_lowBits_eq_zero_iff _ (by decide)] <;>
    simp only [List.mem_cons, List.not_mem_nil, or_false, BitVec.ofNat_eq_ofNat, BitVec.reduceToNat] at h ⊢ <;>
    omega

theorem operandsOk_eq_false_iff (ha : f.assigned = true) :
    f.operandsOk = false ↔
      f.rsv.toNat ≠ 0 ∨ (¬ (0x04 ≤ f.op.toNat ∧ f.op.toNat ≤ 0x0B) ∧ f.d.toNat = 1) ∨
      (f.op.toNat ∈ [0x04, 0x05, 0x07, 0x0A, 0x10, 0x14, 0x18, 0x19] ∧ f.imm8.toNat ≠ 0) ∨
      (f.op.toNat = 0x08 ∧ 16 ≤ f.imm8.toNat) ∨ (f.op.toNat ∈ [0x09, 0x0B, 0x12] ∧ 2 ≤ f.imm8.toNat) := by
  have hr : f.rsv = 0 ↔ ¬ f.rsv.toNat ≠ 0 := by rw [BitVec.toNat_eq]; simp
  have hd : f.d = 0 ↔ ¬ f.d.toNat = 1 := by generalize f.d = d; revert d; decide
  rw [← operand_outside_iff ha, ← takesDrive_iff, ← Bool.not_eq_true, Fields.operandsOk_iff, hr, hd]
  tauto

end illegal

/-- Settles O1: a word's fields are the instruction's, and these build it. -/
theorem decodeOfEncode : Obligations.DecodeOfEncode :=
  decode_encode

/-- Settles O2: a word matches no row but that of its operation code, and that one when its operand bits are legal. -/
theorem opcodeMapDecides : Obligations.OpcodeMapDecides := by
  refine fun w => ⟨fun r hr hw => ?_, fun hno => ?_⟩
  · obtain ⟨i, hd, hn⟩ := exists_decode_of_row hr hw
    exact ⟨i, hd, hn, decode_eq_ok_iff.mp hd⟩
  · cases hd : decode w with
    | error e => exact ⟨e, rfl⟩
    | ok i =>
      obtain ⟨r, hr, hw⟩ := exists_row_of_decode hd
      exact absurd hw (hno r hr)

section step
open Machine

/-- Settles O3: a word fails to build when its code is unassigned, and is refused when a bit that must be 0 is set. -/
theorem illegalWordsReported : Obligations.IllegalWordsReported := by
  intro s c rest hq
  obtain ⟨hop, hrsv, hd, himm⟩ := split_toNat c.word
  simp only [← hop, ← hrsv, ← hd, ← himm, ← not_assigned_iff, Bool.not_eq_false]
  refine ⟨fun ha => ?_, fun ha hbad => ?_, fun ha hgood => ?_⟩
  · exact step_of_decode_error hq (decode_of_not_assigned ha)
  · obtain ⟨i, hb⟩ := exists_build_of_assigned ha
    exact step_of_decode_error hq (decode_of_not_operandsOk hb ((operandsOk_eq_false_iff ha).mpr hbad))
  · obtain ⟨i, hb⟩ := exists_build_of_assigned ha
    rw [← operandsOk_eq_false_iff ha, Bool.not_eq_false] at hgood
    exact ⟨i, decode_of_build hb hgood⟩

end step

/-- Settles O4: each word is the encoding of the operation beside it. -/
theorem specWordsDecode : Obligations.SpecWordsDecode :=
  ⟨decode_encode (.cenc 17), decode_encode (.cdec 17), decode_encode (.tbload .d0), decode_encode (.tbwrite .d0 0xD5),
   decode_encode (.dstep .d1 0b0010), decode_encode (.dsel .d1 false), decode_encode (.dsetwpo .d0 true),
   decode_encode .reset, decode_encode (.select 1), decode_encode (.setwm true), decode_encode (.ldlatch 0xD5),
   decode_encode .rwbyte, decode_encode (.eject 1), rfl, rfl⟩

end Sys2Proof
end

