-- ==== Sys2Proof/Proofs/UnitOperations.lean ====
section
/-! A unit-level operation (R82, R170, R174) names one drive, and its effect is on that drive. -/

namespace Sys2Proof.Machine

section unit
variable {s u : State} {i : Instr} {d : DriveId}

theorem DriveEffect.unitDrive {e : DriveId} {x : Drive} (hx : DriveEffect s i e x) (hi : Instr.unitDrive i = some d) :
    e = d := by
  cases hx with
  | readSelected | stepSelected => cases hi
  | load | read | write | flush | step | enable | override => exact Option.some.inj hi

/-- The effect of a unit-level operation is a write of its drive. -/
theorem Effect.unit (he : Effect s i u) (hi : Instr.unitDrive i = some d) : u = s.setDrive d (u.drive d) := by
  cases he with
  | quiet => simp
  | drive _ e x hx =>
    obtain rfl := hx.unitDrive hi
    simp
  | mode | latch | drawByte | drawSense | commit | reset | select | insert | eject => cases hi

theorem Answer.unit {r : Response} {out : SideResult} (ha : Answer s i u r out) (hi : Instr.unitDrive i = some d) :
    out = .none := by
  cases ha with
  | raised | done => rfl
  | encoded _ _ h | decoded _ _ _ h =>
    subst h
    cases hi

end unit

/-- Settles O19: the response is the only other field an operation without a side-band result writes. -/
theorem unitOperationsStayInTheirDrive : Obligations.UnitOperationsStayInTheirDrive := by
  intro i d s t hi h
  obtain ⟨u, r, out, he, ha, rfl⟩ := exec_effect h
  obtain rfl := ha.unit hi
  rw [State.respond_drive, State.respond_resp, ← he.unit hi]
  rfl

end Sys2Proof.Machine
end

