-- ==== Sys2Proof/Proofs/Interface.lean ====
section
/-! The response as a number (R86) and the expansions of the pseudo-instructions (R88). -/

namespace Sys2Proof.Machine

theorem toNat_append_eq_add {m n : Nat} (x : BitVec m) (y : BitVec n) :
    (x ++ y).toNat = x.toNat * 2 ^ n + y.toNat := by
  rw [BitVec.toNat_append, ← Nat.shiftLeft_add_eq_or_of_lt y.isLt, Nat.shiftLeft_eq]

/-- Settles O6: putting fields side by side shifts the left one. -/
theorem responseWordFields : Obligations.ResponseWordFields := by
  refine fun r => ⟨?_, ?_⟩
  · rw [responseWord, toNat_append_eq_add, toNat_append_eq_add]
    ring
  · cases r.status <;> rfl

theorem expand_seekup_getElem? (f : Fin Config.nPhases) {n j : Nat} (hj : j < n) :
    ((Pseudo.seekup n).expand f)[j]? = some (.step (BitVec.ofNat 8 ((f.val + (j + 1)) % 4))) := by
  simp [Pseudo.expand, hj, Nat.add_assoc]

/-- Settles O7. -/
theorem pseudoInstructionsExpand : Obligations.PseudoInstructionsExpand := by
  intro f b n
  refine ⟨rfl, ?_, ?_, ?_, ?_⟩
  · exact List.length_replicate
  · exact fun i hi => List.eq_of_mem_replicate hi
  · simp [Pseudo.expand]
  · exact fun j hj => expand_seekup_getElem? f hj

end Sys2Proof.Machine
end

