-- ==== Sys2Proof/Proofs/DenseCode.lean ====
section
/-! The two codes of the on-disk format (R91 to R99): the odd-bit-pair code, the alphabet of the dense code, the six-bit
values of a sector, their chain, and the decoder of a body. -/

namespace Sys2Proof.Machine

section enc44

/-- The bits that the odd-bit-pair code forces (R93). -/
theorem or_AA_oddBits (x : Byte) :
    (x ||| 0xAA).getLsbD 7 = true ∧ (x ||| 0xAA).getLsbD 5 = true ∧ (x ||| 0xAA).getLsbD 3 = true ∧
      (x ||| 0xAA).getLsbD 1 = true := by
  simp

theorem exists_or_AA_of_mem_enc44 {v b : Byte} (hb : b ∈ enc44 v) : ∃ x : Byte, b = x ||| 0xAA := by
  simp only [enc44, List.mem_cons, List.not_mem_nil, or_false] at hb
  rcases hb with rfl | rfl
  · exact ⟨_, rfl⟩
  · exact ⟨_, rfl⟩

/-- Of two neighbouring bits one is odd. -/
theorem oddBits_noAdjacentZeros {b : Byte} (h7 : b.getLsbD 7 = true) (h5 : b.getLsbD 5 = true)
    (h3 : b.getLsbD 3 = true) (h1 : b.getLsbD 1 = true) :
    ∀ k : Fin 7, b.getLsbD k.val = true ∨ b.getLsbD (k.val + 1) = true := by
  intro k
  fin_cases k <;> simp [h7, h5, h3, h1]

end enc44

/-- Settles O21: of two neighbouring bits one has an odd number, and those are set. -/
theorem oddBitPairCode : Obligations.OddBitPairCode := by
  refine ⟨fun v => ⟨_, _, rfl, rfl, rfl, dec44_enc44 v⟩, fun _ _ => rfl, fun v b hb => ?_⟩
  obtain ⟨x, rfl⟩ := exists_or_AA_of_mem_enc44 hb
  obtain ⟨h7, h5, h3, h1⟩ := or_AA_oddBits x
  exact ⟨h7, h5, h3, h1, oddBits_noAdjacentZeros h7 h5 h3 h1⟩

section nib62

/-- NIB62 rises (R94). -/
theorem nib62Table_pairwise : nib62Table.Pairwise (· < ·) := by
  decide

theorem nib62_lt {x y : Six} (h : x.toNat < y.toNat) : (nib62 x).toNat < (nib62 y).toNat :=
  List.pairwise_iff_getElem.mp nib62Table_pairwise _ _ _ _ h

/-- UNNIB62 is the inverse of NIB62 (R95). -/
theorem unnib62_eq_some_iff {x : Six} {b : Byte} : unnib62 b = some x ↔ nib62 x = b := by
  constructor
  · intro h
    obtain ⟨i, hi, rfl⟩ := Option.map_eq_some_iff.mp h
    obtain ⟨hlt, rfl, -⟩ := List.idxOf?_eq_some_iff.mp hi
    have hlt' : i < 64 := hlt
    simp [nib62, Nat.mod_eq_of_lt hlt']
  · rintro rfl
    exact unnib62_nib62 x

theorem exists_nib62_iff_mem {b : Byte} : (∃ x, nib62 x = b) ↔ b ∈ nib62Table := by
  constructor
  · rintro ⟨x, rfl⟩
    exact List.getElem_mem _
  · intro hb
    obtain ⟨i, hi, rfl⟩ := List.mem_iff_getElem.mp hb
    have hi' : i < 64 := hi
    exact ⟨BitVec.ofNat 6 i, by simp [nib62, Nat.mod_eq_of_lt hi']⟩

/-- The table is the bytes that R93 and R94 ask for, in rising order. -/
theorem nib62Table_eq_filter : nib62Table = ((List.finRange 256).map BitVec.ofFin).filter fun b =>
    b.getLsbD 7 = true ∧
    ((List.range 7).filter fun k => !b.getLsbD k && !b.getLsbD (k + 1)).length ≤ 1 ∧
    (∃ k : Nat, k < 6 ∧ b.getLsbD k = true ∧ b.getLsbD (k + 1) = true) ∧ b ≠ 0xAA ∧ b ≠ 0xD5 := by
  decide

theorem mem_nib62Table_iff {b : Byte} : b ∈ nib62Table ↔
    b.getLsbD 7 = true ∧
    ((List.range 7).filter fun k => !b.getLsbD k && !b.getLsbD (k + 1)).length ≤ 1 ∧
    (∃ k, k < 6 ∧ b.getLsbD k = true ∧ b.getLsbD (k + 1) = true) ∧ b ≠ 0xAA ∧ b ≠ 0xD5 := by
  have hb : b ∈ (List.finRange 256).map BitVec.ofFin := List.mem_map.mpr ⟨b.toFin, List.mem_finRange _, rfl⟩
  rw [nib62Table_eq_filter, List.mem_filter, decide_eq_true_iff, and_iff_right hb]

end nib62

/-- Settles O22: the table is a filter of all bytes in rising order. -/
theorem denseAlphabet : Obligations.DenseAlphabet :=
  ⟨fun _ _ => nib62_lt, fun _ _ => unnib62_eq_some_iff, fun _ => exists_nib62_iff_mem.trans mem_nib62Table_iff⟩

section expand
variable (data : Sector)

/-- The exchanged low pair of a byte, 0 past the end (R97). -/
theorem lowPair_eq (k : Nat) : lowPair data k = rev2 ((data.toList.getD k 0).setWidth 2) := by
  unfold lowPair
  split
  · next h => simp [h]
  · next h => simp [h, rev2]

theorem rev2_bits (x : BitVec 2) : (rev2 x).getLsbD 0 = x.getLsbD 1 ∧ (rev2 x).getLsbD 1 = x.getLsbD 0 := by
  revert x; decide

/-- The bits of three pairs put together. -/
theorem pairs_bits (a b c : BitVec 2) :
    let v : Six := a.setWidth 6 ||| (b.setWidth 6 <<< 2) ||| (c.setWidth 6 <<< 4)
    v.getLsbD 0 = a.getLsbD 0 ∧ v.getLsbD 1 = a.getLsbD 1 ∧ v.getLsbD 2 = b.getLsbD 0 ∧ v.getLsbD 3 = b.getLsbD 1 ∧
      v.getLsbD 4 = c.getLsbD 0 ∧ v.getLsbD 5 = c.getLsbD 1 := by
  revert a b c; decide

theorem lowPair_bits (k : Nat) :
    (lowPair data k).getLsbD 0 = (data.toList.getD k 0).getLsbD 1 ∧
      (lowPair data k).getLsbD 1 = (data.toList.getD k 0).getLsbD 0 := by
  rw [lowPair_eq]
  simpa using rev2_bits ((data.toList.getD k 0).setWidth 2)

theorem highSix_toNat (b : Byte) : ((b >>> 2).setWidth 6).toNat = b.toNat / 4 := by
  have hb := b.isLt
  rw [BitVec.toNat_setWidth, BitVec.toNat_ushiftRight, Nat.shiftRight_eq_div_pow]
  omega

end expand

/-- Settles O23, from the bits of the three exchanged pairs. -/
theorem denseValues : Obligations.DenseValues := by
  intro data
  refine ⟨expand_length data, fun k hk => ⟨_, expand_low data k hk, ?_⟩, fun i hi => ⟨_, expand_high data i hi, ?_⟩⟩
  · simp only [← (lowPair_bits data _).1, ← (lowPair_bits data _).2]
    exact pairs_bits (lowPair data k) (lowPair data (k + 86)) (lowPair data (k + 172))
  · rw [highSix_toNat]
    simp [Config.sectorBytes, hi]

section chain
variable (p : Six)

/-- Each byte of a chain writes a value xor its predecessor (R98). -/
theorem chain_getElem? (vs : List Six) {i : Nat} (hi : i < vs.length) :
    (chain p vs)[i]? = some (nib62 (vs.getD i 0 ^^^ (p :: vs).getD i 0)) := by
  induction vs generalizing p i with
  | nil => cases hi
  | cons v vs ih =>
    cases i with
    | zero => rfl
    | succ i => simpa [chain] using ih v (Nat.lt_of_succ_lt_succ hi)

/-- The last byte of a chain writes the last value (R98). -/
theorem chain_getElem?_length (vs : List Six) :
    (chain p vs)[vs.length]? = some (nib62 ((p :: vs).getD vs.length 0)) := by
  induction vs generalizing p with
  | nil => rfl
  | cons v vs ih => simpa [chain] using ih v

end chain

/-- Settles O24, from the bytes of a chain. -/
theorem denseChain : Obligations.DenseChain := by
  intro data
  have hl := expand_length data
  refine ⟨enc62_length data, ?_, fun i h0 hi => ?_, ?_⟩
  · rw [enc62, chain_getElem? 0 _ (by omega)]
    simp
  · obtain ⟨i, rfl⟩ := Nat.exists_eq_succ_of_ne_zero h0.ne'
    rw [enc62, chain_getElem? 0 _ (by omega)]
    rfl
  · rw [enc62, ← hl, chain_getElem?_length 0, hl]
    rfl

section unchain
variable {p x : Six} {b e : Byte} {es : List Byte}

theorem unchain_cons_none (h : unnib62 e = none) : unchain p (e :: es) = none := by
  cases es <;> simp [unchain, h]

theorem unchain_cons_some (h : unnib62 e = some x) (hes : es ≠ []) :
    unchain p (e :: es) = (unchain (x ^^^ p) es).map ((x ^^^ p) :: ·) := by
  obtain ⟨c, cs, rfl⟩ := List.exists_cons_of_ne_nil hes
  simp [unchain, h]

/-- A body with a byte outside the alphabet has no values (R95, R99). -/
theorem unchain_of_mem_none (hb : b ∈ es) (h : unnib62 b = none) : unchain p es = none := by
  induction es generalizing p with
  | nil => cases hb
  | cons e es ih =>
    cases he : unnib62 e with
    | none => exact unchain_cons_none he
    | some x =>
      have hb : b ∈ es := (List.mem_cons.mp hb).resolve_left fun h' => by simp [← h', h] at he
      rw [unchain_cons_some he (List.ne_nil_of_mem hb), ih hb]
      rfl

/-- A body of alphabet bytes has values exactly when its checksum is 0 (R98, R99). -/
theorem unchain_map_nib62_eq_none_iff {xs : List Six} (hne : xs ≠ []) :
    unchain p (xs.map nib62) = none ↔ xs.foldl (· ^^^ ·) p ≠ 0 := by
  induction xs generalizing p with
  | nil => exact absurd rfl hne
  | cons x xs ih =>
    cases xs with
    | nil => simp [unchain, unnib62_nib62, BitVec.xor_eq_zero_iff, eq_comm (a := p)]
    | cons y ys =>
      rw [List.map_cons, unchain_cons_some (unnib62_nib62 x) (by simp), Option.map_eq_none_iff, ih (by simp),
        BitVec.xor_comm]
      rfl

end unchain

section dec62

theorem lowSix_shift (data : Sector) {i : Nat} (hi : i < 256) :
    ((lowSix data (i % 86)) >>> (2 * (i / 86))).setWidth 2 = lowPair data i := by
  obtain ⟨h0, h1, h2⟩ := lowSix_pair (lowPair data (i % 86)) (lowPair data (i % 86 + 86)) (lowPair data (i % 86 + 172))
  have h : i / 86 = 0 ∧ i % 86 = i ∨ i / 86 = 1 ∧ i % 86 + 86 = i ∨ i / 86 = 2 ∧ i % 86 + 172 = i := by omega
  rcases h with ⟨hq, hr⟩ | ⟨hq, hr⟩ | ⟨hq, hr⟩
  · rw [hq]; exact h0.trans (by rw [hr])
  · rw [hq]; exact h1.trans (by rw [hr])
  · rw [hq]; exact h2.trans (by rw [hr])

/-- A byte of a sector from the sector's values (R97, R99). -/
theorem assembleByte_expand (data : Sector) (i : Fin Config.sectorBytes) :
    assembleByte (expand data) i.val = data[i] := by
  have hi : i.val < 256 := i.isLt
  rw [assembleByte, List.getD_eq_getElem?_getD, List.getD_eq_getElem?_getD, expand_high data i hi,
    expand_low data (i.val % 86) (Nat.mod_lt _ (by decide)), Option.getD_some, Option.getD_some, lowSix_shift data hi,
    lowPair, dif_pos i.isLt]
  exact join_pair data[i]

/-- The dense code is undone (R99). -/
theorem dec62_enc62 (data : Sector) : dec62 (enc62 data) = some data := by
  rw [dec62, enc62, unchain_chain, Option.map_some]
  refine congrArg some (Vector.ext fun i hi => ?_)
  rw [Vector.getElem_ofFn]
  exact assembleByte_expand data ⟨i, hi⟩

theorem dec62_of_unchain_none {e : List Byte} (h : unchain 0 e = none) : dec62 e = none := by
  rw [dec62, h, Option.map_none]

/-- The value at index `i` of a body of six-bit numbers: the exclusive or of the first `i + 1` (R98). -/
def runningXor (xs : List Six) (i : Nat) : Six :=
  (xs.take (i + 1)).foldl (· ^^^ ·) 0

/-- What a body of 343 alphabet bytes with checksum 0 decodes to (R99). -/
theorem dec62_map_nib62 {xs : List Six} (hl : xs.length = 343) (h0 : xs.foldl (· ^^^ ·) 0 = 0) :
    ∃ vs : List Six, dec62 (xs.map nib62) = some (Vector.ofFn fun i => assembleByte vs i.val) ∧
      ∀ i, i < 342 → vs.getD i 0 = runningXor xs i := by
  obtain ⟨vs, hv, hvl, hg⟩ := unchain_map_nib62 xs (List.ne_nil_of_length_eq_add_one hl) 0 h0
  refine ⟨vs, by rw [dec62, hv, Option.map_some], fun i hi => ?_⟩
  rw [List.getD_eq_getElem?_getD, hg i (by omega)]
  rfl

/-- A pair below bit 4 of a value is one of its low four bits (R97). -/
theorem pair_setWidth_four (x : Six) (q : Nat) (hq : q ≤ 1) :
    (x >>> (2 * q)).setWidth 2 = ((x.setWidth 4) >>> (2 * q)).setWidth 2 := by
  have h : q = 0 ∨ q = 1 := by omega
  rcases h with rfl | rfl <;> (revert x; decide)

/-- Bits 5:4 of values 84 and 85 are no byte's: index `i` reads its pair of them at `i / 86 ≤ 1` (R97). -/
theorem assembleByte_congr {vs ws : List Six} (h : ∀ k, k < 342 → k ≠ 84 → k ≠ 85 → vs.getD k 0 = ws.getD k 0)
    (h4 : ∀ k, k = 84 ∨ k = 85 → (vs.getD k 0).setWidth 4 = (ws.getD k 0).setWidth 4) {i : Nat} (hi : i < 256) :
    assembleByte vs i = assembleByte ws i := by
  have pair : ((vs.getD (i % 86) 0) >>> (2 * (i / 86))).setWidth 2 =
      ((ws.getD (i % 86) 0) >>> (2 * (i / 86))).setWidth 2 := by
    by_cases hk : i % 86 = 84 ∨ i % 86 = 85
    · have hq : i / 86 ≤ 1 := by omega
      rw [pair_setWidth_four _ _ hq, pair_setWidth_four _ _ hq, h4 _ hk]
    · rw [h _ (by omega) (by omega) (by omega)]
  rw [assembleByte, assembleByte, h (86 + i) (by omega) (by omega) (by omega), pair]

end dec62

/-- Settles O25: what `unchain` gives is the running exclusive or, and `assembleByte` reads it back. -/
theorem denseDecode : Obligations.DenseDecode := by
  refine ⟨dec62_enc62, fun e b hb h => ?_, fun xs hne => ?_, fun xs hl h0 => ?_, fun xs ys hl hl' h0 h0' h h4 => ?_⟩
  · exact dec62_of_unchain_none (unchain_of_mem_none hb h)
  · rw [dec62, Option.map_eq_none_iff]
    exact unchain_map_nib62_eq_none_iff hne
  · obtain ⟨vs, hd, hv⟩ := dec62_map_nib62 hl h0
    refine ⟨_, hd, fun i => ?_⟩
    have hi : i.val < 256 := i.isLt
    simp only [Fin.getElem_fin, Vector.getElem_ofFn, assembleByte]
    rw [hv _ (by omega), hv _ (by omega)]
    rfl
  · obtain ⟨vs, hd, hv⟩ := dec62_map_nib62 hl h0
    obtain ⟨ws, hd', hw⟩ := dec62_map_nib62 hl' h0'
    have hvw : ∀ i : Fin Config.sectorBytes, assembleByte vs i.val = assembleByte ws i.val := by
      refine fun i => assembleByte_congr (fun k hk n4 n5 => ?_) (fun k hk => ?_) i.isLt
      · rw [hv k hk, hw k hk]
        exact h k hk n4 n5
      · rw [hv k (by omega), hw k (by omega)]
        exact h4 k hk
    rw [hd, hd', funext hvw]

end Sys2Proof.Machine
end

