-- ==== Sys2Proof/Proofs/TrackFormat.lean ====
section
/-! A sector frame and its parts (R100 to R102), a track and its frames (R103, R104). -/

namespace Sys2Proof.Machine

/-- A part of a list, cut out at its offset. -/
theorem take_drop_append {α : Type} {a b c : List α} {m n : Nat} (ha : a.length = m) (hb : b.length = n) :
    ((a ++ (b ++ c)).drop m).take n = b := by
  rw [List.drop_left' ha, List.take_left' hb]

section frame
variable (t : Fin Config.nTracks) (p : Fin Config.nSectors) (data : Sector)

theorem frameOf_addrField : ((frameOf t p data).drop 47).take 14 = addrField t p := by
  simp only [frameOf, List.append_assoc]
  exact take_drop_append List.length_replicate (addrField_length t p)

theorem frameOf_drop_dataField : (frameOf t p data).drop 67 = dataField data :=
  List.drop_left' (by simp [addrField_length, gapA, gapB])

theorem frameOf_drop (n : Nat) : (frameOf t p data).drop (67 + n) = (dataField data).drop n := by
  rw [← List.drop_drop, frameOf_drop_dataField]

theorem dataField_enc62 : ((dataField data).drop 3).take 343 = enc62 data := by
  rw [dataField, List.append_assoc]
  exact take_drop_append rfl (enc62_length data)

theorem dataField_drop_epilogue : (dataField data).drop 346 = epilogue :=
  List.drop_left' (by rw [List.length_append, enc62_length]; rfl)

end frame

/-- Settles O26: the data field is what stands at offset 67, and its parts are cut out of it. -/
theorem frameLayout : Obligations.FrameLayout := by
  intro t p data
  refine ⟨frameOf_length t p data, fun o ho => ?_, fun o ho ho' => ?_, ?_, ?_, ?_, ?_⟩
  · simp only [frameOf_parts, if_pos ho]
  · simp only [frameOf_parts, if_neg (show ¬ o < 47 by omega), if_neg (show ¬ o < 61 by omega), if_pos ho']
  · exact frameOf_addrField t p data
  · simp only [frameOf_drop_dataField]
    rfl
  · exact (congrArg (List.take 343) (frameOf_drop t p data 3)).trans (dataField_enc62 data)
  · exact (frameOf_drop t p data 346).trans (dataField_drop_epilogue data)

theorem trackOf_frame (t : Fin Config.nTracks) (trk : Vector Byte Config.trackBytes) (p : Fin Config.nSectors) :
    ((trackOf t trk).toList.drop (416 * p.val)).take 416 = frameOf t p (sectorOf trk interleave[p]) := by
  refine List.ext_getElem? fun o => ?_
  rw [List.getElem?_take, List.getElem?_drop]
  split
  · next ho => exact trackOf_getElem? t trk p o ho
  · next ho => exact (List.getElem?_eq_none (by rw [frameOf_length]; omega)).symm

theorem sectorOf_getElem (trk : Vector Byte Config.trackBytes) (l : Fin Config.nSectors)
    (i : Fin Config.sectorBytes) : (sectorOf trk l)[i] = trk.toList[l.val * 256 + i.val]?.getD 0 := by
  have h : l.val * 256 + i.val < Config.trackBytes := by
    have hl := l.isLt
    have hi := i.isLt
    simp only [Config.nSectors, Config.sectorBytes, Config.trackBytes] at *
    omega
  simp [sectorOf, h]

/-- Settles O27. The table is read off its definition. -/
theorem trackLayout : Obligations.TrackLayout :=
  ⟨rfl, fun t trk p => ⟨trackOf_frame t trk p, sectorOf_getElem trk⟩⟩

end Sys2Proof.Machine
end

