-- ==== Sys2Proof/Proofs/FieldScan.lean ====
section
/-! The decoder's scan (R121 to R127): when an address field, a data prologue, a data field and the pair of fields they
make stand at an index; that each moves with the stream; and what the scan finds for a logical sector. -/

namespace Sys2Proof.Machine

section fields
variable {g : Nat → Byte} {t : Fin Config.nTracks} {i j : Nat}

/-- A byte is a track's number exactly when it has that value: 35 tracks fit in a byte. -/
theorem eq_ofNat_track_iff {b : Byte} : b = BitVec.ofNat 8 t.val ↔ b.toNat = t.val := by
  refine ⟨?_, eq_ofNat_of_toNat_eq⟩
  have ht : t.val < 35 := t.isLt
  rintro rfl
  rw [BitVec.toNat_ofNat]
  omega

/-- R122, every condition. The bound on the sector number is that of `sec`. -/
theorem addressFieldAt_eq_some_iff {sec : Fin Config.nSectors} :
    addressFieldAt g t i = some sec ↔
      g i = 0xD5 ∧ g (i + 1) = 0xAA ∧ g (i + 2) = 0x96 ∧
      dec44 (g (i + 9)) (g (i + 10)) =
        dec44 (g (i + 3)) (g (i + 4)) ^^^ dec44 (g (i + 5)) (g (i + 6)) ^^^ dec44 (g (i + 7)) (g (i + 8)) ∧
      (dec44 (g (i + 5)) (g (i + 6))).toNat = t.val ∧ (dec44 (g (i + 7)) (g (i + 8))).toNat = sec.val ∧
      g (i + 11) = 0xDE ∧ g (i + 12) = 0xAA := by
  simp only [addressFieldAt, Option.ite_none_right_eq_some, Option.dite_none_right_eq_some, Option.some.injEq,
    Fin.ext_iff, eq_ofNat_track_iff]
  constructor
  · rintro ⟨⟨h0, h1, h2⟩, ⟨hchk, htrk, he, he'⟩, -, hsec⟩
    exact ⟨h0, h1, h2, hchk, htrk, hsec, he, he'⟩
  · rintro ⟨h0, h1, h2, hchk, htrk, hsec, he, he'⟩
    exact ⟨⟨h0, h1, h2⟩, ⟨hchk, htrk, he, he'⟩, hsec ▸ sec.isLt, hsec⟩

/-- The three bytes of DATA_PRO stand at an index (R105). -/
def dataProAt (g : Nat → Byte) (k : Nat) : Bool :=
  g k = 0xD5 && g (k + 1) = 0xAA && g (k + 2) = 0xAD

theorem dataProAt_iff : dataProAt g j = true ↔ g j = 0xD5 ∧ g (j + 1) = 0xAA ∧ g (j + 2) = 0xAD := by
  simp [dataProAt, and_assoc]

/-- The window of R123 is a run of 33 neighbouring positions. -/
theorem dataPrologueAfter_eq_find? : dataPrologueAfter g i = (List.range' (i + 14) 33).find? (dataProAt g) := by
  rw [List.range'_eq_map_range]
  rfl

theorem dataPrologueAfter_eq_some_iff {k : Nat} :
    dataPrologueAfter g i = some k ↔
      i + 14 ≤ k ∧ k ≤ i + 14 + 32 ∧ dataProAt g k = true ∧ ∀ j, i + 14 ≤ j → j < k → ¬ dataProAt g j = true := by
  rw [dataPrologueAfter_eq_find?, List.find?_range'_eq_some, List.mem_range'_1]
  simp only [Bool.not_eq_true', Bool.not_eq_true]
  constructor
  · rintro ⟨hk, ⟨hlo, hhi⟩, hmin⟩
    exact ⟨hlo, by omega, hk, hmin⟩
  · rintro ⟨hlo, hhi, hk, hmin⟩
    exact ⟨hk, ⟨hlo, by omega⟩, hmin⟩

theorem dataPrologueAfter_eq_none_iff :
    dataPrologueAfter g i = none ↔ ∀ k, i + 14 ≤ k → k ≤ i + 14 + 32 → ¬ dataProAt g k = true := by
  rw [dataPrologueAfter_eq_find?, List.find?_range'_eq_none]
  simp only [Bool.not_eq_true', Bool.not_eq_true]
  exact forall₂_congr fun k _ => imp_congr_left (by omega)

theorem dataFieldAt_eq_some_iff {data : Sector} : dataFieldAt g j = some data ↔
    dec62 ((List.range 343).map fun m => g (j + 3 + m)) = some data ∧ g (j + 346) = 0xDE ∧ g (j + 347) = 0xAA := by
  rw [dataFieldAt, Option.ite_none_right_eq_some, and_comm]

/-- R121, R125: the three parts of a pair are found in turn. -/
theorem pairAt_eq_some_iff {l : Fin Config.nSectors} {data : Sector} : pairAt g t i = some (l, data) ↔
    ∃ sec j, addressFieldAt g t i = some sec ∧ dataPrologueAfter g i = some j ∧ dataFieldAt g j = some data ∧
      l = interleave[sec] := by
  constructor
  · intro h
    unfold pairAt at h
    split at h
    · cases h
    · next sec hA =>
      split at h
      · cases h
      · next j hP =>
        obtain ⟨data', hD, h⟩ := Option.map_eq_some_iff.mp h
        obtain ⟨rfl, rfl⟩ := Prod.mk.inj h
        exact ⟨sec, j, hA, hP, hD, rfl⟩
  · rintro ⟨sec, j, hA, hP, hD, rfl⟩
    exact pairAt_of hA hP hD

end fields

/-- Settles O28. -/
theorem addressFieldAccepted : Obligations.AddressFieldAccepted :=
  fun _ _ _ _ => addressFieldAt_eq_some_iff

/-- Settles O29: the find of the window, with the three bytes written out. -/
theorem dataPrologueIsFirstInWindow : Obligations.DataPrologueIsFirstInWindow := by
  intro g i
  simp only [← dataProAt_iff]
  exact ⟨fun _ => dataPrologueAfter_eq_some_iff, dataPrologueAfter_eq_none_iff⟩

/-- Settles O30. -/
theorem validPairOfFields : Obligations.ValidPairOfFields :=
  fun _ _ _ => ⟨fun _ _ => dataFieldAt_eq_some_iff, fun _ _ => pairAt_eq_some_iff⟩

section shift
variable (g : Nat → Byte) (t : Fin Config.nTracks) (r i : Nat)

theorem addressFieldAt_shift : addressFieldAt (fun k => g (k + r)) t i = addressFieldAt g t (i + r) := by
  simp only [addressFieldAt, Nat.add_right_comm i _ r]

theorem dataProAt_shift : dataProAt (fun k => g (k + r)) = dataProAt g ∘ (r + ·) := by
  funext k
  simp only [dataProAt, Function.comp_apply, Nat.add_comm r k, Nat.add_right_comm k _ r]

theorem dataPrologueAfter_shift :
    dataPrologueAfter g (i + r) = (dataPrologueAfter (fun k => g (k + r)) i).map (r + ·) := by
  have window : List.range' (i + r + 14) 33 = (List.range' (i + 14) 33).map (r + ·) := by
    rw [List.map_add_range', Nat.add_right_comm, Nat.add_comm r]
  rw [dataPrologueAfter_eq_find?, dataPrologueAfter_eq_find?, window, List.find?_map, dataProAt_shift]

theorem dataFieldAt_shift : dataFieldAt (fun k => g (k + r)) i = dataFieldAt g (r + i) := by
  simp only [dataFieldAt, Nat.add_comm r i, Nat.add_right_comm _ _ r]

/-- Every test of the decoder is relative to the start index, so a pair moves with the stream (R122 to R125). -/
theorem pairAt_shift : pairAt (fun k => g (k + r)) t i = pairAt g t (i + r) := by
  simp only [pairAt, addressFieldAt_shift, dataPrologueAfter_shift g r i]
  cases addressFieldAt g t (i + r) with
  | none => rfl
  | some sec =>
    cases dataPrologueAfter (fun k => g (k + r)) i with
    | none => rfl
    | some j => simp only [Option.map_some, dataFieldAt_shift]

end shift

section circular
variable (buf : List Byte) (t : Fin Config.nTracks)

theorem circular_toArray : circular buf.toArray = fun j => buf.getD (j % buf.length) 0 := by
  funext j
  simp [circular]

/-- A start index counts only modulo the length of the stream (R121). -/
theorem pairAt_circular_periodic : Function.Periodic (pairAt (circular buf.toArray) t) buf.length := by
  intro i
  rw [← pairAt_shift]
  exact congrArg (pairAt · t i) (funext fun k => circular_add_size buf.toArray k)

theorem circular_rotate (r : Nat) : circular (buf.rotate r).toArray = fun k => circular buf.toArray (k + r) := by
  funext k
  rcases Nat.eq_zero_or_pos buf.length with h0 | hpos
  · rw [List.eq_nil_of_length_eq_zero h0]
    rfl
  · simp only [circular_toArray, List.getD_eq_getElem?_getD, List.length_rotate,
      List.getElem?_rotate (Nat.mod_lt k hpos), Nat.mod_add_mod]

end circular

section firstFind
variable {α β : Type} [DecidableEq α] {f : Nat → Option (α × β)} {n : Nat} {l : α} {v : β}

theorem lookup_filterMap_singleton : ([n].filterMap f).lookup l = some v ↔ f n = some (l, v) := by
  cases hf : f n with
  | none => simp [hf]
  | some kv =>
    obtain ⟨k, w⟩ := kv
    by_cases hk : l = k
    · simp [hf, hk]
    · have hb : (l == k) = false := beq_false_of_ne hk
      simp [hf, Ne.symm hk, List.lookup_cons, hb]

theorem lookup_filterMap_eq_none_iff {L : List Nat} :
    (L.filterMap f).lookup l = none ↔ ∀ i ∈ L, ∀ v, f i ≠ some (l, v) := by
  rw [List.lookup_eq_none_iff]
  constructor
  · intro h i hi v hf
    simpa using h (l, v) (List.mem_filterMap.mpr ⟨i, hi, hf⟩)
  · rintro h ⟨k, v⟩ hp
    obtain ⟨i, hi, hf⟩ := List.mem_filterMap.mp hp
    refine bne_iff_ne.mpr ?_
    rintro rfl
    exact h i hi v hf

/-- What a search of the first `n` indices finds under a key is the value at the least index that has the key. -/
theorem lookup_filterMap_range_eq_some_iff : ((List.range n).filterMap f).lookup l = some v ↔
    ∃ i, i < n ∧ f i = some (l, v) ∧ ∀ j, j < i → ∀ v', f j ≠ some (l, v') := by
  induction n with
  | zero => simp
  | succ n ih =>
    rw [List.range_succ, List.filterMap_append, List.lookup_append, Option.or_eq_some_iff, ih,
      lookup_filterMap_singleton, lookup_filterMap_eq_none_iff]
    simp only [List.mem_range]
    constructor
    · rintro (⟨i, hi, h⟩ | ⟨hnone, hn⟩)
      · exact ⟨i, Nat.lt_succ_of_lt hi, h⟩
      · exact ⟨n, Nat.lt_succ_self n, hn, hnone⟩
    · rintro ⟨i, hi, hf, hmin⟩
      rcases Nat.lt_succ_iff_lt_or_eq.mp hi with hi | rfl
      · exact .inl ⟨i, hi, hf, hmin⟩
      · exact .inr ⟨hmin, hf⟩

end firstFind

section scan
variable {t : Fin Config.nTracks} {l : Fin Config.nSectors} {data : Sector}

/-- R125: of the pairs for a logical sector, the one with the least start index is kept. -/
theorem scan_eq_some_iff {buf : Array Byte} : (scan buf t)[l] = some data ↔
    ∃ i, i < buf.size ∧ pairAt (circular buf) t i = some (l, data) ∧
      ∀ j, j < i → ∀ data', pairAt (circular buf) t j ≠ some (l, data') := by
  rw [scan_getElem]
  exact lookup_filterMap_range_eq_some_iff

/-- No logical sector has two valid pairs with different data. -/
def PairsAgree (buf : List Byte) (t : Fin Config.nTracks) : Prop :=
  ∀ i j l data data', pairAt (circular buf.toArray) t i = some (l, data) →
    pairAt (circular buf.toArray) t j = some (l, data') → data = data'

variable {buf : List Byte}

/-- R127's proviso, that no logical sector has two valid pairs in the stream. -/
theorem pairsAgree_of_unique (hpos : 0 < buf.length)
    (h : ∀ i j l data data', i < buf.length → j < buf.length → pairAt (circular buf.toArray) t i = some (l, data) →
      pairAt (circular buf.toArray) t j = some (l, data') → i = j) : PairsAgree buf t := by
  intro i j l data data' hi hj
  have periodic := pairAt_circular_periodic buf t
  rw [← periodic.map_mod_nat] at hi hj
  have hij := h _ _ l data data' (Nat.mod_lt i hpos) (Nat.mod_lt j hpos) hi hj
  rw [← hij, hi] at hj
  exact (Prod.mk.inj (Option.some.inj hj)).2

/-- Where the pairs of a logical sector agree, which of them comes first makes no difference. -/
theorem PairsAgree.scan_eq_some_iff_exists (h : PairsAgree buf t) (hpos : 0 < buf.length) :
    (scan buf.toArray t)[l] = some data ↔ ∃ i, pairAt (circular buf.toArray) t i = some (l, data) := by
  constructor
  · intro hs
    obtain ⟨i, -, hi, -⟩ := scan_eq_some_iff.mp hs
    exact ⟨i, hi⟩
  · rintro ⟨i, hi⟩
    rw [scan_getElem]
    refine lookup_filterMap _ _ _ _ ⟨i % buf.length, ?_, ?_⟩ fun j _ data' hj => h j i l data' data hj hi
    · simpa using Nat.mod_lt i hpos
    · rw [(pairAt_circular_periodic buf t).map_mod_nat, hi]

theorem pairAt_circular_rotate (r i : Nat) :
    pairAt (circular (buf.rotate r).toArray) t i = pairAt (circular buf.toArray) t (i + r) := by
  rw [circular_rotate, pairAt_shift]

theorem PairsAgree.rotate (h : PairsAgree buf t) (r : Nat) : PairsAgree (buf.rotate r) t := by
  intro i j l data data' hi hj
  rw [pairAt_circular_rotate] at hi hj
  exact h _ _ l data data' hi hj

/-- R127: a rotation moves the pairs around the stream, and what the scan finds does not depend on where they stand. -/
theorem PairsAgree.scan_rotate (h : PairsAgree buf t) (hpos : 0 < buf.length) {r : Nat} (hr : r ≤ buf.length) :
    scan (buf.rotate r).toArray t = scan buf.toArray t := by
  refine Vector.ext fun l hl => Option.ext fun data => ?_
  have hpos' : 0 < (buf.rotate r).length := by rwa [List.length_rotate]
  have rotated := (h.rotate r).scan_eq_some_iff_exists (l := ⟨l, hl⟩) (data := data) hpos'
  have original := h.scan_eq_some_iff_exists (l := ⟨l, hl⟩) (data := data) hpos
  simp only [pairAt_circular_rotate] at rotated
  refine rotated.trans (Iff.trans ?_ original.symm)
  constructor
  · rintro ⟨i, hi⟩
    exact ⟨i + r, hi⟩
  · rintro ⟨i, hi⟩
    refine ⟨i + (buf.length - r), ?_⟩
    rw [Nat.add_assoc, Nat.sub_add_cancel hr, pairAt_circular_periodic buf t i, hi]

end scan

/-- Settles O34: a rotation is `List.rotate`; the empty stream has only the one. -/
theorem scanIgnoresRotation : Obligations.ScanIgnoresRotation := by
  intro t buf r hr h
  rw [← List.rotate_eq_drop_append_take hr]
  rcases Nat.eq_zero_or_pos buf.length with h0 | hpos
  · rw [List.eq_nil_of_length_eq_zero h0, List.rotate_nil]
  · exact (pairsAgree_of_unique hpos h).scan_rotate hpos hr

/-- No sector is missing from a result that has all sixteen (R126). -/
theorem failMask_ofFn_some (f : Fin Config.nSectors → Sector) : failMask (Vector.ofFn fun l => some (f l)) = 0 :=
  (failMask_eq_zero _).mpr fun l => by simp

/-- R103, R105: a pair in an encoded track is that of one of its frames, so its data are those of its sector. -/
theorem pairAt_trackOf_data {t : Fin Config.nTracks} {trk : Vector Byte Config.trackBytes} {i : Nat}
    {l : Fin Config.nSectors} {data : Sector} (hi : i < 6656)
    (h : pairAt (circular (trackOf t trk).toArray) t i = some (l, data)) : data = sectorOf trk l := by
  obtain ⟨h0, h2⟩ := pairAt_prologue h
  obtain ⟨p, o, ho, rfl⟩ : ∃ (p : Fin Config.nSectors) (o : Nat), o < 416 ∧ i = 416 * p.val + o :=
    ⟨⟨i / 416, Nat.div_lt_of_lt_mul hi⟩, i % 416, Nat.mod_lt i (by decide), (Nat.div_add_mod i 416).symm⟩
  obtain rfl := trackOf_prologue t trk p o ho h0 h2
  rw [pairAt_trackOf t trk p (dec62_enc62 _)] at h
  obtain ⟨rfl, rfl⟩ := Prod.mk.inj (Option.some.inj h)
  rfl

/-- R128 for the scan: every logical sector stands in one of the frames, and nothing else is found for it. -/
theorem scan_trackOf (t : Fin Config.nTracks) (trk : Vector Byte Config.trackBytes) :
    scan (trackOf t trk).toArray t = Vector.ofFn fun l => some (sectorOf trk l) := by
  refine Vector.ext fun l hl => ?_
  rw [Vector.getElem_ofFn]
  obtain ⟨p, hp⟩ := interleave_onto ⟨l, hl⟩
  refine (scan_getElem _ t ⟨l, hl⟩).trans (lookup_filterMap _ _ _ _ ⟨416 * p.val + 47, ?_, ?_⟩ fun i hi data h => ?_)
  · have hp' : p.val < 16 := p.isLt
    rw [List.mem_range, trackOf_size]
    omega
  · rw [pairAt_trackOf t trk p (dec62_enc62 _), hp]
  · rw [List.mem_range, trackOf_size] at hi
    exact pairAt_trackOf_data hi h

end Sys2Proof.Machine
end

