-- ==== Sys2Proof/Proofs/CodecOperations.lean ====
section
/-! CENC and CDEC (R120, R121, R129): one equation for each case of the two operations, and the round trip through both
(R128). -/

namespace Sys2Proof.Machine

section operands

/-- The track operand in range (R120, R121). -/
theorem trackIndex_eq_some {t : Byte} (h : t.toNat ≤ 34) :
    ∃ t' : Fin Config.nTracks, t'.val = t.toNat ∧ trackIndex t = some t' :=
  ⟨⟨t.toNat, Nat.lt_succ_of_le h⟩, rfl, dif_pos (Nat.lt_succ_of_le h)⟩

theorem trackIndex_eq_none {t : Byte} (h : 34 < t.toNat) : trackIndex t = none :=
  dif_neg (Nat.not_lt_of_le h)

theorem sideBlock_eq_none {b : List Byte} (h : b.length ≠ 4096) : sideBlock b = none :=
  dif_neg h

theorem sideBlock_toList (trk : Vector Byte Config.trackBytes) : sideBlock trk.toList = some trk :=
  dif_pos trk.length_toList

/-- Every sequence of 4096 bytes is a block (R120). -/
theorem exists_toList_eq {b : List Byte} (h : b.length = 4096) :
    ∃ trk : Vector Byte Config.trackBytes, trk.toList = b :=
  ⟨⟨b.toArray, h⟩, rfl⟩

end operands

section cenc
variable {t : Byte} {t' : Fin Config.nTracks} {s : State}

theorem exec_cenc_track_range (h : trackIndex t = none) :
    exec (.cenc t) s = .next (s.respond (raisedResponse .ppTrackRange) .none) := by
  simp only [exec, execCenc, h]
  rfl

theorem exec_cenc_bad_block (ht : trackIndex t = some t') (hb : sideBlock (sideBytes s.sideIn) = none) :
    exec (.cenc t) s = .next (s.respond (raisedResponse .ppBadOperand) .none) := by
  simp only [exec, execCenc, ht, hb]
  rfl

theorem exec_cenc_encodes {trk : Vector Byte Config.trackBytes} (ht : trackIndex t = some t')
    (hb : sideBytes s.sideIn = trk.toList) :
    exec (.cenc t) s = .next (s.respond (okResponse 0) (.stream (trackOf t' trk))) := by
  simp only [exec, execCenc, ht, hb, sideBlock_toList]
  rfl

end cenc

section cdec
variable {t : Byte} {t' : Fin Config.nTracks} {s : State}

theorem exec_cdec_track_range (h : trackIndex t = none) :
    exec (.cdec t) s = .next (s.respond (raisedResponse .ppTrackRange) .none) := by
  simp only [exec, execCdec, h]
  rfl

theorem exec_cdec_no_stream (ht : trackIndex t = some t') (hb : sideBytes s.sideIn = []) :
    exec (.cdec t) s = .next (s.respond (raisedResponse .ppBadOperand) .none) := by
  simp only [exec, execCdec, ht, hb]
  rfl

theorem exec_cdec_decodes {buf : List Byte} (ht : trackIndex t = some t') (hb : sideBytes s.sideIn = buf)
    (hne : buf ≠ []) :
    exec (.cdec t) s = .next (s.respond (flushResponse (failMask (scan buf.toArray t')))
      (.sectors (scan buf.toArray t'))) := by
  simp only [exec, execCdec, ht, hb, if_neg hne]
  rfl

end cdec

/-- Settles O31. -/
theorem cencEncodesTrack : Obligations.CencEncodesTrack := by
  intro t s
  refine ⟨by revert t; decide, fun h => exec_cenc_track_range (trackIndex_eq_none h), fun ht hb => ?_, fun ht hb => ?_⟩
  · obtain ⟨t', -, ht'⟩ := trackIndex_eq_some ht
    exact exec_cenc_bad_block ht' (sideBlock_eq_none hb)
  · obtain ⟨t', hv, ht'⟩ := trackIndex_eq_some ht
    obtain ⟨trk, hb⟩ := exists_toList_eq hb
    exact ⟨t', trk, hv, hb, exec_cenc_encodes ht' hb.symm⟩

/-- Settles O32: the result is the scan's, and the mask is that of its missing sectors. -/
theorem cdecDecodesTrack : Obligations.CdecDecodesTrack := by
  intro t s buf
  refine ⟨by revert t; decide, fun h => exec_cdec_track_range (trackIndex_eq_none h), fun ht hb => ?_, fun ht hb => ?_⟩
  · obtain ⟨t', -, ht'⟩ := trackIndex_eq_some ht
    exact exec_cdec_no_stream ht' hb
  · obtain ⟨t', hv, ht'⟩ := trackIndex_eq_some ht
    refine ⟨t', scan buf.toArray t', _, hv, exec_cdec_decodes ht' rfl hb, failMask_getLsb _, fun l data => ?_⟩
    rw [← circular_toArray]
    exact scan_eq_some_iff

/-- Settles O33: the stream that CENC answers is scanned for its sixteen sectors, so none is missing. -/
theorem codecRoundTrip : Obligations.CodecRoundTrip := by
  intro t trk s ht
  obtain ⟨t', -, ht'⟩ := trackIndex_eq_some ht
  refine ⟨trackOf t' trk, exec_cenc_encodes ht' rfl, ?_⟩
  have hne : (trackOf t' trk).toList ≠ [] := List.ne_nil_of_length_eq_add_one (Vector.length_toList ..)
  have hscan : scan (trackOf t' trk).toList.toArray t' = Vector.ofFn fun l => some (sectorOf trk l) :=
    scan_trackOf t' trk
  refine (exec_cdec_decodes (buf := (trackOf t' trk).toList) ht' rfl hne).trans ?_
  rw [hscan, failMask_ofFn_some]
  rfl

end Sys2Proof.Machine
end

