-- ==== Sys2Proof/Proofs/Protection.lean ====
section
/-! A protected image is never written (R30, R60, R159): a byte write of a protected drive stores nothing, so its buffer
stays clean, and a flush of a clean buffer writes nothing back. -/

namespace Sys2Proof.Machine

/-- The drive has no buffer with bytes still to be written back (R35). -/
def Drive.Clean (x : Drive) : Prop :=
  ∀ tb, x.tb = some tb → tb.dirty = false

section clean
variable {x : Drive} {k : Disk}

theorem Drive.wp_iff (hk : x.img = some k) : x.wp = true ↔ x.wpo = true ∨ k.ro = true := by
  simp [Drive.wp, hk]

theorem Drive.clean_of_tb_none (h : x.tb = none) : x.Clean := by
  simp [Drive.Clean, h]

theorem Drive.Clean.accessed (hc : x.Clean) (k : Disk) : (x.accessed k).dirty = false := by
  unfold Drive.accessed
  cases ht : x.tb with
  | none => rfl
  | some tb => exact hc tb ht

/-- A buffer that a byte access only moves the cursor of stays clean. -/
theorem Drive.Clean.advanced (hc : x.Clean) (k : Disk) (c : Fin Config.trackNibLen) :
    Drive.Clean { x with tb := some { x.accessed k with cur := c } } := by
  rintro _ ⟨⟩
  exact hc.accessed k

theorem Drive.Clean.load (hc : x.Clean) : x.load.1.Clean := by
  rcases x.load_cases with ⟨_, h⟩ | ⟨k, _, _, h⟩ <;> rw [h]
  · exact hc
  · rintro _ ⟨⟩
    rfl

theorem Drive.Clean.readByte (hc : x.Clean) : x.readByte.2.Clean := by
  rcases x.img.eq_none_or_eq_some with hk | ⟨k, hk⟩
  · rw [Drive.readByte_none hk]; exact hc
  · rw [Drive.readByte_some hk]; exact hc.advanced k _

/-- R60: a write to a protected drive moves the cursor and stores nothing. -/
theorem Drive.Clean.writeByte (hc : x.Clean) (hp : x.wp = true) (w : Bool) (b : Byte) : (x.writeByte w b).Clean := by
  rcases x.img.eq_none_or_eq_some with hk | ⟨k, hk⟩
  · rw [Drive.writeByte_none hk]; exact hc
  · cases w with
    | false => rw [Drive.writeByte_readMode]; exact hc
    | true => rw [Drive.writeByte_protected hk hp]; exact hc.advanced k _

theorem Drive.Clean.flush (hc : x.Clean) : x.flush.1.Clean := by
  rw [Drive.flush_clean hc]
  exact hc

theorem Drive.Clean.step (hc : x.Clean) (m : BitVec 4) : (x.step m).1.Clean := by
  rcases x.step_cases m with ⟨_, h⟩ | ⟨_, _, ⟨_, h⟩ | ⟨_, h⟩⟩ <;> rw [h]
  · exact hc
  · exact hc
  · exact Drive.clean_of_tb_none rfl

theorem Drive.Clean.enable (hc : x.Clean) (e : Bool) : (x.enable e).1.Clean := by
  cases e with
  | true => exact hc
  | false => exact Drive.clean_of_tb_none rfl

theorem Drive.FlushedImage.of_clean {img : Option Disk} (h : x.FlushedImage img) (hc : x.Clean) : img = x.img := by
  cases h with
  | kept => rfl
  | written tb k ht hd => simp [hc tb ht] at hd

end clean

section operation
variable {s t : State} {i : Instr} {d : DriveId} {k : Disk}

theorem DriveEffect.keeps_clean {x : Drive} (hx : DriveEffect s i d x) (hp : (s.drive d).wp = true)
    (hc : (s.drive d).Clean) : x.Clean := by
  cases hx with
  | load => exact hc.load
  | read => exact hc.readByte
  | readSelected => exact hc.readByte
  | write => exact hc.writeByte hp _ _
  | flush => exact hc.flush
  | step => exact hc.step _
  | stepSelected => exact hc.step _
  | enable => exact hc.enable _
  | override => exact hc

/-- No operation makes the buffer of a protected drive dirty (R159). -/
theorem DriveChange.keeps_clean {y : Drive} (h : DriveChange s i d y) (hp : (s.drive d).wp = true)
    (hc : (s.drive d).Clean) : y.Clean := by
  cases h with
  | same => exact hc
  | own x hx => exact hx.keeps_clean hp hc
  | committed => exact hc.writeByte hp _ _
  | powered e => exact hc.enable e
  | attached => exact hc
  | detached => exact Drive.clean_of_tb_none rfl

/-- The image under a clean buffer stays as it is or is taken out. -/
theorem ImageChange.of_clean {img : Option Disk} (h : ImageChange s i d img) (hc : (s.drive d).Clean)
    (hk : (s.drive d).img = some k) : img = some k ∨ img = none := by
  cases h with
  | kept => exact .inl hk
  | flushed _ _ hf => exact .inl ((hf.of_clean hc).trans hk)
  | attached _ hn => simp [hk] at hn
  | detached => exact .inr rfl

/-- EJECT of a drive with a clean buffer gives the image back as it was (R197). -/
theorem exec_eject_store_of_clean {n : Byte} (h : exec (.eject n) s = .next t) (hd : driveIndex n = some d)
    (hc : (s.drive d).Clean) (hk : (s.drive d).img = some k) : t.store = s.store.set k.name (some k.returned) := by
  have h : execEject n s = .next t := h
  obtain rfl := next_inj (execEject_some hd hk ▸ h)
  have hf : (s.drive d).flush.1.img = some k := by rw [Drive.flush_clean hc]; exact hk
  simpa using State.detach_store hf

theorem exec_image_of_clean (h : exec i s = .next t) (hk : (s.drive d).img = some k) (hc : (s.drive d).Clean) :
    (t.drive d).img = some k ∨
      ((∃ n, i = .eject n ∧ driveIndex n = some d) ∧ (t.drive d).img = none ∧
        t.store = s.store.set k.name (some k.returned)) := by
  refine ((exec_imageChange h d).of_clean hc hk).imp_right fun hn => ?_
  obtain ⟨n, rfl, hd⟩ := (exec_driveChange h d).detaches (by simp [hk]) hn
  exact ⟨⟨n, rfl, hd⟩, hn, exec_eject_store_of_clean h hd hc hk⟩

/-- INSERT attaches an image to a drive without a buffer (R39 item 2). -/
theorem exec_tb_of_inserted (h : exec i s = .next t) (ho : (s.drive d).ok) (hn : (s.drive d).img = none)
    (hk : (t.drive d).img = some k) : (t.drive d).tb = none := by
  have change := exec_driveChange h d
  have ht : (s.drive d).tb = none := by simpa [hn] using ho.1
  obtain ⟨n, rfl, -⟩ := change.attaches hn (by simp [hk])
  simpa using change.buffer ht

/-- A read-only image after an operation was there before it, or was inserted into a drive without a buffer. -/
theorem exec_keeps_readOnlyClean (hi : s.Inv) (hr : s.ReadOnlyClean) (h : exec i s = .next t) : t.ReadOnlyClean := by
  obtain ⟨hdrives, -, -⟩ := hi
  intro d k' tb hk' hro ht
  rcases (s.drive d).img.eq_none_or_eq_some with hn | ⟨k, hk⟩
  · simp [exec_tb_of_inserted h (hdrives d) hn hk'] at ht
  · obtain ⟨-, -, hsame, -⟩ := imageChangesOnlyAtFlushPoints i s t d k k' h hk hk'
    have hkro : k.ro = true := hsame ▸ hro
    exact (exec_driveChange h d).keeps_clean ((Drive.wp_iff hk).mpr (.inr hkro))
      (fun tb => hr d k tb hk hkro) tb ht

end operation

/-- Settles O40: the override and the read-only attribute both are `wp(d)`, under which a clean buffer stays clean. -/
theorem readOnlyImageNeverWritten : Obligations.ReadOnlyImageNeverWritten := by
  refine ⟨fun i s t hi hr h => ⟨exec_keeps_readOnlyClean hi hr h, fun d k hk hro => ?_⟩,
    fun i s t d k h hk hp hc => ⟨?_, exec_image_of_clean h hk hc, fun hne => ?_⟩⟩
  · refine (exec_image_of_clean h hk fun tb => hr d k tb hk hro).imp_right fun ⟨_, hn, hs⟩ => ⟨hn, ?_⟩
    obtain ⟨-, -, hplaces, -⟩ := hi
    obtain ⟨hlt, -⟩ := List.getElem?_eq_some_iff.mp (hplaces d k hk)
    simp [hs, hlt]
  · exact (exec_driveChange h d).keeps_clean ((Drive.wp_iff hk).mpr hp) hc
  · by_contra hw
    obtain ⟨v, rfl⟩ := (exec_driveChange h d).override hw
    exact hne v rfl

end Sys2Proof.Machine
end

