-- ==== Sys2Proof/Proofs/TrackBuffer.lean ====
section
/-! The Track Buffer operations (R150 to R158): the bytes of an image after a write-back, then one equation for each
case of TBLOAD, TBREAD, TBWRITE and TBFLUSH. -/

namespace Sys2Proof.Machine

section sectors
variable (k : Disk) (t : Fin Config.nTracks) (res : Vector (Option Sector) Config.nSectors)

/-- A write-back of sectors changes only the bytes of the image. -/
theorem Disk.writeSectors_eq : k.writeSectors t res = { k with mem := (k.writeSectors t res).mem } := by
  rw [← k.writeSectors_name t res, ← k.writeSectors_layout t res, ← k.writeSectors_ro t res]

variable {k t res} {l : Fin Config.nSectors} {x : Nat}

/-- The sector of a track that an offset lies in. -/
theorem find?_sector (hx : x / 256 = t.val * 16 + l.val) :
    (List.finRange Config.nSectors).find? (fun m => x / 256 = t.val * 16 + m.val) = some l := by
  cases hf : (List.finRange Config.nSectors).find? fun m => x / 256 = t.val * 16 + m.val with
  | none => simpa [hx] using List.find?_eq_none.mp hf l (List.mem_finRange l)
  | some m =>
    have hm : x / 256 = t.val * 16 + m.val := by simpa using List.find?_some hf
    exact congrArg some (Fin.ext (by omega))

/-- A sector that decoded is written (R153). -/
theorem Disk.read_writeSectors_decoded {data : Sector} (hx : x / 256 = t.val * 16 + l.val) (h : res[l] = some data) :
    (k.writeSectors t res).mem.read x = data.toList.getD (x % 256) Memory.unlisted := by
  simp only [Disk.read_writeSectors, find?_sector hx, h]

/-- A sector that did not decode keeps its bytes (R67). -/
theorem Disk.read_writeSectors_missing (hx : x / 256 = t.val * 16 + l.val) (h : res[l] = none) :
    (k.writeSectors t res).mem.read x = k.mem.read x := by
  simp only [Disk.read_writeSectors, find?_sector hx, h]

/-- No byte outside the track changes (R153). -/
theorem Disk.read_writeSectors_outside (hx : ∀ l : Fin Config.nSectors, x / 256 ≠ t.val * 16 + l.val) :
    (k.writeSectors t res).mem.read x = k.mem.read x := by
  have hf : (List.finRange Config.nSectors).find? (fun m => x / 256 = t.val * 16 + m.val) = none := by
    simpa using hx
  simp only [Disk.read_writeSectors, hf]

theorem sector_offset (t : Fin Config.nTracks) (l : Fin Config.nSectors) (i : Fin Config.sectorBytes) :
    ((t.val * 16 + l.val) * 256 + i.val) / 256 = t.val * 16 + l.val ∧
      ((t.val * 16 + l.val) * 256 + i.val) % 256 = i.val := by
  have hi : i.val < 256 := i.isLt
  omega

theorem Disk.read_writeSectors_byte {data : Sector} (h : res[l] = some data) (i : Fin Config.sectorBytes) :
    (k.writeSectors t res).mem.read ((t.val * 16 + l.val) * 256 + i.val) = data[i] := by
  obtain ⟨hq, hr⟩ := sector_offset t l i
  simp [Disk.read_writeSectors_decoded hq h, hr]

/-- Sectors that hold what the image has there change no byte of it. -/
theorem Disk.read_writeSectors_same
    (h : ∀ (l : Fin Config.nSectors) (data : Sector), res[l] = some data →
      ∀ i : Fin Config.sectorBytes, data[i] = k.mem.read ((t.val * 16 + l.val) * 256 + i.val))
    (x : Nat) : (k.writeSectors t res).mem.read x = k.mem.read x := by
  by_cases hx : ∃ l : Fin Config.nSectors, x / 256 = t.val * 16 + l.val
  · obtain ⟨l, hx⟩ := hx
    cases hl : res[l] with
    | none => exact Disk.read_writeSectors_missing hx hl
    | some data =>
      have hm : x % 256 < Config.sectorBytes := Nat.mod_lt x (by decide)
      have hsame := h l data hl ⟨x % 256, hm⟩
      rw [← hx, Nat.mul_comm, Nat.div_add_mod] at hsame
      simpa [Disk.read_writeSectors_decoded hx hl, hm] using hsame
  · exact Disk.read_writeSectors_outside (not_exists.mp hx)

end sectors

section track
variable {x : Drive} {k : Disk} {tb : TrackBuffer}

/-- The write-back of a dirty buffer to a SECTOR image (R153). -/
theorem Drive.flush_sector (ht : x.tb = some tb) (hd : tb.dirty = true) (hk : x.img = some k)
    (hl : k.layout = .sector) :
    x.flush = ({ x with
      img := some { k with mem := (k.writeSectors tb.track (scan tb.buf.toArray tb.track)).mem }
      tb := some { tb with dirty := false } }, failMask (scan tb.buf.toArray tb.track)) := by
  rw [Drive.flush_dirty ht hd hk, Disk.writeBack_sector hl, ← Disk.writeSectors_eq]

/-- The write-back of a dirty buffer to a NIBBLE image (R153). -/
theorem Drive.flush_nibble (ht : x.tb = some tb) (hd : tb.dirty = true) (hk : x.img = some k)
    (hl : k.layout = .nibble) :
    x.flush = ({ x with
      img := some { k with mem := k.mem.writeBlock (tb.track.val * 6656) tb.buf.toList }
      tb := some { tb with dirty := false } }, 0) := by
  rw [Drive.flush_dirty ht hd hk, Disk.writeBack_nibble hl]

/-- A load replaces the buffer by the track of the image as the flush left it (R150). -/
theorem Drive.load_some (hk : x.flush.1.img = some k) :
    x.load = ({ x.flush.1 with tb := some (k.freshBuffer x.half) }, x.flush.2) := by
  rcases x.load_cases with ⟨hn, _⟩ | ⟨k', _, hk', h⟩
  · have hs := x.flush_img_isSome
    simp [hk, hn] at hs
  · rw [h, Option.some.inj (hk'.symm.trans hk)]

theorem Drive.load_none (hn : x.img = none) : x.load = (x, 0) := by
  simp [Drive.load, hn]

/-- The buffer a byte access works on is the one in the drive, or what a load gives (R155). -/
theorem Drive.accessed_cases (hk : x.img = some k) :
    x.tb = some (x.accessed k) ∨ x.tb = none ∧ x.load.1.tb = some (x.accessed k) := by
  unfold Drive.accessed
  cases ht : x.tb with
  | some tb => exact .inl rfl
  | none =>
    have hf : x.flush = (x, 0) := Drive.flush_clean (Drive.clean_of_tb_none ht)
    exact .inr ⟨rfl, by rw [Drive.load_some (k := k) (by rw [hf]; exact hk)]; rfl⟩

theorem Disk.trackImage_sector (hl : k.layout = .sector) (t : Fin Config.nTracks) :
    k.trackImage t = trackOf t (k.mem.readBlock (t.val * 4096) Config.trackBytes) := by
  simp [Disk.trackImage, hl]

theorem Disk.trackImage_nibble (hl : k.layout = .nibble) (t : Fin Config.nTracks) :
    k.trackImage t = k.mem.readBlock (t.val * 6656) Config.trackNibLen := by
  simp [Disk.trackImage, hl]

/-- R128, R158: the scan of a loaded track finds every sector of it. -/
theorem scan_trackImage (hl : k.layout = .sector) (t : Fin Config.nTracks) :
    scan (k.trackImage t).toArray t =
      Vector.ofFn fun l => some (sectorOf (k.mem.readBlock (t.val * 4096) Config.trackBytes) l) := by
  rw [Disk.trackImage_sector hl, scan_trackOf]

/-- A sector cut out of a track is that of the image (R51, R103). -/
theorem sectorOf_readBlock (m : Memory) (t : Fin Config.nTracks) (l : Fin Config.nSectors)
    (i : Fin Config.sectorBytes) :
    (sectorOf (m.readBlock (t.val * 4096) Config.trackBytes) l)[i] = m.read ((t.val * 16 + l.val) * 256 + i.val) := by
  have ho : t.val * 4096 + (l.val * 256 + i.val) = (t.val * 16 + l.val) * 256 + i.val := by ring
  simp [sectorOf, ho]

end track

/-- The state after drive `d` has answered the byte at the cursor of `tb` (R151). -/
def State.afterRead (s : State) (d : DriveId) (tb : TrackBuffer) : State :=
  (s.setDrive d { s.drive d with tb := some { tb with cur := nextCursor tb.cur } }).respond
    (okResponse tb.buf[tb.cur]) .none

section afterRead
variable (s : State) (d : DriveId) (tb : TrackBuffer)

@[simp] theorem State.afterRead_drive_same :
    (s.afterRead d tb).drive d = { s.drive d with tb := some { tb with cur := nextCursor tb.cur } } := by
  simp [State.afterRead]
@[simp] theorem State.afterRead_drive_other :
    (s.afterRead d tb).drive (driveOther d) = s.drive (driveOther d) := by
  simp [State.afterRead]
@[simp] theorem State.afterRead_ctl : (s.afterRead d tb).ctl = s.ctl := by simp [State.afterRead]
@[simp] theorem State.afterRead_store : (s.afterRead d tb).store = s.store := by simp [State.afterRead]
@[simp] theorem State.afterRead_value : (s.afterRead d tb).resp.value = tb.buf[tb.cur] := rfl

end afterRead

section operations
variable {s : State} {d : DriveId} {k : Disk}

theorem exec_tbload (d : DriveId) (s : State) :
    exec (.tbload d) s =
      .next ((s.setDrive d (s.drive d).load.1).respond (flushResponse (s.drive d).load.2) .none) := rfl

theorem exec_tbread (d : DriveId) (s : State) :
    exec (.tbread d) s =
      .next ((s.setDrive d (s.drive d).readByte.2).respond (okResponse (s.drive d).readByte.1) .none) := rfl

theorem exec_tbwrite (d : DriveId) (b : Byte) (s : State) :
    exec (.tbwrite d b) s =
      .next ((s.setDrive d ((s.drive d).writeByte s.ctl.wmode b)).respond (okResponse 0) .none) := rfl

theorem exec_tbflush (d : DriveId) (s : State) :
    exec (.tbflush d) s =
      .next ((s.setDrive d (s.drive d).flush.1).respond (flushResponse (s.drive d).flush.2) .none) := rfl

theorem exec_tbread_attached (hk : (s.drive d).img = some k) :
    exec (.tbread d) s = .next (s.afterRead d ((s.drive d).accessed k)) := by
  rw [exec_tbread, Drive.readByte_some hk]
  rfl

theorem exec_tbread_buffer {tb : TrackBuffer} (hk : (s.drive d).img = some k) (ht : (s.drive d).tb = some tb) :
    exec (.tbread d) s = .next (s.afterRead d tb) := by
  have ha : (s.drive d).accessed k = tb := by simp [Drive.accessed, ht]
  rw [exec_tbread_attached hk, ha]

theorem readMany_succ {t : State} (h : exec (.tbread d) s = .next t) (n : Nat) :
    readMany d (n + 1) s = (readMany d n t).map fun r => (t.resp.value :: r.1, r.2) := by
  simp [readMany, h]

end operations

/-- Settles O41: the scan of the loaded track finds all its sectors, each with the bytes the image has there. -/
theorem rewriteOfLoadedTrackChangesNothing : Obligations.RewriteOfLoadedTrackChangesNothing := by
  intro d s k h c hl hk ht
  have hscan := scan_trackImage hl (wholeTrack h)
  refine ⟨(k.writeSectors (wholeTrack h) (scan (k.trackImage (wholeTrack h)).toArray (wholeTrack h))).mem, ?_, ?_⟩
  · rw [exec_tbflush, Drive.flush_sector ht rfl hk hl]
    simp only [Disk.freshBuffer, hscan, failMask_ofFn_some]
    rfl
  · refine Disk.read_writeSectors_same fun l data hdata i => ?_
    obtain rfl : sectorOf _ l = data := by simpa [hscan] using hdata
    exact sectorOf_readBlock k.mem (wholeTrack h) l i

/-- Settles O35: the flush keeps the layout of the image. -/
theorem tbloadLoadsTrackUnderHead : Obligations.TbloadLoadsTrackUnderHead := by
  refine fun d s => ⟨by cases d <;> decide, fun hn => ?_, fun k hk => ?_⟩
  · rw [exec_tbload, Drive.load_none hn, State.setDrive_self]
    rfl
  · obtain ⟨k', hk', -, hlay, -⟩ := (s.drive d).flush_img hk
    refine ⟨k', wholeTrack (s.drive d).half, k'.trackImage (wholeTrack (s.drive d).half), hk', rfl, ?_, fun hl => ?_,
      fun hl i => ?_⟩
    · rw [exec_tbload, Drive.load_some hk']
      rfl
    · exact ⟨_, fun i => Memory.getElem_readBlock _ _ _ _ i.isLt, Disk.trackImage_sector (hlay.trans hl) _⟩
    · rw [Disk.trackImage_nibble (hlay.trans hl)]
      exact Memory.getElem_readBlock _ _ _ _ i.isLt

/-- Settles O36: a byte access works on the buffer in the drive or on a loaded one (`Drive.accessed_cases`). -/
theorem tbreadReadsAtCursor : Obligations.TbreadReadsAtCursor := by
  refine fun d s => ⟨by cases d <;> decide, fun hn => ?_, fun k hk => ?_⟩
  · rw [exec_tbread, Drive.readByte_none hn, State.setDrive_self]
    rfl
  · exact ⟨_, nextCursor _, Drive.accessed_cases hk, rfl, exec_tbread_attached hk⟩

/-- Settles O37: the three cases of a byte write, no write at all, a protected one and a stored one. -/
theorem tbwriteWritesAtCursor : Obligations.TbwriteWritesAtCursor := by
  refine fun d b s => ⟨by cases d <;> (revert b; decide), fun h => ?_, fun k hk hw =>
    ⟨_, nextCursor _, Drive.accessed_cases hk, rfl, fun hp => ?_, fun hp => ?_⟩⟩
  · have hsame : (s.drive d).writeByte s.ctl.wmode b = s.drive d := by
      rcases h with hn | hr
      · exact Drive.writeByte_none hn _ _
      · rw [hr]; exact Drive.writeByte_readMode _ b
    rw [exec_tbwrite, hsame, State.setDrive_self]
  · rw [exec_tbwrite, hw, Drive.writeByte_protected hk ((Drive.wp_iff hk).mpr hp)]
  · rw [exec_tbwrite, hw, Drive.writeByte_stored hk (by simpa [Drive.wp, hk] using hp)]

/-- Settles O38: the bytes of a write-back, by sector for a SECTOR image and as one block for a NIBBLE image. -/
theorem tbflushWritesBack : Obligations.TbflushWritesBack := by
  refine fun d s => ⟨by cases d <;> decide, exec_tbflush d s, fun hc => ?_, fun tb k ht hd hk hl => ?_,
    fun tb k ht hd hk hl => ?_⟩
  · rw [exec_tbflush, Drive.flush_clean hc, State.setDrive_self]
    rfl
  · refine ⟨_, _, by rw [exec_tbflush, Drive.flush_sector ht hd hk hl], failMask_getLsb _, fun l i => ?_,
      fun a ha => ?_⟩
    · cases h : (scan tb.buf.toArray tb.track)[l] with
      | some data => exact Disk.read_writeSectors_byte h i
      | none => exact Disk.read_writeSectors_missing (sector_offset tb.track l i).1 h
    · refine Disk.read_writeSectors_outside fun l hx => ?_
      have hl : l.val < 16 := l.isLt
      omega
  · refine ⟨_, by rw [exec_tbflush, Drive.flush_nibble ht hd hk hl]; rfl, fun i => ?_, fun a ha => ?_⟩
    · simp [Memory.read_writeBlock]
    · rw [Memory.read_writeBlock, if_neg]
      simp only [Vector.length_toList, Config.trackNibLen]
      omega

/-- Settles O39, by induction on the number of reads: the first read is at the cursor, the others one further. -/
theorem circularCursor : Obligations.CircularCursor := by
  intro d s k tb n hk ht
  induction n generalizing s tb with
  | zero =>
    refine ⟨[], s, tb.cur, rfl, rfl, (Nat.mod_eq_of_lt tb.cur.isLt).symm, ?_, rfl, rfl, rfl, by simp⟩
    rw [← ht]
  | succ n ih =>
    obtain ⟨vs, t, c, hmany, hlen, hc, hd, ho, hctl, hst, hv⟩ :=
      ih (s.afterRead d tb) { tb with cur := nextCursor tb.cur } (by simpa using hk) (by simp)
    have hcur : ∀ m, ((nextCursor tb.cur).val + m) % 6656 = (tb.cur.val + (m + 1)) % 6656 := fun m => by
      simp only [nextCursor, Config.trackNibLen]
      omega
    refine ⟨tb.buf[tb.cur] :: vs, t, c, ?_, by simp [hlen], hc.trans (hcur n), by simpa using hd, by simpa using ho,
      by simpa using hctl, by simpa using hst, fun j hj => ?_⟩
    · rw [readMany_succ (exec_tbread_buffer hk ht), hmany]
      rfl
    · cases j with
      | zero => simp [Nat.mod_eq_of_lt tb.cur.isLt]
      | succ j =>
        rw [List.getElem?_cons_succ, hv j (Nat.lt_of_succ_lt_succ hj), hcur]

end Sys2Proof.Machine
end

