-- ==== Sys2Proof/Proofs/DriveMechanism.lean ====
section
/-! The Drive Mechanism operations (R170 to R178): the one new line of a step, where it puts the head, and when it drops
the buffer; then one equation for each of the four operations. -/

namespace Sys2Proof.Machine

/-- R170: phase `p` is the new one exactly when its line is all that is new. -/
theorem newPhase_eq_some_iff {m phases : BitVec 4} {p : Fin Config.nPhases} :
    newPhase m phases = some p ↔ newLines m phases = 1#4 <<< p.val := by
  unfold newPhase
  generalize newLines m phases = new
  revert new p
  decide

theorem newPhase_eq_none_iff {m phases : BitVec 4} :
    newPhase m phases = none ↔ ∀ p : Fin Config.nPhases, newLines m phases ≠ 1#4 <<< p.val := by
  simp only [Option.eq_none_iff_forall_ne_some, ne_eq, newPhase_eq_some_iff]

/-- The adjacency table (R171): the next phase pulls one half-track up, the previous one down, the others not at all. -/
theorem stepDelta_eq : ∀ p last : Fin Config.nPhases,
    stepDelta p last =
      if (p.val + 4 - last.val) % 4 = 1 then 1 else if (p.val + 4 - last.val) % 4 = 3 then -1 else 0 := by
  decide

theorem stepDelta_same_or_opposite : ∀ p last : Fin Config.nPhases,
    p.val = last.val ∨ p.val = (last.val + 2) % 4 → stepDelta p last = 0 := by
  decide

theorem stepDelta_next : ∀ p last : Fin Config.nPhases, p.val = (last.val + 1) % 4 → stepDelta p last = 1 := by
  decide

theorem stepDelta_previous : ∀ p last : Fin Config.nPhases, p.val = (last.val + 3) % 4 → stepDelta p last = -1 := by
  decide

theorem moveHead_zero (h : Fin Config.nHalf) : moveHead h 0 = h := by
  have hv := moveHead_val h 0
  have hh : h.val < 70 := h.isLt
  omega

theorem moveHead_one (h : Fin Config.nHalf) : (moveHead h 1).val = min 69 (h.val + 1) := by
  have hv := moveHead_val h 1
  omega

theorem moveHead_neg_one (h : Fin Config.nHalf) : (moveHead h (-1)).val = h.val - 1 := by
  have hv := moveHead_val h (-1)
  have hh : h.val < 70 := h.isLt
  omega

/-- A mask of one line has that line on and no other. -/
theorem oneLine_getLsbD_iff : ∀ p last : Fin Config.nPhases,
    (1#4 <<< last.val).getLsbD p.val = true ↔ p = last := by
  decide

theorem phaseMask_of_lt {ph : Byte} (h : ph.toNat < 4) : phaseMask ph = some (1#4 <<< ph.toNat) :=
  if_pos (Nat.le_of_lt_succ h)

/-- The drive after phase `p` alone is newly energized by mask `m`, its buffer aside (R170 to R172). -/
def Drive.pulledBy (x : Drive) (m : BitVec 4) (p : Fin Config.nPhases) : Drive :=
  { x with phases := m, last := p, half := moveHead x.half (stepDelta p x.last) }

section step
variable {x : Drive} {m : BitVec 4} {p : Fin Config.nPhases}

theorem Drive.trackChanged_iff {h : Fin Config.nHalf} :
    x.trackChanged h = true ↔ ∃ tb, x.tb = some tb ∧ tb.track.val ≠ h.val / 2 := by
  cases ht : x.tb with
  | none => simp [Drive.trackChanged, ht]
  | some tb => simp [Drive.trackChanged, ht, Fin.ext_iff, wholeTrack]

theorem Drive.step_of_none (hp : newPhase m x.phases = none) : x.step m = ({ x with phases := m }, 0) := by
  simp only [Drive.step, hp]

theorem Drive.step_of_some (hp : newPhase m x.phases = some p) :
    x.step m =
      if (x.pulledBy m p).half ≠ x.half ∧ (x.pulledBy m p).trackChanged (x.pulledBy m p).half then
        (x.pulledBy m p).unload
      else (x.pulledBy m p, 0) := by
  simp only [Drive.step, hp]
  rfl

/-- R173: a step that stays on the half-track, or within the whole track of the buffer, keeps the buffer. -/
theorem Drive.step_keeps_buffer (hp : newPhase m x.phases = some p)
    (h : (x.pulledBy m p).half = x.half ∨ ∀ tb, x.tb = some tb → tb.track.val = (x.pulledBy m p).half.val / 2) :
    x.step m = (x.pulledBy m p, 0) := by
  rw [Drive.step_of_some hp, if_neg]
  rintro ⟨hmoved, hchanged⟩
  obtain ⟨tb, ht, hne⟩ := Drive.trackChanged_iff.mp hchanged
  exact hne (h.resolve_left hmoved tb ht)

/-- R173: a step to another whole track than the buffer's unloads it. -/
theorem Drive.step_unloads {tb : TrackBuffer} (hp : newPhase m x.phases = some p)
    (hmoved : (x.pulledBy m p).half ≠ x.half) (ht : x.tb = some tb)
    (hne : tb.track.val ≠ (x.pulledBy m p).half.val / 2) :
    x.step m = (x.pulledBy m p).unload := by
  rw [Drive.step_of_some hp, if_pos ⟨hmoved, Drive.trackChanged_iff.mpr ⟨tb, ht, hne⟩⟩]

theorem Drive.step_half_of_some (hp : newPhase m x.phases = some p) :
    (x.step m).1.half = moveHead x.half (stepDelta p x.last) := by
  rw [Drive.step_of_some hp]
  split
  · exact Drive.unload_half _
  · rfl

theorem Drive.step_last_of_some (hp : newPhase m x.phases = some p) : (x.step m).1.last = p := by
  rw [Drive.step_of_some hp]
  split
  · exact Drive.unload_last _
  · rfl

/-- With the line of the last phase the only one on, one line on pulls the head by the adjacency table: the line of the
last phase itself is not new, and its entry in the table is 0. -/
theorem Drive.step_oneLine (hx : x.phases = 1#4 <<< x.last.val) (p : Fin Config.nPhases) :
    (x.step (1#4 <<< p.val)).1.half = moveHead x.half (stepDelta p x.last) ∧ (x.step (1#4 <<< p.val)).1.last = p := by
  have hon : x.phases.getLsbD p.val = true ↔ p = x.last := hx ▸ oneLine_getLsbD_iff p x.last
  have hnew := newPhase_oneLine p x.phases
  by_cases hp : p = x.last
  · rw [if_pos (hon.mpr hp)] at hnew
    rw [Drive.step_of_none hnew, stepDelta_same_or_opposite p _ (.inl (congrArg Fin.val hp)), moveHead_zero]
    exact ⟨rfl, hp.symm⟩
  · rw [if_neg (mt hon.mp hp)] at hnew
    exact ⟨Drive.step_half_of_some hnew, Drive.step_last_of_some hnew⟩

end step

/-- The write-protect sense (R30), with or without an image. -/
theorem Drive.wp_iff_override_or_readOnly {x : Drive} :
    x.wp = true ↔ x.wpo = true ∨ ∃ k, x.img = some k ∧ k.ro = true := by
  cases hk : x.img with
  | none => simp [Drive.wp, hk]
  | some k => simp [Drive.wp_iff hk]

theorem exec_dstep (d : DriveId) (m : BitVec 4) (s : State) :
    exec (.dstep d m) s =
      .next ((s.setDrive d ((s.drive d).step m).1).respond (flushResponse ((s.drive d).step m).2) .none) := rfl

theorem exec_dsel (d : DriveId) (e : Bool) (s : State) :
    exec (.dsel d e) s =
      .next ((s.setDrive d ((s.drive d).enable e).1).respond (flushResponse ((s.drive d).enable e).2) .none) := rfl

theorem exec_diswp (d : DriveId) (s : State) :
    exec (.diswp d) s = .next (s.respond (okResponse (boolValue (s.drive d).wp)) .none) := rfl

theorem exec_dsetwpo (d : DriveId) (v : Bool) (s : State) :
    exec (.dsetwpo d v) s = .next ((s.setDrive d { s.drive d with wpo := v }).respond (okResponse 0) .none) := rfl

theorem exec_step_selected {s : State} {d : DriveId} {ph : Byte} {m : BitVec 4} (hs : s.ctl.sel = some d)
    (hm : phaseMask ph = some m) : exec (.step ph) s = .next (s.stepDrive d m) := by
  have h : exec (.step ph) s = execStep ph s := rfl
  simp [h, execStep, hs, hm]

@[simp] theorem State.stepDrive_drive_same (s : State) (d : DriveId) (m : BitVec 4) :
    (s.stepDrive d m).drive d = ((s.drive d).step m).1 := by
  simp [State.stepDrive]

/-- Settles O42: the three cases of a step are `Drive.step_of_none`, `Drive.step_keeps_buffer` and
`Drive.step_unloads`. -/
theorem dstepMovesHead : Obligations.DstepMovesHead := by
  refine fun d m s => ⟨by cases d <;> (revert m; decide), fun hn => ?_, fun p hp => ?_⟩
  · rw [exec_dstep, Drive.step_of_none (newPhase_eq_none_iff.mpr hn)]
    rfl
  · have hnew : newPhase m (s.drive d).phases = some p := newPhase_eq_some_iff.mpr hp
    refine ⟨((s.drive d).pulledBy m p).half, ?_, fun hk => ?_, fun tb hmoved ht hne => ?_⟩
    · exact stepDelta_eq p (s.drive d).last ▸ moveHead_val _ _
    · rw [exec_dstep, Drive.step_keeps_buffer hnew hk]
      rfl
    · rw [exec_dstep, Drive.step_unloads hnew hmoved ht hne]
      rfl

/-- Settles O43: where the head comes to stand is `Drive.step_oneLine`, and each law is one entry of the adjacency
table. -/
theorem stepperLaws : Obligations.StepperLaws := by
  intro s t d ph hs hph hx h
  obtain rfl := next_inj (exec_step_selected hs (phaseMask_of_lt hph) ▸ h)
  obtain ⟨hhalf, hlast⟩ := Drive.step_oneLine hx ⟨ph.toNat, hph⟩
  rw [State.stepDrive_drive_same, hhalf, hlast, Drive.step_phases]
  refine ⟨fun hstay => ?_, fun hnext => ?_, fun hprevious => ?_, rfl, rfl⟩
  · rw [stepDelta_same_or_opposite _ _ hstay, moveHead_zero]
  · rw [stepDelta_next _ _ hnext, moveHead_one]
  · rw [stepDelta_previous _ _ hprevious, moveHead_neg_one]

/-- Settles O44: the two equations of the motor operation, `Drive.enable_true` and `Drive.enable_false`. -/
theorem dselSwitchesMotor : Obligations.DselSwitchesMotor := by
  refine fun d s => ⟨by cases d <;> decide, by cases d <;> decide, ?_, ?_⟩
  · rw [exec_dsel, Drive.enable_true]
    rfl
  · rw [exec_dsel, Drive.enable_false]
    rfl

/-- Settles O45: the value is the write-protect sense of `Drive.wp_iff_override_or_readOnly`. -/
theorem diswpSensesProtection : Obligations.DiswpSensesProtection := by
  refine fun d s => ⟨by cases d <;> decide, _, exec_diswp d s, ?_⟩
  rw [← Drive.wp_iff_override_or_readOnly]
  exact ⟨fun h => if_pos h, fun h => if_neg h⟩

/-- Settles O46. -/
theorem dsetwpoSetsOverride : Obligations.DsetwpoSetsOverride :=
  fun d v s => ⟨by cases d <;> cases v <;> decide, exec_dsetwpo d v s⟩

end Sys2Proof.Machine
end

