-- ==== Sys2Proof/Proofs/DiskController.lean ====
section
/-! The Disk Controller operations (R190 to R201, R227): one equation for each case of an operation, and from these its
statement. A controller-level operation is the unit-level one on the drive that `C.sel` or its index names. -/

namespace Sys2Proof.Machine

/-- R81: the two indices in range. -/
theorem driveIndex_ofDrive : ∀ d : DriveId, driveIndex (if d = .d0 then 0 else 1) = some d
  | .d0 => rfl
  | .d1 => rfl

theorem phaseMask_of_gt {ph : Byte} (h : 3 < ph.toNat) : phaseMask ph = none :=
  if_neg (Nat.not_le_of_gt h)

/-- The two lengths of an image (R50). -/
theorem Layout.bytes_eq : ∀ l : Layout, l.bytes = if l = .sector then 143360 else 232960
  | .sector => rfl
  | .nibble => rfl

section select
variable {i : Byte} {d : DriveId} {s : State}

theorem exec_select_range (hd : driveIndex i = none) :
    exec (.select i) s = .next (s.respond (raisedResponse .ppDriveRange) .none) := by
  simp only [exec, execSelect, hd]
  rfl

/-- R191: only turning the other drive off flushes. -/
theorem exec_select (hd : driveIndex i = some d) :
    exec (.select i) s =
      .next ((s.switchTo d).respond (flushResponse (s.drive (driveOther d)).flush.2) .none) := by
  have mask : ((s.drive (driveOther d)).enable false).2 ||| ((s.drive d).enable true).2 =
      (s.drive (driveOther d)).flush.2 := BitVec.or_zero
  simp only [exec, execSelect, hd, mask]
  rfl

/-- The motor operation leaves a drive that stands as it asks: one that is off holds no buffer to unload. -/
theorem Drive.enable_of_poweredAs {x : Drive} {e : Bool} (hx : x.poweredAs e) : x.enable e = (x, 0) := by
  obtain ⟨hm, hl, ht⟩ := hx
  have same : { x with motor := e, light := e } = x := by
    cases x
    cases hm
    cases hl
    rfl
  cases e with
  | true => exact congrArg (·, 0) same
  | false =>
    have ht : x.tb = none := by simpa using ht
    rw [Drive.enable_false, Drive.unload, Drive.flush_clean (by simp [ht]), ← ht]
    exact congrArg (·, 0) same

/-- R191: under R39 item 7 the selected drive is on and the other one off already. -/
theorem State.CtlInv.switchTo_selected (hs : s.CtlInv) (hd : s.ctl.sel = some d) : s.switchTo d = s := by
  have other : (s.drive (driveOther d)).poweredAs false := by
    simpa [hd] using s.ctlInv_iff.mp hs (driveOther d)
  rw [State.switchTo, Drive.enable_of_poweredAs other, Drive.enable_of_poweredAs (hs.selected hd), State.setDrive_self,
    State.setDrive_self, ← hd]

/-- And the other one holds no buffer to flush. -/
theorem State.CtlInv.flush_unselected (hs : s.CtlInv) (hd : s.ctl.sel = some d) :
    (s.drive (driveOther d)).flush.2 = 0 := by
  have ht : (s.drive (driveOther d)).tb = none := by
    simpa [hd] using (hs (driveOther d)).2.2
  rw [Drive.flush_clean (by simp [ht])]

end select

/-- Settles O50: the drives stand already as SELECT would put them. -/
theorem selectSelectedChangesNothing : Obligations.SelectSelectedChangesNothing := by
  intro i d s hs hsel hd
  rw [exec_select hd, hs.switchTo_selected hsel, hs.flush_unselected hsel]
  rfl

/-- Settles O49. -/
theorem selectChoosesDrive : Obligations.SelectChoosesDrive := by
  refine fun i s => ⟨by revert i; decide, fun h => exec_select_range (driveIndex_of_gt h), ?_⟩
  rintro d rfl
  exact exec_select (driveIndex_ofDrive d)

section transfer
variable {d : DriveId} {s : State}

/-- R200: with no drive selected the value is a draw. -/
theorem exec_rwbyte_unselected (hs : s.ctl.sel = none) :
    exec .rwbyte s = .next ({ s with draws := s.draws + 1 }.respond (okResponse (Config.freeByte s.draws)) .none) := by
  simp only [exec, execRwbyte, hs]
  rfl

/-- R194: in read mode, TBREAD of the selected drive. -/
theorem exec_rwbyte_read (hs : s.ctl.sel = some d) (hw : s.ctl.wmode = false) :
    exec .rwbyte s = exec (.tbread d) s := by
  simp only [exec, execRwbyte, hs, hw]
  rfl

/-- R194: in write mode, a commit of the latch and a draw. -/
theorem exec_rwbyte_write (hs : s.ctl.sel = some d) (hw : s.ctl.wmode = true) :
    exec .rwbyte s = .next (s.commitLatch d).replyDraw := by
  simp only [exec, execRwbyte, hs, hw, if_true]

/-- R201: a drive without an image has nothing to commit to, and nothing is protected. -/
theorem State.commitLatch_of_img_none (hn : (s.drive d).img = none) : s.commitLatch d = s := by
  rw [State.commitLatch_eq, Drive.writeByte_none hn, State.setDrive_self, hn]
  simp

end transfer

/-- Settles O53: the commit of the latch is TBWRITE with the protection status bit (`State.commitLatch_eq`). -/
theorem rwbyteTransfersByte : Obligations.RwbyteTransfersByte := by
  refine fun s => ⟨by decide, exec_rwbyte_unselected, fun d hs hw => ?_, fun d hs hw => ?_⟩
  · exact ⟨_, (exec_rwbyte_read hs hw).trans (exec_tbread d s), exec_tbread d s⟩
  · refine ⟨_, exec_tbwrite d s.ctl.latch s, ?_⟩
    rw [exec_rwbyte_write hs hw, State.commitLatch_eq]
    cases d <;> rfl

section step
variable {d : DriveId} {s : State} {ph : Byte}

theorem exec_step_range (h : phaseMask ph = none) :
    exec (.step ph) s = .next (s.respond (raisedResponse .ppPhaseRange) .none) := by
  simp only [exec, execStep, h]
  rfl

/-- R200: with no drive selected STEP is accepted and ignored. -/
theorem exec_step_unselected {m : BitVec 4} (h : phaseMask ph = some m) (hs : s.ctl.sel = none) :
    exec (.step ph) s = .next (s.respond (okResponse 0) .none) := by
  simp only [exec, execStep, h, hs]
  rfl

/-- R201: without a buffer a step moves the head and nothing else. -/
theorem Drive.step_of_tb_none {x : Drive} {m : BitVec 4} {p : Fin Config.nPhases} (ht : x.tb = none)
    (hp : newPhase m x.phases = some p) : x.step m = (x.pulledBy m p, 0) :=
  Drive.step_keeps_buffer hp (.inr (by simp [ht]))

end step

/-- Settles O55. -/
theorem stepForwardsPhase : Obligations.StepForwardsPhase := by
  refine fun ph s => ⟨by revert ph; decide, fun h => exec_step_range (phaseMask_of_gt h), fun h hs => ?_,
    fun d h hs => ?_⟩
  · exact exec_step_unselected (phaseMask_of_lt (Nat.lt_succ_of_le h)) hs
  · exact ⟨_, exec_step_selected hs (phaseMask_of_lt (Nat.lt_succ_of_le h)), rfl⟩

section iswp
variable {d : DriveId} {s : State}

theorem exec_iswp_unselected (hs : s.ctl.sel = none) :
    exec .iswp s = .next ({ s with draws := s.draws + 1 }.respond (okResponse (Config.freeByte s.draws)) .none) := by
  simp only [exec, execIswp, hs]
  rfl

/-- R198: ISWP is DISWP of the selected drive. -/
theorem exec_iswp_selected (hs : s.ctl.sel = some d) : exec .iswp s = exec (.diswp d) s := by
  simp only [exec, execIswp, hs]
  rfl

end iswp

/-- Settles O59. -/
theorem iswpSensesSelected : Obligations.IswpSensesSelected := by
  refine fun s => ⟨by decide, exec_iswp_unselected, fun d hs => ?_⟩
  exact ⟨_, (exec_iswp_selected hs).trans (exec_diswp d s), (exec_iswp_selected hs).symm, rfl⟩

/-- Settles O54: without an image there is no byte to transfer and nothing but the override protects; without a buffer
a step moves only the head. -/
theorem noMediaInSelectedDrive : Obligations.NoMediaInSelectedDrive := by
  refine fun s d hs hn ht => ⟨fun hw => ?_, fun hw => ?_, ?_, fun ph p hph => ?_⟩
  · rw [exec_rwbyte_read hs hw, exec_tbread, Drive.readByte_none hn, State.setDrive_self]
    rfl
  · rw [exec_rwbyte_write hs hw, State.commitLatch_of_img_none hn]
    rfl
  · have hwp : (s.drive d).wp = (s.drive d).wpo := by simp [Drive.wp, hn]
    rw [exec_iswp_selected hs, exec_diswp, hwp]
    rfl
  · have hstep : exec (.step ph) s = exec (.dstep d (1#4 <<< p.val)) s :=
      exec_step_selected hs (hph ▸ phaseMask_of_lt (hph ▸ p.isLt))
    have hnew := newPhase_oneLine p (s.drive d).phases
    refine ⟨fun hon => ?_, fun hoff => ?_⟩
    · rw [hstep, exec_dstep, Drive.step_of_none (hnew.trans (if_pos hon))]
      rfl
    · have hp := hnew.trans (if_neg (Bool.eq_false_iff.mp hoff))
      rw [hstep, exec_dstep, Drive.step_of_tb_none ht hp]
      rfl

section insert
variable {i : Byte} {d : DriveId} {s : State} {name : Nat} {h : HostImage}

theorem State.imageOperand_found (hs : s.sideIn = .image name) (hst : s.store[name]? = some (some h)) :
    s.imageOperand = .found name h := by
  simp only [State.imageOperand, hs, hst]

theorem State.imageOperand_emptied (hs : s.sideIn = .image name) (hst : s.store[name]? = some none) :
    s.imageOperand = if s.holds name then .held else .missing := by
  simp only [State.imageOperand, hs, hst]

theorem State.imageOperand_absent (hs : ∀ name, s.sideIn = .image name → s.store[name]? = none) :
    s.imageOperand = .missing := by
  cases hside : s.sideIn with
  | none | bytes => simp only [State.imageOperand, hside]
  | image name => simp only [State.imageOperand, hside, hs name hside]

theorem exec_insert_range (hd : driveIndex i = none) :
    exec (.insert i) s = .next (s.respond (raisedResponse .ppDriveRange) .none) := by
  simp only [exec, execInsert, hd]
  rfl

theorem exec_insert_occupied (hd : driveIndex i = some d) (hn : (s.drive d).img ≠ none) :
    exec (.insert i) s = .next (s.respond (raisedResponse .ppSlotOccupied) .none) := by
  simp only [exec, execInsert, hd, Option.isSome_iff_ne_none.mpr hn, if_true]
  rfl

theorem exec_insert_missing (hd : driveIndex i = some d) (hn : (s.drive d).img = none)
    (ho : s.imageOperand = .missing) :
    exec (.insert i) s = .next (s.respond (raisedResponse .ppBadImage) .none) := by
  simp only [exec, execInsert, hd, hn, ho]
  rfl

theorem exec_insert_held (hd : driveIndex i = some d) (hn : (s.drive d).img = none) (ho : s.imageOperand = .held) :
    exec (.insert i) s = .refused .sharedImage := by
  simp [exec, execInsert, hd, hn, ho]

theorem exec_insert_wrong_length (hd : driveIndex i = some d) (hn : (s.drive d).img = none)
    (ho : s.imageOperand = .found name h) (hl : h.len ≠ h.layout.bytes) :
    exec (.insert i) s = .next (s.respond (raisedResponse .ppBadImage) .none) := by
  simp only [exec, execInsert, hd, hn, ho, if_pos hl]
  rfl

theorem exec_insert_attach (hd : driveIndex i = some d) (hn : (s.drive d).img = none)
    (ho : s.imageOperand = .found name h) (hl : h.len = h.layout.bytes) :
    exec (.insert i) s = .next ((s.attach d name h).respond (okResponse 0) .none) := by
  simp only [exec, execInsert, hd, hn, ho, if_neg (not_not.mpr hl)]
  rfl

end insert

/-- Settles O56: what INSERT does to an empty drive is decided by what stands beside the word (`State.imageOperand`). -/
theorem insertAttachesImage : Obligations.InsertAttachesImage := by
  refine fun i s => ⟨by revert i; decide, fun h => exec_insert_range (driveIndex_of_gt h), ?_⟩
  rintro d rfl
  have hd := driveIndex_ofDrive d
  refine ⟨exec_insert_occupied hd, fun name h hn hs hst => ?_, fun name hn hs hst => ?_,
    fun hn hs => exec_insert_missing hd hn (State.imageOperand_absent hs)⟩
  · have ho := State.imageOperand_found hs hst
    rw [← Layout.bytes_eq]
    exact ⟨exec_insert_wrong_length hd hn ho, exec_insert_attach hd hn ho⟩
  · have ho := State.imageOperand_emptied hs hst
    rw [← State.holds_iff]
    refine ⟨fun hh => exec_insert_held hd hn (ho.trans (if_pos hh)), fun hfree => ?_⟩
    refine exec_insert_missing hd hn (ho.trans (if_neg fun hh => ?_))
    obtain ⟨e, k, hk, hkn⟩ := (s.holds_iff name).mp hh
    exact hfree e k hk hkn

section eject
variable {i : Byte} {d : DriveId} {s : State} {k : Disk}

theorem exec_eject_range (hd : driveIndex i = none) :
    exec (.eject i) s = .next (s.respond (raisedResponse .ppDriveRange) .none) := by
  simp only [exec, execEject, hd]
  rfl

theorem exec_eject_empty (hd : driveIndex i = some d) (hn : (s.drive d).img = none) :
    exec (.eject i) s = .next (s.respond (okResponse 0) .none) := by
  simp only [exec, execEject, hd, hn]
  rfl

theorem exec_eject_attached (hd : driveIndex i = some d) (hk : (s.drive d).img = some k) :
    exec (.eject i) s = .next ((s.detach d).1.reply 0 (s.detach d).2) :=
  execEject_some hd hk

/-- R197: a drive emptied, written out with the image as the flush left it. -/
theorem State.detach_eq (hf : (s.drive d).flush.1.img = some k) :
    s.detach d = ({ s.setDrive d { (s.drive d).flush.1 with tb := none, img := none } with
      store := s.store.set k.name (some k.returned) }, (s.drive d).flush.2) := by
  simp only [State.detach, Drive.unload, hf]

end eject

/-- Settles O57: the flush keeps the image's name, layout and read-only attribute. -/
theorem ejectDetachesImage : Obligations.EjectDetachesImage := by
  refine fun i s => ⟨by revert i; decide, fun h => exec_eject_range (driveIndex_of_gt h), ?_⟩
  rintro d rfl
  have hd := driveIndex_ofDrive d
  refine ⟨exec_eject_empty hd, fun k hk => ?_⟩
  obtain ⟨k', hf, hname, hlay, hro, -⟩ := (s.drive d).flush_img hk
  refine ⟨k', hf, hname, hlay, hro, ?_⟩
  rw [exec_eject_attached hd hk, State.detach_eq hf, ← hname, ← hlay, ← hro]
  rfl

section undo
variable {d : DriveId} {s : State} {name : Nat} {h : HostImage}

/-- An image of its layout's length comes back from a drive as it went in (R265). -/
theorem HostImage.returned_attached (hl : h.len = h.layout.bytes) (name : Nat) : (h.attached name).returned = h := by
  simp only [HostImage.attached, Disk.returned, ← hl]

/-- The place emptied by INSERT is filled again by EJECT. -/
theorem set_none_set_self (hst : s.store[name]? = some (some h)) :
    (s.store.set name none).set name (some h) = s.store := by
  obtain ⟨hlt, hget⟩ := List.getElem?_eq_some_iff.mp hst
  rw [List.set_set, ← hget, List.set_getElem_self]

/-- R196, R197: attach and detach undo each other on a drive without image and buffer: there is nothing to flush. -/
theorem State.detach_attach (hn : (s.drive d).img = none) (ht : (s.drive d).tb = none)
    (hst : s.store[name]? = some (some h)) (hl : h.len = h.layout.bytes) : (s.attach d name h).detach d = (s, 0) := by
  have hf : ((s.attach d name h).drive d).flush = ((s.attach d name h).drive d, 0) :=
    Drive.flush_clean (by simp [ht])
  have himg : ((s.attach d name h).drive d).flush.1.img = some (h.attached name) := by rw [hf]; simp
  have hempty : { s.drive d with tb := none, img := none } = s.drive d := by rw [← ht, ← hn]
  rw [State.detach_eq himg, hf, HostImage.returned_attached hl, State.attach_store]
  have hstore : (s.store.set name none).set (h.attached name).name (some h) = s.store := set_none_set_self hst
  rw [hstore, State.attach_drive_same]
  simp only [hempty]
  cases d <;> rfl

/-- The response of the operation before has no part in EJECT. -/
theorem State.detach_reply (v : Byte) (f : BitVec 16) :
    (s.reply v f).detach d = ((s.detach d).1.reply v f, (s.detach d).2) := by
  cases d <;> rfl

end undo

/-- Settles O58: an INSERT answered OK has attached an image, to a drive that a sound state leaves without a buffer. -/
theorem ejectUndoesInsert : Obligations.EjectUndoesInsert := by
  intro i d s t u hi hd hn hins hok hej
  obtain ⟨hdrives, -, -⟩ := hi
  have ht : (s.drive d).tb = none := by simpa [hn] using (hdrives d).1
  have hins : execInsert i s = .next t := hins
  rcases execInsert_cases i s with ⟨c, h', hc⟩ | ⟨_, _, _, _, _, _, _, h'⟩ | ⟨d', name, h, hd', -, -, hst, hl, h'⟩ <;>
    rw [h'] at hins
  · obtain rfl := next_inj hins
    obtain rfl : c = .ok := hok
    cases hc
  · cases hins
  · obtain rfl := next_inj hins
    obtain rfl : d = d' := Option.some.inj (hd.symm.trans hd')
    have hk : (((s.attach d name h).reply 0 0).drive d).img = some (h.attached name) := by simp
    rw [exec_eject_attached hd hk, State.detach_reply, State.detach_attach hn ht hst hl] at hej
    exact (next_inj hej).symm

/-- Settles O51. -/
theorem setwmSetsMode : Obligations.SetwmSetsMode :=
  fun e _ => ⟨by cases e <;> decide, rfl⟩

/-- Settles O52: RWBYTE is no writer of the latch (`controllerRegisterWriters`). -/
theorem ldlatchLoadsLatch : Obligations.LdlatchLoadsLatch := by
  refine fun b s => ⟨by revert b; decide, rfl, fun t h => ?_⟩
  obtain ⟨-, -, hlatch, -⟩ := controllerRegisterWriters .rwbyte s t h
  by_contra hne
  obtain ⟨b', hb'⟩ := hlatch hne
  cases hb'

/-- R199: what RDSTAT does for either value of its parameter. -/
theorem State.readStatus_eq (s : State) (clear : Bool) :
    s.readStatus clear = (if clear then s.setProtStatus false else s).respond
      (okResponse (if s.ctl.pstat then 1 else 0)) .none := rfl

/-- Settles O60: the default parameter is false. -/
theorem rdstatReadsStatus : Obligations.RdstatReadsStatus :=
  fun s => ⟨by decide, congrArg Host.Outcome.next (s.readStatus_eq false), s.readStatus_eq false, s.readStatus_eq true⟩

end Sys2Proof.Machine
end

