-- ==== Sys2Proof/Proofs/Exceptions.lean ====
section
/-! What an operation reports (R220 to R225): whether a step completes, a ProtocolPrecondition, a decode failure. The last
two are read off the answer that goes with an effect (`exec_effect`). -/

namespace Sys2Proof.Machine

theorem failStatus_eq_decodeIntegrity_iff {f : BitVec 16} : failStatus f = .decodeIntegrity ↔ f ≠ 0 := by
  unfold failStatus
  split
  · next h => exact iff_of_false nofun (not_not_intro h)
  · next h => exact iff_of_true rfl h

section answer
variable {s u : State} {i : Instr} {r : Response} {out : SideResult}

/-- R221: only a raise answers with a ProtocolPrecondition, and it has no effect. -/
theorem Answer.of_isPrecondition (ha : Answer s i u r out) (hp : r.status.isPrecondition = true) :
    u = s ∧ r = raisedResponse r.status ∧ out = .none := by
  cases ha with
  | raised => exact ⟨rfl, rfl, rfl⟩
  | done | decoded => exact absurd hp (Bool.eq_false_iff.mp (failStatus_not_precondition _))
  | encoded => cases hp

/-- R222: DECODE_INTEGRITY is the status of a mask that is not 0. -/
theorem Answer.status_eq_decodeIntegrity_iff (ha : Answer s i u r out) :
    r.status = .decodeIntegrity ↔ r.fail ≠ 0 := by
  cases ha with
  | raised _ hc => exact iff_of_false (by rintro rfl; cases hc) (not_not_intro rfl)
  | done | decoded => exact failStatus_eq_decodeIntegrity_iff
  | encoded => exact iff_of_false nofun (not_not_intro rfl)

/-- R222: where a mask that is not 0 comes from. -/
theorem Answer.fail_source (ha : Answer s i u r out) (hf : r.fail ≠ 0) :
    (∃ t, i = .cdec t) ∨ (Instr.canFlush i = true ∧ ∃ d, s.DirtySector d) := by
  cases ha with
  | raised | encoded => exact absurd rfl hf
  | done _ _ _ hflush => exact .inr (hflush hf)
  | decoded t _ _ hi => exact .inl ⟨t, hi⟩

end answer

/-- R221: an operation that answers a ProtocolPrecondition changes nothing but its answer. -/
theorem exec_of_isPrecondition {i : Instr} {s t : State} (h : exec i s = .next t)
    (hp : t.resp.status.isPrecondition = true) : t = s.respond (raisedResponse t.resp.status) .none := by
  obtain ⟨u, r, out, -, ha, rfl⟩ := exec_effect h
  obtain ⟨rfl, hr, rfl⟩ := ha.of_isPrecondition hp
  exact congrArg (u.respond · .none) hr

/-- Settles O12: a step is idle, reports an illegal word, or performs an operation, and of the operations only INSERT can
be refused (`exec_next_or_shared`). -/
theorem nothingIsFatal : Obligations.NothingIsFatal := by
  intro s
  cases hq : s.queue with
  | nil => exact .inl ⟨s, step_of_queue_nil hq⟩
  | cons c rest =>
    cases hd : decode c.word with
    | error e => exact .inl ⟨_, step_of_decode_error hq hd⟩
    | ok i =>
      rw [step_of_decode_ok hq hd]
      rcases exec_next_or_shared i (s.issue c rest) with hnext | ⟨n, d, name, rfl, hn, himg, hside, hst, hheld, href⟩
      · exact .inl hnext
      · simp only [State.issue_drive] at himg hheld
        exact .inr ⟨href, c, rest, n, d, name, rfl, hd, hn, himg, hside, hst, hheld⟩

/-- Settles O13: the decoder's raise by its equation, an operation's by `exec_of_isPrecondition`. -/
theorem preconditionViolationChangesNothing : Obligations.PreconditionViolationChangesNothing := by
  intro s t c rest hq h hp
  cases hd : decode c.word with
  | error e =>
    obtain rfl := next_inj (step_of_decode_error hq hd ▸ h)
    rfl
  | ok i =>
    rw [step_of_decode_ok hq hd] at h
    exact exec_of_isPrecondition h hp

/-- Settles O14: both clauses hold of every answer. -/
theorem decodeIntegrityReported : Obligations.DecodeIntegrityReported := by
  intro i s t h
  obtain ⟨u, r, out, -, ha, rfl⟩ := exec_effect h
  exact ⟨ha.status_eq_decodeIntegrity_iff, ha.fail_source⟩

end Sys2Proof.Machine
end

