-- ==== Sys2Proof/Proofs/HostSide.lean ====
section
/-! The host's side of the state (R13, R14, R265), field by field: what an operation's effect does to it, and which
operations answer with a side-band result. -/

namespace Sys2Proof.Machine

section commitLatch
variable (s : State) (d : DriveId)

@[simp] theorem State.commitLatch_store : (s.commitLatch d).store = s.store := by simp [State.commitLatch_eq]
@[simp] theorem State.commitLatch_queue : (s.commitLatch d).queue = s.queue := by simp [State.commitLatch_eq]
@[simp] theorem State.commitLatch_sideIn : (s.commitLatch d).sideIn = s.sideIn := by simp [State.commitLatch_eq]
@[simp] theorem State.commitLatch_draws : (s.commitLatch d).draws = s.draws := by simp [State.commitLatch_eq]

end commitLatch

section effect
variable {s u : State} {i : Instr}

theorem Effect.queue_eq (he : Effect s i u) : u.queue = s.queue := by
  cases he with
  | quiet | mode | latch | drawByte | drawSense | reset => rfl
  | drive | commit | select | insert | eject => simp

theorem Effect.sideIn_eq (he : Effect s i u) : u.sideIn = s.sideIn := by
  cases he with
  | quiet | mode | latch | drawByte | drawSense | reset => rfl
  | drive | commit | select | insert | eject => simp

/-- R265: an image leaves the host's hands by INSERT and comes back by EJECT. -/
theorem Effect.store_eq_or (he : Effect s i u) : u.store = s.store ∨ (∃ n, i = .insert n) ∨ ∃ n, i = .eject n := by
  cases he with
  | insert n => exact .inr (.inl ⟨n, rfl⟩)
  | eject n => exact .inr (.inr ⟨n, rfl⟩)
  | quiet | mode | latch | drawByte | drawSense | reset => exact .inl rfl
  | drive | commit | select => exact .inl (by simp)

/-- R13: RWBYTE draws with no drive selected and after a commit, ISWP with no drive selected. -/
theorem Effect.draws_eq_or (he : Effect s i u) :
    u.draws = s.draws ∨ u.draws = s.draws + 1 ∧ (i = .rwbyte ∨ i = .iswp) := by
  cases he with
  | drawByte => exact .inr ⟨rfl, .inl rfl⟩
  | drawSense => exact .inr ⟨rfl, .inr rfl⟩
  | commit => exact .inr ⟨by simp, .inl rfl⟩
  | quiet | mode | latch | reset => exact .inl rfl
  | drive | select | insert | eject => exact .inl (by simp)

/-- R14: the codec's two operations are the ones with a side-band result. -/
theorem Answer.out_eq_or {r : Response} {out : SideResult} (ha : Answer s i u r out) :
    out = .none ∨ (∃ t, i = .cenc t) ∨ ∃ t, i = .cdec t := by
  cases ha with
  | raised | done => exact .inl rfl
  | encoded t _ hi => exact .inr (.inl ⟨t, hi⟩)
  | decoded t _ _ hi => exact .inr (.inr ⟨t, hi⟩)

end effect

/-- Settles O20: the response that follows an effect adds only the side-band result. -/
theorem hostSideFrame : Obligations.HostSideFrame := by
  intro i s t h
  obtain ⟨u, r, out, he, ha, rfl⟩ := exec_effect h
  exact ⟨he.queue_eq, he.sideIn_eq, he.store_eq_or.resolve_left, ha.out_eq_or.resolve_left,
    he.draws_eq_or.resolve_left⟩

end Sys2Proof.Machine
end

