-- ==== Sys2Proof/Proofs/Reset.lean ====
section
/-! The power-on state (R252) and RESET (R250, R251). A second RESET finds both drives as the first one left them: off,
with no buffer to flush. -/

namespace Sys2Proof.Machine

theorem exec_reset (s : State) :
    exec .reset s =
      .next (s.deselectAll.respond (flushResponse (s.drive0.flush.2 ||| s.drive1.flush.2)) .none) := rfl

section twice
variable (s : State)

/-- A drive turned off a second time stays as it is, and nothing is flushed. -/
theorem Drive.enable_false_enable_false (x : Drive) : (x.enable false).1.enable false = ((x.enable false).1, 0) :=
  Drive.enable_of_poweredAs (x.enable_poweredAs false)

theorem State.deselectAll_deselectAll : s.deselectAll.deselectAll = s.deselectAll := by
  have off (x : Drive) := congrArg Prod.fst x.enable_false_enable_false
  simp only [State.deselectAll, off]

theorem State.deselectAll_flush_fail (d : DriveId) : (s.deselectAll.drive d).flush.2 = 0 := by
  rw [State.deselectAll_drive]
  exact congrArg Prod.snd (s.drive d).enable_false_enable_false

theorem State.respond_deselectAll (r : Response) (out : SideResult) :
    (s.respond r out).deselectAll = s.deselectAll.respond r out := rfl

theorem exec_reset_deselectAll (r : Response) :
    exec .reset (s.deselectAll.respond r .none) = .next (s.deselectAll.respond (okResponse 0) .none) := by
  have h0 : s.deselectAll.drive0.flush.2 = 0 := s.deselectAll_flush_fail .d0
  have h1 : s.deselectAll.drive1.flush.2 = 0 := s.deselectAll_flush_fail .d1
  rw [exec_reset, State.respond_drive0, State.respond_drive1, h0, h1, State.respond_deselectAll,
    State.deselectAll_deselectAll]
  rfl

end twice

/-- Settles O48: the second RESET starts from a state that the first one deselected (`exec_reset_deselectAll`). -/
theorem resetTwiceIsReset : Obligations.ResetTwiceIsReset := by
  intro s t u ht hu
  obtain rfl := next_inj (exec_reset s ▸ ht)
  obtain rfl := next_inj (exec_reset_deselectAll s _ ▸ hu)
  rfl

/-- Settles O8: both drives are `Drive.powerOn`. -/
theorem powerOnState : Obligations.PowerOnState := by
  refine ⟨rfl, fun d => ?_⟩
  rw [State.reset_drive]
  exact ⟨rfl, rfl, rfl, rfl, rfl, rfl, rfl, rfl⟩

/-- Settles O47: turning a drive off is an unload (`Drive.enable_false`). -/
theorem resetDeselects : Obligations.ResetDeselects :=
  fun s => ⟨by decide, exec_reset s⟩

end Sys2Proof.Machine
end
